-- ==== Sys2Proof/Word.lean ====
section
/-! DEFINITION. The machine's words and register indices (spec/10_state.md R30, spec/00_scope.md section 4). -/

namespace Sys2Proof

/-- A `u32`: the contents of a register, of the pc and of a CSR, and an address while it is computed
(00_scope.md section 4, XLEN = 32 in R8). -/
abbrev Word := BitVec 32

/-- One byte of memory or of the debug channel. -/
abbrev Byte := BitVec 8

/-- A register index, 0 to 31 (30_encoding.md R119; NREG = 32 in 00_scope.md R8). -/
abbrev Reg := Fin 32

end Sys2Proof
end

