-- ==== Sys2Proof/Config.lean ====
section
/-! DEFINITION. The CSR catalogue and the parameters of an instance (spec/00_scope.md R8, spec/10_state.md R40, R52, R53). -/

namespace Sys2Proof

/-- The eight registers of the CSR bank (10_state.md R40); there is no other. -/
inductive Csr where
  | mstatus | mie | mtvec | mscratch | mepc | mcause | mtval | mip
deriving DecidableEq, Repr

/-- One 32-bit value for each CSR: the bank itself, or a mask for each register of it. -/
structure Csrs where
  mstatus  : Word
  mie      : Word
  mtvec    : Word
  mscratch : Word
  mepc     : Word
  mcause   : Word
  mtval    : Word
  mip      : Word
deriving DecidableEq, Repr

/-- The default write masks, WMASK[n] (10_state.md R52). -/
def Csrs.defaultWriteMasks : Csrs where
  mstatus  := 0x00001888
  mie      := 0x00000888
  mtvec    := 0xFFFFFFFC
  mscratch := 0xFFFFFFFF
  mepc     := 0xFFFFFFFF
  mcause   := 0xFFFFFFFF
  mtval    := 0xFFFFFFFF
  mip      := 0x00000000

/-- The same value for all eight registers. -/
def Csrs.all (v : Word) : Csrs := ⟨v, v, v, v, v, v, v, v⟩

/-- The parameters of one instance (00_scope.md R8). A parameter with a default has it here; the OPEN ones have none.
They are fixed for the lifetime of the instance (R9). DESIGN CHOICE, safe: they stand in `State.cfg`, so that a
statement about every state is a statement about every value of them (log entry 1). LOAD_OFFSET, IMAGE, the channel's
future input (60_exceptions.md R451) and the host's future answers are arguments of `Machine.State.create`. -/
structure Config where
  /-- MEM_SIZE, OPEN. -/
  memSize         : Nat
  /-- RESET_PC. -/
  resetPc         : Word := 0
  /-- FETCH_FAULT_CAUSE. -/
  fetchFaultCause : Word := 12
  /-- LOAD_FAULT_CAUSE. -/
  loadFaultCause  : Word := 13
  /-- STORE_FAULT_CAUSE. -/
  storeFaultCause : Word := 15
  /-- WMASK. -/
  writeMask       : Csrs := Csrs.defaultWriteMasks
  /-- RMASK. -/
  readMask        : Csrs := Csrs.all 0xFFFFFFFF
  /-- PKT_IN_CAP, OPEN. -/
  pktInCap        : Nat
  /-- PKT_OUT_CAP, OPEN. -/
  pktOutCap       : Nat
  /-- ATTN. -/
  attn            : Byte := 0x03
  /-- STOP_SIGNAL. -/
  stopSignal      : Byte := 5
  /-- Q_ACK_LETTER and Q_ACK_REPLY, OPEN; `none` is "no binding" (95_test_vectors.md section 2.12; log entry 17). -/
  qAck            : Option (Byte × List Byte)
  /-- CHANNEL_ATTACHED, OPEN. -/
  channelAttached : Bool
  /-- HOSTCALL, OPEN, default none: whether a host-capability hook is supplied (92_eei_decisions.md D24; log entry 11). -/
  hostCall        : Bool := false
deriving DecidableEq, Repr

/-- What the spec demands of every choice of the parameters: the bounds of 00_scope.md R8, cause codes of 31 bits
(60_exceptions.md section 1: bit 31 of mcause is 0), WMASK[mstatus][14:13] = 0 (10_state.md R52), Q_ACK_LETTER other than
'S' (60_exceptions.md R499), STOP_SIGNAL = 5 (00_scope.md R8). -/
structure Config.Wf (c : Config) : Prop where
  memSize_pos   : 1 ≤ c.memSize
  memSize_le    : c.memSize ≤ 2 ^ 32
  fetchCause    : c.fetchFaultCause.getLsbD 31 = false
  loadCause     : c.loadFaultCause.getLsbD 31 = false
  storeCause    : c.storeFaultCause.getLsbD 31 = false
  stripsFs      : c.writeMask.mstatus &&& 0x6000 = 0
  pktInCap_pos  : 1 ≤ c.pktInCap
  pktOutCap_ge  : 264 ≤ c.pktOutCap
  qAckLetter    : ∀ a ∈ c.qAck, a.1 ≠ 0x53
  stopSignal    : c.stopSignal = 5

/-- The parameters of `State.reset`: the defaults of 00_scope.md R8, and for the OPEN ones the values of the test vectors
(95_test_vectors.md, conventions and section 2.12), with no channel attached and no hook. DESIGN CHOICE, unsafe for a claim about
`State.reset` alone (log entry 2). -/
def Config.atReset : Config where
  memSize := 0x10000
  pktInCap := 0x400
  pktOutCap := 0x400
  qAck := none
  channelAttached := false

end Sys2Proof
end

