-- ==== Sys2Proof/Decode.lean ====
section
/-! DEFINITION. The decoder, total on every word and on any bytes, rejecting by name; the encoder, written from the same
tables; and the match and mask of every row of spec/opcode_table.json (spec/30_encoding.md R110 to R135). -/

namespace Sys2Proof

/-! ### Fields -/

/-- A 5-bit register field as an index (R119). -/
def regOfField (b : BitVec 5) : Reg := b.toFin

/-- A register index as the 5-bit field that names it (R119). -/
def fieldOfReg (r : Reg) : BitVec 5 := BitVec.ofFin r

/-- inst[6:0] (R119). -/
def opcodeOf (w : Word) : BitVec 7 := w.extractLsb' 0 7

/-- inst[11:7] (R119). -/
def rdOf (w : Word) : Reg := regOfField (w.extractLsb' 7 5)

/-- inst[14:12] (R119). -/
def funct3Of (w : Word) : BitVec 3 := w.extractLsb' 12 3

/-- inst[19:15] (R119). -/
def rs1Of (w : Word) : Reg := regOfField (w.extractLsb' 15 5)

/-- inst[24:20] (R119). -/
def rs2Of (w : Word) : Reg := regOfField (w.extractLsb' 20 5)

/-- inst[31:25] (R119). -/
def funct7Of (w : Word) : BitVec 7 := w.extractLsb' 25 7

/-- inst[31:20], the 12 bits of imm_I before sign extension (R120). -/
def immIOf (w : Word) : BitVec 12 := w.extractLsb' 20 12

/-- inst[31:25] ++ inst[11:7], the 12 bits of imm_S before sign extension (R121). -/
def immSOf (w : Word) : BitVec 12 := w.extractLsb' 25 7 ++ w.extractLsb' 7 5

/-- inst[31] ++ inst[7] ++ inst[30:25] ++ inst[11:8] ++ 0, the 13 bits of imm_B before sign extension (R122). -/
def immBOf (w : Word) : BitVec 13 :=
  w.extractLsb' 31 1 ++ (w.extractLsb' 7 1 ++ (w.extractLsb' 25 6 ++ (w.extractLsb' 8 4 ++ 0#1)))

/-- inst[31:12], the upper 20 bits of imm_U (R123). -/
def immUOf (w : Word) : BitVec 20 := w.extractLsb' 12 20

/-- inst[31] ++ inst[19:12] ++ inst[20] ++ inst[30:21] ++ 0, the 21 bits of imm_J before sign extension (R124). -/
def immJOf (w : Word) : BitVec 21 :=
  w.extractLsb' 31 1 ++ (w.extractLsb' 12 8 ++ (w.extractLsb' 20 1 ++ (w.extractLsb' 21 10 ++ 0#1)))

/-- inst[24:20], unsigned (R125). -/
def shamtOf (w : Word) : BitVec 5 := w.extractLsb' 20 5

/-- inst[31:20], unsigned (R126). -/
def csrOf (w : Word) : BitVec 12 := w.extractLsb' 20 12

/-! ### The decoder -/

/-- Why bytes are no instruction. On the hardware every word that is none is the one illegal-instruction exception
(R130; 46_system.md R320): the name has no effect (log entry 20). -/
inductive Illegal where
  /-- A major opcode outside R127. -/
  | opcode
  /-- An illegal cell of the funct3 and funct7 tables of R128, R129 and R132. -/
  | functionField
  /-- A shift whose inst[31:25] is not one R129 lists. -/
  | reservedImmediate
  /-- A SYSTEM word with funct3 = 000 that is none of the four of R132. -/
  | systemWord
  /-- Fewer than four bytes; a fetch always reads four (R110), so no step meets this. -/
  | tooFewBytes
deriving DecidableEq, Repr

/-- What a word is: exactly one instruction of the table, or illegal (R130). -/
inductive Decoded where
  | instr (i : Instr)
  | illegal (why : Illegal)
deriving DecidableEq, Repr

/-- BRANCH: funct3 selects (R128). -/
def decodeBranch (funct3 : BitVec 3) (rs1 rs2 : Reg) (offset : BitVec 13) : Decoded :=
  match funct3 with
  | 0b000#3 => .instr (.beq rs1 rs2 offset)
  | 0b001#3 => .instr (.bne rs1 rs2 offset)
  | 0b100#3 => .instr (.blt rs1 rs2 offset)
  | 0b101#3 => .instr (.bge rs1 rs2 offset)
  | 0b110#3 => .instr (.bltu rs1 rs2 offset)
  | 0b111#3 => .instr (.bgeu rs1 rs2 offset)
  | _ => .illegal .functionField

/-- LOAD: funct3 selects (R128). -/
def decodeLoad (funct3 : BitVec 3) (rd rs1 : Reg) (imm : BitVec 12) : Decoded :=
  match funct3 with
  | 0b000#3 => .instr (.lb rd rs1 imm)
  | 0b001#3 => .instr (.lh rd rs1 imm)
  | 0b010#3 => .instr (.lw rd rs1 imm)
  | 0b100#3 => .instr (.lbu rd rs1 imm)
  | 0b101#3 => .instr (.lhu rd rs1 imm)
  | _ => .illegal .functionField

/-- STORE: funct3 selects (R128). -/
def decodeStore (funct3 : BitVec 3) (rs2 rs1 : Reg) (imm : BitVec 12) : Decoded :=
  match funct3 with
  | 0b000#3 => .instr (.sb rs2 rs1 imm)
  | 0b001#3 => .instr (.sh rs2 rs1 imm)
  | 0b010#3 => .instr (.sw rs2 rs1 imm)
  | _ => .illegal .functionField

/-- SLLI, and SRLI or SRAI: inst[31:25] must match as well (R129). -/
def decodeShiftLeft (funct7 : BitVec 7) (rd rs1 : Reg) (shamt : BitVec 5) : Decoded :=
  match funct7 with
  | 0b0000000#7 => .instr (.slli rd rs1 shamt)
  | _ => .illegal .reservedImmediate

@[inherit_doc decodeShiftLeft]
def decodeShiftRight (funct7 : BitVec 7) (rd rs1 : Reg) (shamt : BitVec 5) : Decoded :=
  match funct7 with
  | 0b0000000#7 => .instr (.srli rd rs1 shamt)
  | 0b0100000#7 => .instr (.srai rd rs1 shamt)
  | _ => .illegal .reservedImmediate

/-- OP-IMM: funct3 selects (R129). -/
def decodeOpImm (funct3 : BitVec 3) (funct7 : BitVec 7) (rd rs1 : Reg) (imm : BitVec 12) (shamt : BitVec 5) : Decoded :=
  match funct3 with
  | 0b000#3 => .instr (.addi rd rs1 imm)
  | 0b010#3 => .instr (.slti rd rs1 imm)
  | 0b011#3 => .instr (.sltiu rd rs1 imm)
  | 0b100#3 => .instr (.xori rd rs1 imm)
  | 0b110#3 => .instr (.ori rd rs1 imm)
  | 0b111#3 => .instr (.andi rd rs1 imm)
  | 0b001#3 => decodeShiftLeft funct7 rd rs1 shamt
  | 0b101#3 => decodeShiftRight funct7 rd rs1 shamt
  | _ => .illegal .functionField

/-- OP with funct7 = 0000000: funct3 selects (R129). -/
def decodeOpBase (funct3 : BitVec 3) (rd rs1 rs2 : Reg) : Decoded :=
  match funct3 with
  | 0b000#3 => .instr (.add rd rs1 rs2)
  | 0b001#3 => .instr (.sll rd rs1 rs2)
  | 0b010#3 => .instr (.slt rd rs1 rs2)
  | 0b011#3 => .instr (.sltu rd rs1 rs2)
  | 0b100#3 => .instr (.xor rd rs1 rs2)
  | 0b101#3 => .instr (.srl rd rs1 rs2)
  | 0b110#3 => .instr (.or rd rs1 rs2)
  | 0b111#3 => .instr (.and rd rs1 rs2)
  | _ => .illegal .functionField

/-- OP with funct7 = 0100000: SUB and SRA only (R129). -/
def decodeOpAlternate (funct3 : BitVec 3) (rd rs1 rs2 : Reg) : Decoded :=
  match funct3 with
  | 0b000#3 => .instr (.sub rd rs1 rs2)
  | 0b101#3 => .instr (.sra rd rs1 rs2)
  | _ => .illegal .functionField

/-- OP with funct7 = 0000001: the M instructions (R129). -/
def decodeOpMulDiv (funct3 : BitVec 3) (rd rs1 rs2 : Reg) : Decoded :=
  match funct3 with
  | 0b000#3 => .instr (.mul rd rs1 rs2)
  | 0b001#3 => .instr (.mulh rd rs1 rs2)
  | 0b010#3 => .instr (.mulhsu rd rs1 rs2)
  | 0b011#3 => .instr (.mulhu rd rs1 rs2)
  | 0b100#3 => .instr (.div rd rs1 rs2)
  | 0b101#3 => .instr (.divu rd rs1 rs2)
  | 0b110#3 => .instr (.rem rd rs1 rs2)
  | 0b111#3 => .instr (.remu rd rs1 rs2)
  | _ => .illegal .functionField

/-- OP: funct7 and funct3 select together (R129). -/
def decodeOp (funct7 : BitVec 7) (funct3 : BitVec 3) (rd rs1 rs2 : Reg) : Decoded :=
  match funct7 with
  | 0b0000000#7 => decodeOpBase funct3 rd rs1 rs2
  | 0b0100000#7 => decodeOpAlternate funct3 rd rs1 rs2
  | 0b0000001#7 => decodeOpMulDiv funct3 rd rs1 rs2
  | _ => .illegal .functionField

/-- SYSTEM with funct3 = 000: the whole word must match (R132). -/
def decodeSystemWord (w : Word) : Decoded :=
  match w with
  | 0x00000073#32 => .instr .ecall
  | 0x00100073#32 => .instr .ebreak
  | 0x30200073#32 => .instr .mret
  | 0x10500073#32 => .instr .wfi
  | _ => .illegal .systemWord

/-- SYSTEM: funct3 selects (R132). The CSR number is not checked here but when the instruction executes
(R132 "none at decode"; log entry 13). -/
def decodeSystem (w : Word) : Decoded :=
  match funct3Of w with
  | 0b000#3 => decodeSystemWord w
  | 0b001#3 => .instr (.csrrw (rdOf w) (csrOf w) (rs1Of w))
  | 0b010#3 => .instr (.csrrs (rdOf w) (csrOf w) (rs1Of w))
  | 0b011#3 => .instr (.csrrc (rdOf w) (csrOf w) (rs1Of w))
  | _ => .illegal .functionField

/-- JALR: funct3 must be 000 (R128). -/
def decodeJalr (funct3 : BitVec 3) (rd rs1 : Reg) (imm : BitVec 12) : Decoded :=
  match funct3 with
  | 0b000#3 => .instr (.jalr rd rs1 imm)
  | _ => .illegal .functionField

/-- What a 32-bit word is: the major opcode selects the class (R127); a word no row selects is illegal (R130). -/
def decode (w : Word) : Decoded :=
  match opcodeOf w with
  | 0b0110111#7 => .instr (.lui (rdOf w) (immUOf w))
  | 0b0010111#7 => .instr (.auipc (rdOf w) (immUOf w))
  | 0b1101111#7 => .instr (.jal (rdOf w) (immJOf w))
  | 0b1100111#7 => decodeJalr (funct3Of w) (rdOf w) (rs1Of w) (immIOf w)
  | 0b1100011#7 => decodeBranch (funct3Of w) (rs1Of w) (rs2Of w) (immBOf w)
  | 0b0000011#7 => decodeLoad (funct3Of w) (rdOf w) (rs1Of w) (immIOf w)
  | 0b0100011#7 => decodeStore (funct3Of w) (rs2Of w) (rs1Of w) (immSOf w)
  | 0b0010011#7 => decodeOpImm (funct3Of w) (funct7Of w) (rdOf w) (rs1Of w) (immIOf w) (shamtOf w)
  | 0b0110011#7 => decodeOp (funct7Of w) (funct3Of w) (rdOf w) (rs1Of w) (rs2Of w)
  | 0b1110011#7 => decodeSystem w
  | _ => .illegal .opcode

/-! ### Words and bytes -/

/-- The low `n` bytes of a word, least significant first (20_memory.md R83). -/
def bytesLE : Nat → Word → List Byte
  | 0, _ => []
  | n + 1, v => v.setWidth 8 :: bytesLE n (v >>> 8)

/-- The little-endian value of bytes, zero-extended to a word (20_memory.md R81). -/
def ofBytesLE : List Byte → Word
  | [] => 0
  | b :: bs => b.setWidth 32 ||| (ofBytesLE bs <<< 8)

/-- What the first four bytes at an address are, lowest address first: every instruction is one little-endian 4-byte word
(R110). Total on any bytes. -/
def decodeBytes : List Byte → Decoded
  | b0 :: b1 :: b2 :: b3 :: _ => decode (ofBytesLE [b0, b1, b2, b3])
  | _ => .illegal .tooFewBytes

/-- A table row's bits as the instruction word: the `nbits` low bits of `w`, every bit above them 0. -/
def tableWord (nbits w : Nat) : Word := BitVec.ofNat 32 (w % 2 ^ nbits)

/-- The instruction the decoder reads from an instruction whose bits, numbered as spec/opcode_table.json numbers them, are
`w`: the word is laid out as the hardware stores it and given to the decoder. -/
def decodeTableWord (nbits w : Nat) : Option Instr :=
  match decodeBytes (bytesLE 4 (tableWord nbits w)) with
  | .instr i => some i
  | .illegal _ => none

/-! ### The encoder -/

/-- R-type (R111). -/
def encodeR (funct7 : BitVec 7) (funct3 : BitVec 3) (opcode : BitVec 7) (rd rs1 rs2 : Reg) : Word :=
  funct7 ++ (fieldOfReg rs2 ++ (fieldOfReg rs1 ++ (funct3 ++ (fieldOfReg rd ++ opcode))))

/-- I-type (R112); I-csr has the number in the immediate's place (R114). -/
def encodeI (funct3 : BitVec 3) (opcode : BitVec 7) (rd rs1 : Reg) (imm : BitVec 12) : Word :=
  imm ++ (fieldOfReg rs1 ++ (funct3 ++ (fieldOfReg rd ++ opcode)))

/-- I-shift (R113). -/
def encodeShift (funct7 : BitVec 7) (funct3 : BitVec 3) (rd rs1 : Reg) (shamt : BitVec 5) : Word :=
  funct7 ++ (shamt ++ (fieldOfReg rs1 ++ (funct3 ++ (fieldOfReg rd ++ 0b0010011#7))))

/-- S-type (R115). -/
def encodeS (funct3 : BitVec 3) (rs2 rs1 : Reg) (imm : BitVec 12) : Word :=
  imm.extractLsb' 5 7 ++ (fieldOfReg rs2 ++ (fieldOfReg rs1 ++ (funct3 ++ (imm.extractLsb' 0 5 ++ 0b0100011#7))))

/-- B-type (R116): bit 0 of the offset is not encoded. -/
def encodeB (funct3 : BitVec 3) (rs1 rs2 : Reg) (offset : BitVec 13) : Word :=
  offset.extractLsb' 12 1 ++ (offset.extractLsb' 5 6 ++ (fieldOfReg rs2 ++ (fieldOfReg rs1 ++ (funct3 ++
    (offset.extractLsb' 1 4 ++ (offset.extractLsb' 11 1 ++ 0b1100011#7))))))

/-- U-type (R117). -/
def encodeU (opcode : BitVec 7) (rd : Reg) (imm : BitVec 20) : Word :=
  imm ++ (fieldOfReg rd ++ opcode)

/-- J-type (R118): bit 0 of the offset is not encoded. -/
def encodeJ (rd : Reg) (offset : BitVec 21) : Word :=
  offset.extractLsb' 20 1 ++ (offset.extractLsb' 1 10 ++ (offset.extractLsb' 11 1 ++ (offset.extractLsb' 12 8 ++
    (fieldOfReg rd ++ 0b1101111#7))))

/-- The word of a well-formed instruction (R111 to R118, with the function codes of R127 to R132). -/
def encode : Instr → Word
  | .lui rd imm => encodeU 0b0110111#7 rd imm
  | .auipc rd imm => encodeU 0b0010111#7 rd imm
  | .jal rd offset => encodeJ rd offset
  | .jalr rd rs1 imm => encodeI 0b000#3 0b1100111#7 rd rs1 imm
  | .beq rs1 rs2 offset => encodeB 0b000#3 rs1 rs2 offset
  | .bne rs1 rs2 offset => encodeB 0b001#3 rs1 rs2 offset
  | .blt rs1 rs2 offset => encodeB 0b100#3 rs1 rs2 offset
  | .bge rs1 rs2 offset => encodeB 0b101#3 rs1 rs2 offset
  | .bltu rs1 rs2 offset => encodeB 0b110#3 rs1 rs2 offset
  | .bgeu rs1 rs2 offset => encodeB 0b111#3 rs1 rs2 offset
  | .lb rd rs1 imm => encodeI 0b000#3 0b0000011#7 rd rs1 imm
  | .lh rd rs1 imm => encodeI 0b001#3 0b0000011#7 rd rs1 imm
  | .lw rd rs1 imm => encodeI 0b010#3 0b0000011#7 rd rs1 imm
  | .lbu rd rs1 imm => encodeI 0b100#3 0b0000011#7 rd rs1 imm
  | .lhu rd rs1 imm => encodeI 0b101#3 0b0000011#7 rd rs1 imm
  | .sb rs2 rs1 imm => encodeS 0b000#3 rs2 rs1 imm
  | .sh rs2 rs1 imm => encodeS 0b001#3 rs2 rs1 imm
  | .sw rs2 rs1 imm => encodeS 0b010#3 rs2 rs1 imm
  | .addi rd rs1 imm => encodeI 0b000#3 0b0010011#7 rd rs1 imm
  | .slti rd rs1 imm => encodeI 0b010#3 0b0010011#7 rd rs1 imm
  | .sltiu rd rs1 imm => encodeI 0b011#3 0b0010011#7 rd rs1 imm
  | .xori rd rs1 imm => encodeI 0b100#3 0b0010011#7 rd rs1 imm
  | .ori rd rs1 imm => encodeI 0b110#3 0b0010011#7 rd rs1 imm
  | .andi rd rs1 imm => encodeI 0b111#3 0b0010011#7 rd rs1 imm
  | .slli rd rs1 shamt => encodeShift 0b0000000#7 0b001#3 rd rs1 shamt
  | .srli rd rs1 shamt => encodeShift 0b0000000#7 0b101#3 rd rs1 shamt
  | .srai rd rs1 shamt => encodeShift 0b0100000#7 0b101#3 rd rs1 shamt
  | .add rd rs1 rs2 => encodeR 0b0000000#7 0b000#3 0b0110011#7 rd rs1 rs2
  | .sub rd rs1 rs2 => encodeR 0b0100000#7 0b000#3 0b0110011#7 rd rs1 rs2
  | .sll rd rs1 rs2 => encodeR 0b0000000#7 0b001#3 0b0110011#7 rd rs1 rs2
  | .slt rd rs1 rs2 => encodeR 0b0000000#7 0b010#3 0b0110011#7 rd rs1 rs2
  | .sltu rd rs1 rs2 => encodeR 0b0000000#7 0b011#3 0b0110011#7 rd rs1 rs2
  | .xor rd rs1 rs2 => encodeR 0b0000000#7 0b100#3 0b0110011#7 rd rs1 rs2
  | .srl rd rs1 rs2 => encodeR 0b0000000#7 0b101#3 0b0110011#7 rd rs1 rs2
  | .sra rd rs1 rs2 => encodeR 0b0100000#7 0b101#3 0b0110011#7 rd rs1 rs2
  | .or rd rs1 rs2 => encodeR 0b0000000#7 0b110#3 0b0110011#7 rd rs1 rs2
  | .and rd rs1 rs2 => encodeR 0b0000000#7 0b111#3 0b0110011#7 rd rs1 rs2
  | .mul rd rs1 rs2 => encodeR 0b0000001#7 0b000#3 0b0110011#7 rd rs1 rs2
  | .mulh rd rs1 rs2 => encodeR 0b0000001#7 0b001#3 0b0110011#7 rd rs1 rs2
  | .mulhsu rd rs1 rs2 => encodeR 0b0000001#7 0b010#3 0b0110011#7 rd rs1 rs2
  | .mulhu rd rs1 rs2 => encodeR 0b0000001#7 0b011#3 0b0110011#7 rd rs1 rs2
  | .div rd rs1 rs2 => encodeR 0b0000001#7 0b100#3 0b0110011#7 rd rs1 rs2
  | .divu rd rs1 rs2 => encodeR 0b0000001#7 0b101#3 0b0110011#7 rd rs1 rs2
  | .rem rd rs1 rs2 => encodeR 0b0000001#7 0b110#3 0b0110011#7 rd rs1 rs2
  | .remu rd rs1 rs2 => encodeR 0b0000001#7 0b111#3 0b0110011#7 rd rs1 rs2
  | .ecall => 0x00000073#32
  | .ebreak => 0x00100073#32
  | .mret => 0x30200073#32
  | .wfi => 0x10500073#32
  | .csrrw rd csr rs1 => encodeI 0b001#3 0b1110011#7 rd rs1 csr
  | .csrrs rd csr rs1 => encodeI 0b010#3 0b1110011#7 rd rs1 csr
  | .csrrc rd csr rs1 => encodeI 0b011#3 0b1110011#7 rd rs1 csr

/-! ### The rows of the opcode table -/

/-- A row of spec/opcode_table.json: it selects the word `w` when `w &&& mask = pattern` (30_encoding.md, opening). -/
structure OpcodeRow where
  pattern : Word
  mask    : Word
deriving DecidableEq, Repr

/-- The row selects the word. -/
def OpcodeRow.selects (r : OpcodeRow) (w : Word) : Prop := w &&& r.mask = r.pattern

/-- The row of an instruction, `match` and `mask` as spec/opcode_table.json prints them. -/
def Instr.row : Instr → OpcodeRow
  | .lui _ _ => ⟨0x00000037, 0x0000007F⟩
  | .auipc _ _ => ⟨0x00000017, 0x0000007F⟩
  | .jal _ _ => ⟨0x0000006F, 0x0000007F⟩
  | .jalr _ _ _ => ⟨0x00000067, 0x0000707F⟩
  | .beq _ _ _ => ⟨0x00000063, 0x0000707F⟩
  | .bne _ _ _ => ⟨0x00001063, 0x0000707F⟩
  | .blt _ _ _ => ⟨0x00004063, 0x0000707F⟩
  | .bge _ _ _ => ⟨0x00005063, 0x0000707F⟩
  | .bltu _ _ _ => ⟨0x00006063, 0x0000707F⟩
  | .bgeu _ _ _ => ⟨0x00007063, 0x0000707F⟩
  | .lb _ _ _ => ⟨0x00000003, 0x0000707F⟩
  | .lh _ _ _ => ⟨0x00001003, 0x0000707F⟩
  | .lw _ _ _ => ⟨0x00002003, 0x0000707F⟩
  | .lbu _ _ _ => ⟨0x00004003, 0x0000707F⟩
  | .lhu _ _ _ => ⟨0x00005003, 0x0000707F⟩
  | .sb _ _ _ => ⟨0x00000023, 0x0000707F⟩
  | .sh _ _ _ => ⟨0x00001023, 0x0000707F⟩
  | .sw _ _ _ => ⟨0x00002023, 0x0000707F⟩
  | .addi _ _ _ => ⟨0x00000013, 0x0000707F⟩
  | .slti _ _ _ => ⟨0x00002013, 0x0000707F⟩
  | .sltiu _ _ _ => ⟨0x00003013, 0x0000707F⟩
  | .xori _ _ _ => ⟨0x00004013, 0x0000707F⟩
  | .ori _ _ _ => ⟨0x00006013, 0x0000707F⟩
  | .andi _ _ _ => ⟨0x00007013, 0x0000707F⟩
  | .slli _ _ _ => ⟨0x00001013, 0xFE00707F⟩
  | .srli _ _ _ => ⟨0x00005013, 0xFE00707F⟩
  | .srai _ _ _ => ⟨0x40005013, 0xFE00707F⟩
  | .add _ _ _ => ⟨0x00000033, 0xFE00707F⟩
  | .sub _ _ _ => ⟨0x40000033, 0xFE00707F⟩
  | .sll _ _ _ => ⟨0x00001033, 0xFE00707F⟩
  | .slt _ _ _ => ⟨0x00002033, 0xFE00707F⟩
  | .sltu _ _ _ => ⟨0x00003033, 0xFE00707F⟩
  | .xor _ _ _ => ⟨0x00004033, 0xFE00707F⟩
  | .srl _ _ _ => ⟨0x00005033, 0xFE00707F⟩
  | .sra _ _ _ => ⟨0x40005033, 0xFE00707F⟩
  | .or _ _ _ => ⟨0x00006033, 0xFE00707F⟩
  | .and _ _ _ => ⟨0x00007033, 0xFE00707F⟩
  | .mul _ _ _ => ⟨0x02000033, 0xFE00707F⟩
  | .mulh _ _ _ => ⟨0x02001033, 0xFE00707F⟩
  | .mulhsu _ _ _ => ⟨0x02002033, 0xFE00707F⟩
  | .mulhu _ _ _ => ⟨0x02003033, 0xFE00707F⟩
  | .div _ _ _ => ⟨0x02004033, 0xFE00707F⟩
  | .divu _ _ _ => ⟨0x02005033, 0xFE00707F⟩
  | .rem _ _ _ => ⟨0x02006033, 0xFE00707F⟩
  | .remu _ _ _ => ⟨0x02007033, 0xFE00707F⟩
  | .ecall => ⟨0x00000073, 0xFFFFFFFF⟩
  | .ebreak => ⟨0x00100073, 0xFFFFFFFF⟩
  | .mret => ⟨0x30200073, 0xFFFFFFFF⟩
  | .wfi => ⟨0x10500073, 0xFFFFFFFF⟩
  | .csrrw _ _ _ => ⟨0x00001073, 0x0000707F⟩
  | .csrrs _ _ _ => ⟨0x00002073, 0x0000707F⟩
  | .csrrc _ _ _ => ⟨0x00003073, 0x0000707F⟩

/-- All 52 rows, in the table's order. -/
def opcodeTable : List OpcodeRow :=
  [⟨0x00000037, 0x0000007F⟩,
   ⟨0x00000017, 0x0000007F⟩] ++
  [⟨0x0000006F, 0x0000007F⟩,
   ⟨0x00000067, 0x0000707F⟩,
   ⟨0x00000063, 0x0000707F⟩,
   ⟨0x00001063, 0x0000707F⟩,
   ⟨0x00004063, 0x0000707F⟩,
   ⟨0x00005063, 0x0000707F⟩,
   ⟨0x00006063, 0x0000707F⟩,
   ⟨0x00007063, 0x0000707F⟩] ++
  [⟨0x00000003, 0x0000707F⟩,
   ⟨0x00001003, 0x0000707F⟩,
   ⟨0x00002003, 0x0000707F⟩,
   ⟨0x00004003, 0x0000707F⟩,
   ⟨0x00005003, 0x0000707F⟩,
   ⟨0x00000023, 0x0000707F⟩,
   ⟨0x00001023, 0x0000707F⟩,
   ⟨0x00002023, 0x0000707F⟩] ++
  [⟨0x00000013, 0x0000707F⟩,
   ⟨0x00002013, 0x0000707F⟩,
   ⟨0x00003013, 0x0000707F⟩,
   ⟨0x00004013, 0x0000707F⟩,
   ⟨0x00006013, 0x0000707F⟩,
   ⟨0x00007013, 0x0000707F⟩,
   ⟨0x00001013, 0xFE00707F⟩,
   ⟨0x00005013, 0xFE00707F⟩,
   ⟨0x40005013, 0xFE00707F⟩] ++
  [⟨0x00000033, 0xFE00707F⟩,
   ⟨0x40000033, 0xFE00707F⟩,
   ⟨0x00001033, 0xFE00707F⟩,
   ⟨0x00002033, 0xFE00707F⟩,
   ⟨0x00003033, 0xFE00707F⟩,
   ⟨0x00004033, 0xFE00707F⟩,
   ⟨0x00005033, 0xFE00707F⟩,
   ⟨0x40005033, 0xFE00707F⟩,
   ⟨0x00006033, 0xFE00707F⟩,
   ⟨0x00007033, 0xFE00707F⟩] ++
  [⟨0x02000033, 0xFE00707F⟩,
   ⟨0x02001033, 0xFE00707F⟩,
   ⟨0x02002033, 0xFE00707F⟩,
   ⟨0x02003033, 0xFE00707F⟩,
   ⟨0x02004033, 0xFE00707F⟩,
   ⟨0x02005033, 0xFE00707F⟩,
   ⟨0x02006033, 0xFE00707F⟩,
   ⟨0x02007033, 0xFE00707F⟩] ++
  [⟨0x00000073, 0xFFFFFFFF⟩,
   ⟨0x00100073, 0xFFFFFFFF⟩,
   ⟨0x30200073, 0xFFFFFFFF⟩,
   ⟨0x10500073, 0xFFFFFFFF⟩,
   ⟨0x00001073, 0x0000707F⟩,
   ⟨0x00002073, 0x0000707F⟩,
   ⟨0x00003073, 0x0000707F⟩]

end Sys2Proof
end

