-- ==== Sys2Proof/Machine/State.lean ====
section
/-! DEFINITION. The state of one instance of the CORE as plain data, its reasons to stop, and the state after reset
(spec/10_state.md; spec/60_exceptions.md sections 9 to 14 for the controller and the stub). -/

namespace Sys2Proof.Machine

/-- Physical memory: (address, byte) pairs, addresses strictly rising, none with the byte 0, which is what an address that
is not listed reads as (10_state.md R55, "zero-initialized"; log entry 15). -/
abbrev Memory := List Host.Cell

/-- The privilege mode: machine is the only one (60_exceptions.md R430; log entry 18). -/
inductive Privilege where
  | machine
deriving DecidableEq, Repr

/-- The run controller's mode (10_state.md R57, 60_exceptions.md R450). -/
inductive Mode where
  | run
  | debug
deriving DecidableEq, Repr

/-- Why the current session was entered (10_state.md R57). -/
inductive Entry where
  | trap
  | attention
deriving DecidableEq, Repr

/-- The outcome of a step of the execute engine, `continue` or `trapped` (00_scope.md section 4). -/
inductive StepOutcome where
  | continued
  | trapped
deriving DecidableEq, Repr

/-- Where the receiver of packets stands: the labels of 60_exceptions.md R460 with the variables live at each. CSUM is two
labels, before and after its first digit `h1`. -/
inductive Receiver where
  | waitStart
  | payload (sum : Byte)
  | checksumHigh (sum : Byte)
  | checksumLow (sum : Byte) (h1 : Byte)
deriving DecidableEq, Repr

/-- What the host answers to one call of its hook (92_eei_decisions.md D24): the ranges of memory it reads and the bytes it
writes, each resolved as a view, the result, and the result it gives if a view fails (log entry 11). -/
structure HostAnswer where
  /-- Base and length of each view read. -/
  reads   : List (Nat × Nat)
  /-- Base and bytes of each view written. -/
  writes  : List (Nat × List Byte)
  result  : Word
  failure : Word
deriving DecidableEq, Repr

/-- One call the host has served: the selector, the seven arguments, and the bytes of the views it read (D24). -/
structure HostCall where
  selector  : Word
  arguments : List Word
  seen      : List (List Byte)
deriving DecidableEq, Repr

/-- The whole machine. Each field is listed in INVENTORY.md under State. -/
structure State where
  /-- The parameters of the instance, which nothing changes (00_scope.md R8, R9; log entry 1). -/
  cfg        : Config
  /-- The 32 slots of the register file (10_state.md R30). -/
  regs       : Vector Word 32
  /-- The program counter (10_state.md R35). -/
  pc         : Word
  /-- The CSR bank (10_state.md R40). -/
  csrs       : Csrs
  /-- Physical memory (10_state.md R55). -/
  mem        : Memory
  /-- The privilege mode (10_state.md R58, 60_exceptions.md R430). -/
  priv       : Privilege
  /-- RUN or DEBUG (10_state.md R57). -/
  mode       : Mode
  /-- Why the current session was entered (10_state.md R57). -/
  entry      : Entry
  /-- The outcome of the last step of the execute engine, which the run controller reads (60_exceptions.md R452;
  log entry 9). -/
  outcome    : StepOutcome
  /-- Where the receiver of packets stands (60_exceptions.md R460). -/
  rx         : Receiver
  /-- The inbound payload buffer (10_state.md R57). -/
  inbuf      : List Byte
  /-- The outbound payload buffer (10_state.md R57; log entry 8). -/
  outbuf     : List Byte
  /-- The last-reported stop signal (10_state.md R57). -/
  stopSignal : Byte
  /-- What the channel brings from now on, first to come first: a byte, or `none` for a poll that finds nothing
  (60_exceptions.md R451; log entry 5). -/
  chanIn     : List (Option Byte)
  /-- What has been sent on the channel, oldest first (60_exceptions.md R451; log entry 5). -/
  chanOut    : List Byte
  /-- What the host answers to the calls of its hook from now on, first to come first: an answer, or `none` for a call it
  does not act on (92_eei_decisions.md D24; log entry 11). -/
  hostIn     : List (Option HostAnswer)
  /-- The calls the host has served, oldest first (log entry 11). -/
  hostOut    : List HostCall
deriving DecidableEq, Repr

/-- Why the machine stops with a fault: never. "The model therefore has no fault outcome for guest behaviour" (00_scope.md
section 6); memory faults are exceptions the hardware takes, protocol errors are replies, and a session without input
repeats its state (60_exceptions.md R457; log entries 6 and 23). Nobody raises one; safe. -/
inductive Fault
deriving DecidableEq, Repr

/-- Why an instruction has no meaning. -/
inductive Refusal where
  /-- Raised by an arm of `exec` whose instruction has no meaning in the model; safe. No arm raises it now. -/
  | notModelled (mnemonic : String)
deriving DecidableEq, Repr

/-- An instance with these parameters before an image is loaded: steps 1 to 5 of the reset sequence
(70_reset_and_hazards.md R520), the values of 10_state.md R58. `entry`, `outcome` and `rx` are written before they are read
(log entries 4, 7, 9). The channel's future input is a parameter (60_exceptions.md R451), and so are the host's answers:
both are given here, and the state holds what is still to come (log entries 5, 11). -/
def State.initial (cfg : Config) (input : List (Option Byte) := []) (answers : List (Option HostAnswer) := []) :
    State where
  cfg := cfg
  regs := Vector.replicate 32 0
  pc := cfg.resetPc
  csrs := Csrs.all 0
  mem := []
  priv := .machine
  mode := .run
  entry := .trap
  outcome := .continued
  rx := .waitStart
  inbuf := []
  outbuf := []
  stopSignal := cfg.stopSignal
  chanIn := input
  chanOut := []
  hostIn := answers
  hostOut := []

/-- The machine right after reset, with the parameters of `Config.atReset` (log entry 2), the empty image and no
input. -/
def State.reset : State := State.initial Config.atReset

end Sys2Proof.Machine
end

