-- ==== Sys2Proof/Machine/Ops.lean ====
section
/-! DEFINITION. The named operations over memory, registers and CSRs; taking an exception and returning from one; the load
of an image (spec/20_memory.md, spec/10_state.md, spec/60_exceptions.md sections 1, 4 and 5, spec/70_reset_and_hazards.md). -/

namespace Sys2Proof.Machine

/-- A step's answer of this machine. -/
abbrev Answer := Host.Outcome State Fault Refusal

/-- Apply `f` to the next state, if that is the answer. -/
def Answer.mapNext (f : State → State) : Answer → Answer
  | .next s => .next (f s)
  | .fault r => .fault r
  | .refused r => .refused r

/-! ### Memory -/

/-- The byte at an address; an address that is not listed reads as 0 (10_state.md R55). -/
def Memory.get : Memory → Nat → Byte
  | [], _ => 0
  | (k, b) :: m, a => if k = a then b else Memory.get m a

/-- Put a cell before the first one with a higher address. -/
def Memory.insert (a : Nat) (b : Byte) : Memory → Memory
  | [] => [(a, b)]
  | (k, c) :: m => if a < k then (a, b) :: (k, c) :: m else (k, c) :: Memory.insert a b m

/-- Write one byte, keeping the canonical form: a byte 0 is not listed. -/
def Memory.set (m : Memory) (a : Nat) (b : Byte) : Memory :=
  let others := m.filter (fun c => c.1 ≠ a)
  if b = 0 then others else Memory.insert a b others

/-- `n` bytes from an address up. -/
def Memory.readBytes (m : Memory) : Nat → Nat → List Byte
  | _, 0 => []
  | a, n + 1 => m.get a :: m.readBytes (a + 1) n

/-- Write bytes from an address up. -/
def Memory.writeBytes (m : Memory) : Nat → List Byte → Memory
  | _, [] => m
  | a, b :: bs => (m.set a b).writeBytes (a + 1) bs

/-- The canonical form: addresses strictly rising, no byte 0 listed. -/
abbrev Memory.wf (m : Memory) : Prop :=
  m.Pairwise (fun c d => c.1 < d.1) ∧ ∀ c ∈ m, c.2 ≠ 0

/-- Every listed address is below `n`. -/
abbrev Memory.below (m : Memory) (n : Nat) : Prop := ∀ c ∈ m, c.1 < n

/-- What an access is for (20_memory.md R81, R82). -/
inductive AccessKind where
  | fetch
  | load
  | store
deriving DecidableEq, Repr

/-- A memory-access fault: the address and the kind of the access that failed (20_memory.md R81, R82). -/
structure AccessFault where
  kind : AccessKind
  addr : Word
deriving DecidableEq, Repr

/-- `MemValid(A, W)`: `A + (W - 1) < MEM_SIZE`, over the naturals, so without wrap (20_memory.md R80). -/
def State.memValid (s : State) (a : Word) (width : Nat) : Bool :=
  decide (a.toNat + (width - 1) < s.cfg.memSize)

/-- `MemRead(A, W, kind)` (20_memory.md R81). -/
def State.memRead (s : State) (kind : AccessKind) (a : Word) (width : Nat) : Except AccessFault Word :=
  if s.memValid a width then .ok (ofBytesLE (s.mem.readBytes a.toNat width)) else .error ⟨kind, a⟩

/-- `MemWrite(A, W, v)` (20_memory.md R82): all bytes or none. -/
def State.memWrite (s : State) (a : Word) (width : Nat) (v : Word) : Except AccessFault State :=
  if s.memValid a width then .ok { s with mem := s.mem.writeBytes a.toNat (bytesLE width v) } else .error ⟨.store, a⟩

/-- `MemView(B, L)` is valid iff `B + L <= MEM_SIZE` (20_memory.md R90; 90_conflicts.md C2; log entry 21). -/
def State.viewValid (s : State) (base length : Nat) : Bool := decide (base + length ≤ s.cfg.memSize)

/-- Read through a view (20_memory.md R90). -/
def State.viewRead (s : State) (base length : Nat) : Option (List Byte) :=
  if s.viewValid base length then some (s.mem.readBytes base length) else none

/-- Write through a view: all bytes or none (20_memory.md R90). -/
def State.viewWrite (s : State) (base : Nat) (bytes : List Byte) : Option State :=
  if s.viewValid base bytes.length then some { s with mem := s.mem.writeBytes base bytes } else none

/-! ### Registers and the pc -/

/-- `x[r]`: x0 reads 0 (10_state.md R31). -/
def State.readReg (s : State) (r : Reg) : Word := if r = 0 then 0 else s.regs[r]

/-- `x[r] <- v`: a write of x0 is discarded (10_state.md R31; log entry 10). -/
def State.writeReg (s : State) (r : Reg) (v : Word) : State :=
  if r = 0 then s else { s with regs := s.regs.set r v }

/-- Slot 0 is forced to zero, as at the end of every step (10_state.md R31). -/
def State.forceX0 (s : State) : State := { s with regs := s.regs.set 0 0 }

/-- Complete the step with this next pc and the outcome `continue` (10_state.md R36). -/
def State.retire (s : State) (next : Word) : State := { s with pc := next, outcome := .continued }

/-- Complete an instruction that writes one register and falls through to `pc + 4`. -/
def State.writeNext (s : State) (rd : Reg) (v : Word) : State := (s.writeReg rd v).retire (s.pc + 4)

/-! ### The CSR bank -/

/-- The value of a register in the bank, or of its mask. -/
def readCsr (c : Csrs) : Csr → Word
  | .mstatus => c.mstatus
  | .mie => c.mie
  | .mtvec => c.mtvec
  | .mscratch => c.mscratch
  | .mepc => c.mepc
  | .mcause => c.mcause
  | .mtval => c.mtval
  | .mip => c.mip

/-- The bank with one register replaced. -/
def updateCsr (c : Csrs) (v : Word) : Csr → Csrs
  | .mstatus => { c with mstatus := v }
  | .mie => { c with mie := v }
  | .mtvec => { c with mtvec := v }
  | .mscratch => { c with mscratch := v }
  | .mepc => { c with mepc := v }
  | .mcause => { c with mcause := v }
  | .mtval => { c with mtval := v }
  | .mip => { c with mip := v }

/-- The catalogue: the register a CSR number names, if any (10_state.md R40, R42). -/
def csrOfNumber (n : BitVec 12) : Option Csr :=
  match n with
  | 0x300#12 => some .mstatus
  | 0x304#12 => some .mie
  | 0x305#12 => some .mtvec
  | 0x340#12 => some .mscratch
  | 0x341#12 => some .mepc
  | 0x342#12 => some .mcause
  | 0x343#12 => some .mtval
  | 0x344#12 => some .mip
  | _ => none

/-- The read-only CSR address range, csr[11:10] = 0b11 (10_state.md R41). -/
def csrReadOnly (n : BitVec 12) : Bool := n.extractLsb' 10 2 == 0b11#2

/-- `(old & ~mask) | (v & mask)`: only the mask's bits are written (10_state.md R45). -/
def maskedWrite (mask old v : Word) : Word := (old &&& ~~~mask) ||| (v &&& mask)

/-- `CsrRead(n)`; `none` is the CSR fault (10_state.md R44). -/
def State.csrRead (s : State) (n : BitVec 12) : Option Word :=
  (csrOfNumber n).map fun c => readCsr s.csrs c &&& readCsr s.cfg.readMask c

/-- `CsrWrite(n, v)`; `none` is the CSR fault (10_state.md R43, R45). -/
def State.csrWrite (s : State) (n : BitVec 12) (v : Word) : Option State :=
  match csrOfNumber n with
  | none => none
  | some c =>
    if csrReadOnly n then none
    else some { s with csrs := updateCsr s.csrs (maskedWrite (readCsr s.cfg.writeMask c) (readCsr s.csrs c) v) c }

/-! ### The fields of mstatus (10_state.md R48) -/

/-- MIE, bit 3. -/
def mstatusMie (m : Word) : Bool := m.getLsbD 3

/-- MPIE, bit 7. -/
def mstatusMpie (m : Word) : Bool := m.getLsbD 7

/-- MPP, bits 12:11. -/
def mstatusMpp (m : Word) : BitVec 2 := m.extractLsb' 11 2

/-- FS, bits 14:13. -/
def mstatusFs (m : Word) : BitVec 2 := m.extractLsb' 13 2

/-- Write MIE and nothing else. -/
def setMie (m : Word) (b : Bool) : Word := (m &&& ~~~0x8#32) ||| (if b then 0x8#32 else 0#32)

/-- Write MPIE and nothing else. -/
def setMpie (m : Word) (b : Bool) : Word := (m &&& ~~~0x80#32) ||| (if b then 0x80#32 else 0#32)

/-- Write MPP and nothing else. -/
def setMpp (m : Word) (p : BitVec 2) : Word := (m &&& ~~~0x1800#32) ||| (p.setWidth 32 <<< 11)

/-! ### Taking an exception and returning from one -/

/-- The synchronous exceptions; there is no other (60_exceptions.md R406). -/
inductive Exception where
  /-- Illegal instruction, with the instruction word (R402). -/
  | illegalInstruction (inst : Word)
  /-- Breakpoint (R400). -/
  | breakpoint
  /-- Environment call from machine mode (R401). -/
  | environmentCall
  /-- Fetch, load or store fault (R403 to R405). -/
  | access (f : AccessFault)
deriving DecidableEq, Repr

/-- The cause code (60_exceptions.md R400 to R405). -/
def exceptionCause (cfg : Config) : Exception → Word
  | .illegalInstruction _ => 2
  | .breakpoint => 3
  | .environmentCall => 11
  | .access ⟨.fetch, _⟩ => cfg.fetchFaultCause
  | .access ⟨.load, _⟩ => cfg.loadFaultCause
  | .access ⟨.store, _⟩ => cfg.storeFaultCause

/-- The trap value (60_exceptions.md R400 to R405). -/
def exceptionTval : Exception → Word
  | .illegalInstruction inst => inst
  | .breakpoint => 0
  | .environmentCall => 0
  | .access f => f.addr

/-- `raise E(tval)`: exactly mcause, mepc, mtval, mstatus.MIE, the pc and the outcome are written, past the write masks;
MPIE and MPP are not (60_exceptions.md R410, R411; 10_state.md R47). -/
def State.takeTrap (s : State) (e : Exception) : State :=
  { s with
    csrs := { s.csrs with
      mcause := exceptionCause s.cfg e
      mepc := s.pc
      mtval := exceptionTval e
      mstatus := setMie s.csrs.mstatus false }
    pc := s.csrs.mtvec
    outcome := .trapped }

/-- What MRET makes of mstatus: `MIE <- MPIE`, `MPIE <- 1`, `MPP <- 0b00` (46_system.md R316). -/
def mstatusReturn (m : Word) : Word := setMpp (setMpie (setMie m (mstatusMpie m)) true) 0b00

/-- Return from a trap: mstatus as above, `pc <- mepc`, nothing else (60_exceptions.md R415). -/
def State.returnFromTrap (s : State) : State :=
  { s with csrs := { s.csrs with mstatus := mstatusReturn s.csrs.mstatus } }.retire s.csrs.mepc

/-! ### The image -/

/-- `LoadImage(off, bytes)`, where the image fits (70_reset_and_hazards.md R523). -/
def State.loadImage (s : State) (offset : Nat) (image : List Byte) : Option State := s.viewWrite offset image

/-- The creation of an instance (70_reset_and_hazards.md R520): the initial state with the image in memory, for any future
input of the channel (60_exceptions.md R451) and any future answers of the host. An image that does not fit creates none
(R523; log entry 12). -/
def State.create (cfg : Config) (loadOffset : Nat) (image : List Byte) (input : List (Option Byte) := [])
    (answers : List (Option HostAnswer) := []) : Option State :=
  (State.initial cfg input answers).loadImage loadOffset image

end Sys2Proof.Machine
end

