-- ==== Sys2Proof/Machine/Flags.lean ====
section
/-! DEFINITION. The conditions. The hardware has no flags, condition codes or predicate registers (spec/10_state.md R39):
branches compare two registers, and the set-less-than instructions write 0 or 1 to a register. -/

namespace Sys2Proof.Machine

/-- Signed less-than (00_scope.md section 4, `<s`). -/
def lessSigned (a b : Word) : Bool := a.slt b

/-- Unsigned less-than (00_scope.md section 4, `<u`). -/
def lessUnsigned (a b : Word) : Bool := a.ult b

/-- `c ? 1 : 0` (43_integer_immediate.md R251, 44_integer_register.md R273). -/
def oneIf (c : Bool) : Word := if c then 1 else 0

end Sys2Proof.Machine
end

