-- ==== Sys2Proof/Machine/Operands.lean ====
section
/-! DEFINITION. The operand forms: immediates, effective addresses, targets, shift amounts, the widening of loaded values
(spec/30_encoding.md section 2, spec/41_control_transfer.md, spec/42_loads_stores.md R230, spec/44_integer_register.md R280). -/

namespace Sys2Proof.Machine

/-- imm_I or imm_S: sign-extended from 12 bits (30_encoding.md R120, R121). -/
def immediate12 (imm : BitVec 12) : Word := imm.signExtend 32

/-- imm_U: the 20 bits above twelve zeros (30_encoding.md R123). -/
def immediateU (imm : BitVec 20) : Word := imm ++ 0#12

/-- imm_B: sign-extended from 13 bits (30_encoding.md R122). -/
def branchOffset (offset : BitVec 13) : Word := offset.signExtend 32

/-- imm_J: sign-extended from 21 bits (30_encoding.md R124). -/
def jumpOffset (offset : BitVec 21) : Word := offset.signExtend 32

/-- The effective address of a load or store, `x[rs1] + imm` (42_loads_stores.md R230). -/
def State.effectiveAddress (s : State) (rs1 : Reg) (imm : BitVec 12) : Word := s.readReg rs1 + immediate12 imm

/-- The target of JALR: bit 0 of the sum is cleared, bit 1 is kept (41_control_transfer.md R211). -/
def State.jalrTarget (s : State) (rs1 : Reg) (imm : BitVec 12) : Word :=
  (s.readReg rs1 + immediate12 imm) &&& 0xFFFFFFFE

/-- The link value `pc + 4` (41_control_transfer.md R219). -/
def State.link (s : State) : Word := s.pc + 4

/-- The amount of a register shift: the low 5 bits of x[rs2] (44_integer_register.md R280). -/
def shiftAmount (v : Word) : Nat := (v.extractLsb' 0 5).toNat

/-- `sext_8` of the low byte (42_loads_stores.md R231). -/
def signExtend8 (v : Word) : Word := (v.setWidth 8).signExtend 32

/-- `sext_16` of the low halfword (42_loads_stores.md R232). -/
def signExtend16 (v : Word) : Word := (v.setWidth 16).signExtend 32

/-- `zext_8` of the low byte (42_loads_stores.md R234). -/
def zeroExtend8 (v : Word) : Word := (v.setWidth 8).setWidth 32

/-- `zext_16` of the low halfword (42_loads_stores.md R235). -/
def zeroExtend16 (v : Word) : Word := (v.setWidth 16).setWidth 32

end Sys2Proof.Machine
end

