-- ==== Sys2Proof/Machine/ControlTransfer.lean ====
section
/-! DEFINITION. JAL, JALR and the conditional branches (spec/41_control_transfer.md). No target needs alignment and no
transfer faults (R218): a bad target is the next step's fetch fault. -/

namespace Sys2Proof.Machine

/-- JAL (R210). -/
def execJal (rd : Reg) (offset : BitVec 21) (s : State) : Answer :=
  .next ((s.writeReg rd s.link).retire (s.pc + jumpOffset offset))

/-- JALR (R211): the target uses the old x[rs1], also when rd = rs1. -/
def execJalr (rd rs1 : Reg) (imm : BitVec 12) (s : State) : Answer :=
  .next ((s.writeReg rd s.link).retire (s.jalrTarget rs1 imm))

/-- The shape of the six branches (R220): to `pc + imm_B` if the condition holds, else to `pc + 4`. -/
def State.branchIf (s : State) (taken : Bool) (offset : BitVec 13) : State :=
  s.retire (if taken then s.pc + branchOffset offset else s.pc + 4)

/-- BEQ (R212). -/
def execBeq (rs1 rs2 : Reg) (offset : BitVec 13) (s : State) : Answer :=
  .next (s.branchIf (s.readReg rs1 == s.readReg rs2) offset)

/-- BNE (R213). -/
def execBne (rs1 rs2 : Reg) (offset : BitVec 13) (s : State) : Answer :=
  .next (s.branchIf (s.readReg rs1 != s.readReg rs2) offset)

/-- BLT (R214). -/
def execBlt (rs1 rs2 : Reg) (offset : BitVec 13) (s : State) : Answer :=
  .next (s.branchIf (lessSigned (s.readReg rs1) (s.readReg rs2)) offset)

/-- BGE (R215). -/
def execBge (rs1 rs2 : Reg) (offset : BitVec 13) (s : State) : Answer :=
  .next (s.branchIf (!lessSigned (s.readReg rs1) (s.readReg rs2)) offset)

/-- BLTU (R216). -/
def execBltu (rs1 rs2 : Reg) (offset : BitVec 13) (s : State) : Answer :=
  .next (s.branchIf (lessUnsigned (s.readReg rs1) (s.readReg rs2)) offset)

/-- BGEU (R217). -/
def execBgeu (rs1 rs2 : Reg) (offset : BitVec 13) (s : State) : Answer :=
  .next (s.branchIf (!lessUnsigned (s.readReg rs1) (s.readReg rs2)) offset)

end Sys2Proof.Machine
end

