-- ==== Sys2Proof/Machine/IntegerImmediate.lean ====
section
/-! DEFINITION. Register-immediate arithmetic, logic and shifts (spec/43_integer_immediate.md). -/

namespace Sys2Proof.Machine

/-- ADDI (R250). -/
def execAddi (rd rs1 : Reg) (imm : BitVec 12) (s : State) : Answer :=
  .next (s.writeNext rd (s.readReg rs1 + immediate12 imm))

/-- SLTI (R251). -/
def execSlti (rd rs1 : Reg) (imm : BitVec 12) (s : State) : Answer :=
  .next (s.writeNext rd (oneIf (lessSigned (s.readReg rs1) (immediate12 imm))))

/-- SLTIU (R252): the immediate is sign-extended, then compared as unsigned. -/
def execSltiu (rd rs1 : Reg) (imm : BitVec 12) (s : State) : Answer :=
  .next (s.writeNext rd (oneIf (lessUnsigned (s.readReg rs1) (immediate12 imm))))

/-- XORI (R253). -/
def execXori (rd rs1 : Reg) (imm : BitVec 12) (s : State) : Answer :=
  .next (s.writeNext rd (s.readReg rs1 ^^^ immediate12 imm))

/-- ORI (R254). -/
def execOri (rd rs1 : Reg) (imm : BitVec 12) (s : State) : Answer :=
  .next (s.writeNext rd (s.readReg rs1 ||| immediate12 imm))

/-- ANDI (R255). -/
def execAndi (rd rs1 : Reg) (imm : BitVec 12) (s : State) : Answer :=
  .next (s.writeNext rd (s.readReg rs1 &&& immediate12 imm))

/-- SLLI (R256). -/
def execSlli (rd rs1 : Reg) (shamt : BitVec 5) (s : State) : Answer :=
  .next (s.writeNext rd (s.readReg rs1 <<< shamt.toNat))

/-- SRLI (R257). -/
def execSrli (rd rs1 : Reg) (shamt : BitVec 5) (s : State) : Answer :=
  .next (s.writeNext rd (s.readReg rs1 >>> shamt.toNat))

/-- SRAI (R258). -/
def execSrai (rd rs1 : Reg) (shamt : BitVec 5) (s : State) : Answer :=
  .next (s.writeNext rd ((s.readReg rs1).sshiftRight shamt.toNat))

end Sys2Proof.Machine
end

