-- ==== Sys2Proof/Machine/IntegerRegister.lean ====
section
/-! DEFINITION. Register-register arithmetic, logic and shifts (spec/44_integer_register.md). -/

namespace Sys2Proof.Machine

/-- ADD (R270). -/
def execAdd (rd rs1 rs2 : Reg) (s : State) : Answer :=
  .next (s.writeNext rd (s.readReg rs1 + s.readReg rs2))

/-- SUB (R271). -/
def execSub (rd rs1 rs2 : Reg) (s : State) : Answer :=
  .next (s.writeNext rd (s.readReg rs1 - s.readReg rs2))

/-- SLL (R272). -/
def execSll (rd rs1 rs2 : Reg) (s : State) : Answer :=
  .next (s.writeNext rd (s.readReg rs1 <<< shiftAmount (s.readReg rs2)))

/-- SLT (R273). -/
def execSlt (rd rs1 rs2 : Reg) (s : State) : Answer :=
  .next (s.writeNext rd (oneIf (lessSigned (s.readReg rs1) (s.readReg rs2))))

/-- SLTU (R274). -/
def execSltu (rd rs1 rs2 : Reg) (s : State) : Answer :=
  .next (s.writeNext rd (oneIf (lessUnsigned (s.readReg rs1) (s.readReg rs2))))

/-- XOR (R275). -/
def execXor (rd rs1 rs2 : Reg) (s : State) : Answer :=
  .next (s.writeNext rd (s.readReg rs1 ^^^ s.readReg rs2))

/-- SRL (R276). -/
def execSrl (rd rs1 rs2 : Reg) (s : State) : Answer :=
  .next (s.writeNext rd (s.readReg rs1 >>> shiftAmount (s.readReg rs2)))

/-- SRA (R277). -/
def execSra (rd rs1 rs2 : Reg) (s : State) : Answer :=
  .next (s.writeNext rd ((s.readReg rs1).sshiftRight (shiftAmount (s.readReg rs2))))

/-- OR (R278). -/
def execOr (rd rs1 rs2 : Reg) (s : State) : Answer :=
  .next (s.writeNext rd (s.readReg rs1 ||| s.readReg rs2))

/-- AND (R279). -/
def execAnd (rd rs1 rs2 : Reg) (s : State) : Answer :=
  .next (s.writeNext rd (s.readReg rs1 &&& s.readReg rs2))

end Sys2Proof.Machine
end

