-- ==== Sys2Proof/Machine/LoadStore.lean ====
section
/-! DEFINITION. Loads and stores (spec/42_loads_stores.md). No alignment is needed (spec/20_memory.md R86). -/

namespace Sys2Proof.Machine

/-- A load (R230): read `width` bytes at the effective address and write x[rd], or take the load fault, which writes no
register. A load with rd = x0 still reads and still faults (R239). -/
def State.load (s : State) (rd rs1 : Reg) (imm : BitVec 12) (width : Nat) (widen : Word → Word) : State :=
  match s.memRead .load (s.effectiveAddress rs1 imm) width with
  | .ok v => s.writeNext rd (widen v)
  | .error f => s.takeTrap (.access f)

/-- A store (R230): write the low `width` bytes of x[rs2] at the effective address, or take the store fault, which writes
no byte. -/
def State.store (s : State) (rs2 rs1 : Reg) (imm : BitVec 12) (width : Nat) : State :=
  match s.memWrite (s.effectiveAddress rs1 imm) width (s.readReg rs2) with
  | .ok t => t.retire (s.pc + 4)
  | .error f => s.takeTrap (.access f)

/-- LB (R231). -/
def execLb (rd rs1 : Reg) (imm : BitVec 12) (s : State) : Answer := .next (s.load rd rs1 imm 1 signExtend8)

/-- LH (R232). -/
def execLh (rd rs1 : Reg) (imm : BitVec 12) (s : State) : Answer := .next (s.load rd rs1 imm 2 signExtend16)

/-- LW (R233). -/
def execLw (rd rs1 : Reg) (imm : BitVec 12) (s : State) : Answer := .next (s.load rd rs1 imm 4 id)

/-- LBU (R234). -/
def execLbu (rd rs1 : Reg) (imm : BitVec 12) (s : State) : Answer := .next (s.load rd rs1 imm 1 zeroExtend8)

/-- LHU (R235). -/
def execLhu (rd rs1 : Reg) (imm : BitVec 12) (s : State) : Answer := .next (s.load rd rs1 imm 2 zeroExtend16)

/-- SB (R236). -/
def execSb (rs2 rs1 : Reg) (imm : BitVec 12) (s : State) : Answer := .next (s.store rs2 rs1 imm 1)

/-- SH (R237). -/
def execSh (rs2 rs1 : Reg) (imm : BitVec 12) (s : State) : Answer := .next (s.store rs2 rs1 imm 2)

/-- SW (R238). -/
def execSw (rs2 rs1 : Reg) (imm : BitVec 12) (s : State) : Answer := .next (s.store rs2 rs1 imm 4)

end Sys2Proof.Machine
end

