-- ==== Sys2Proof/Machine/MultiplyDivide.lean ====
section
/-! DEFINITION. Multiply, divide and remainder (spec/45_multiply_divide.md). Products and quotients are exact integers,
narrowed at the end; no operand traps (R290) and the corners are R299. -/

namespace Sys2Proof.Machine

/-- Bits 63:32 of an exact product: `to_u32(floor(p / 2^32))` (R292 to R294). -/
def highHalf (p : Int) : Word := BitVec.ofInt 32 (p.fdiv (2 ^ 32))

/-- Signed division, toward zero, with R299's corners (R295). -/
def divSigned (a b : Word) : Word :=
  if b.toInt = 0 then 0xFFFFFFFF
  else if a.toInt = -2 ^ 31 ∧ b.toInt = -1 then 0x80000000
  else BitVec.ofInt 32 (a.toInt.tdiv b.toInt)

/-- Unsigned division, with R299's corner (R296). -/
def divUnsigned (a b : Word) : Word :=
  if b = 0 then 0xFFFFFFFF else BitVec.ofNat 32 (a.toNat / b.toNat)

/-- Signed remainder, of the dividend's sign, with R299's corners (R297). -/
def remSigned (a b : Word) : Word :=
  if b.toInt = 0 then a
  else if a.toInt = -2 ^ 31 ∧ b.toInt = -1 then 0
  else BitVec.ofInt 32 (a.toInt - b.toInt * a.toInt.tdiv b.toInt)

/-- Unsigned remainder, with R299's corner (R298). -/
def remUnsigned (a b : Word) : Word :=
  if b = 0 then a else BitVec.ofNat 32 (a.toNat % b.toNat)

/-- MUL (R291): the low 32 bits, the same for any signedness. -/
def execMul (rd rs1 rs2 : Reg) (s : State) : Answer :=
  .next (s.writeNext rd (BitVec.ofNat 32 ((s.readReg rs1).toNat * (s.readReg rs2).toNat)))

/-- MULH (R292). -/
def execMulh (rd rs1 rs2 : Reg) (s : State) : Answer :=
  .next (s.writeNext rd (highHalf ((s.readReg rs1).toInt * (s.readReg rs2).toInt)))

/-- MULHSU (R293): rs1 is the signed operand. -/
def execMulhsu (rd rs1 rs2 : Reg) (s : State) : Answer :=
  .next (s.writeNext rd (highHalf ((s.readReg rs1).toInt * ((s.readReg rs2).toNat : Int))))

/-- MULHU (R294). -/
def execMulhu (rd rs1 rs2 : Reg) (s : State) : Answer :=
  .next (s.writeNext rd (highHalf (((s.readReg rs1).toNat : Int) * ((s.readReg rs2).toNat : Int))))

/-- DIV (R295). -/
def execDiv (rd rs1 rs2 : Reg) (s : State) : Answer :=
  .next (s.writeNext rd (divSigned (s.readReg rs1) (s.readReg rs2)))

/-- DIVU (R296). -/
def execDivu (rd rs1 rs2 : Reg) (s : State) : Answer :=
  .next (s.writeNext rd (divUnsigned (s.readReg rs1) (s.readReg rs2)))

/-- REM (R297). -/
def execRem (rd rs1 rs2 : Reg) (s : State) : Answer :=
  .next (s.writeNext rd (remSigned (s.readReg rs1) (s.readReg rs2)))

/-- REMU (R298). -/
def execRemu (rd rs1 rs2 : Reg) (s : State) : Answer :=
  .next (s.writeNext rd (remUnsigned (s.readReg rs1) (s.readReg rs2)))

end Sys2Proof.Machine
end

