-- ==== Sys2Proof/Machine/System.lean ====
section
/-! DEFINITION. System instructions (spec/46_system.md). Every one is permitted whenever it executes: there is only machine
mode (R321). -/

namespace Sys2Proof.Machine

/-- ECALL (R311): "always the environment-call exception"; the pc is not advanced. Where a host-capability hook is supplied,
the step asks it first, since whether it acts on an ECALL "is outside the CORE": `runInstruction` in HostHook.lean. -/
def execEcall (s : State) : Answer := .next (s.takeTrap .environmentCall)

/-- EBREAK (R312): the breakpoint exception. -/
def execEbreak (s : State) : Answer := .next (s.takeTrap .breakpoint)

/-- MRET (R316): legal at any time. -/
def execMret (s : State) : Answer := .next s.returnFromTrap

/-- WFI (R317): a no-op, since there is no interrupt to wait for. -/
def execWfi (s : State) : Answer := .next (s.retire (s.pc + 4))

/-- What the three CSR instructions share (R319), in R319's order: the source is read, the number checked and the old value
read, the new value computed and written through the mask, and x[rd] written. A CSR fault, at the read or at the write,
is the illegal-instruction exception with the instruction word, `inst`, and changes nothing else (R318). -/
def State.csrReadModifyWrite (s : State) (rd : Reg) (csr : BitVec 12) (rs1 : Reg) (inst : Word)
    (op : Word → Word → Word) : State :=
  match s.csrRead csr with
  | none => s.takeTrap (.illegalInstruction inst)
  | some old =>
    match s.csrWrite csr (op old (s.readReg rs1)) with
    | none => s.takeTrap (.illegalInstruction inst)
    | some t => (t.writeReg rd old).retire (s.pc + 4)

/-- CSRRW (R313). The instruction word is the encoding of the instruction, which has no other (log entry 14). -/
def execCsrrw (rd : Reg) (csr : BitVec 12) (rs1 : Reg) (s : State) : Answer :=
  .next (s.csrReadModifyWrite rd csr rs1 (encode (.csrrw rd csr rs1)) fun _ src => src)

/-- CSRRS (R314). -/
def execCsrrs (rd : Reg) (csr : BitVec 12) (rs1 : Reg) (s : State) : Answer :=
  .next (s.csrReadModifyWrite rd csr rs1 (encode (.csrrs rd csr rs1)) fun old src => old ||| src)

/-- CSRRC (R315). -/
def execCsrrc (rd : Reg) (csr : BitVec 12) (rs1 : Reg) (s : State) : Answer :=
  .next (s.csrReadModifyWrite rd csr rs1 (encode (.csrrc rd csr rs1)) fun old src => old &&& ~~~src)

end Sys2Proof.Machine
end

