-- ==== Sys2Proof/Machine/UpperImmediate.lean ====
section
/-! DEFINITION. LUI and AUIPC (spec/40_upper_immediate.md). -/

namespace Sys2Proof.Machine

/-- LUI (R200). -/
def execLui (rd : Reg) (imm : BitVec 20) (s : State) : Answer := .next (s.writeNext rd (immediateU imm))

/-- AUIPC (R201): the pc is the address of this instruction. -/
def execAuipc (rd : Reg) (imm : BitVec 20) (s : State) : Answer := .next (s.writeNext rd (s.pc + immediateU imm))

end Sys2Proof.Machine
end

