-- ==== Sys2Proof/Machine/HostHook.lean ====
section
/-! DEFINITION. The host-capability hook: the interface that the spec keeps of the bridge (spec/00_scope.md R5, R8,
spec/92_eei_decisions.md D24, spec/20_memory.md R90). The host itself is outside the CORE: what it answers is an input. -/

namespace Sys2Proof.Machine

/-- a7, which holds the selector (D24). -/
def hookSelector : Reg := 17

/-- a0 to a6, the arguments (D24). -/
def hookArguments : List Reg := [10, 11, 12, 13, 14, 15, 16]

/-- a0, which takes the result (D24). -/
def hookResult : Reg := 10

/-- The bytes of these views, if each is valid. -/
def State.viewReads (s : State) : List (Nat × Nat) → Option (List (List Byte))
  | [] => some []
  | (base, length) :: views =>
    match s.viewRead base length, s.viewReads views with
    | some bytes, some rest => some (bytes :: rest)
    | _, _ => none

/-- Write through these views in order, if each is valid. -/
def State.viewWrites (s : State) : List (Nat × List Byte) → Option State
  | [] => some s
  | (base, bytes) :: views =>
    match s.viewWrite base bytes with
    | some t => t.viewWrites views
    | none => none

/-- The call that the registers of `s` make, with what the host has seen of memory. -/
def State.hookCall (s : State) (seen : List (List Byte)) : HostCall :=
  ⟨s.readReg hookSelector, hookArguments.map s.readReg, seen⟩

/-- The host has acted: the call is recorded, a0 takes the result, and the step completes at pc + 4. -/
def State.hookReturns (s : State) (call : HostCall) (result : Word) : State :=
  { s with hostOut := s.hostOut ++ [call] }.writeNext hookResult result

/-- The host acts on a call: it reads and then writes memory through views. A view that fails is the hook's failure and not a
trap (D24): then nothing is read or written, and a0 takes the failure's result. -/
def State.serveHook (s : State) (a : HostAnswer) : State :=
  match s.viewReads a.reads, s.viewWrites a.writes with
  | some seen, some t => t.hookReturns (s.hookCall seen) a.result
  | _, _ => s.hookReturns (s.hookCall []) a.failure

/-- Ask the hook about an instruction, and what the host has still to answer: it is asked only where it is supplied, and only
about an ECALL (D24; log entry 11). `none` is that it does not act. -/
def State.askHook (s : State) (i : Instr) : Option HostAnswer × State :=
  if i = .ecall ∧ s.cfg.hostCall = true then
    match s.hostIn with
    | [] => (none, s)
    | a :: rest => (a, { s with hostIn := rest })
  else (none, s)

/-- Run an instruction: its meaning, unless the hook acts on it. With HOSTCALL none it is always the meaning (D24). -/
def runInstruction (i : Instr) (s : State) : Answer :=
  match (s.askHook i).1 with
  | some a => .next ((s.askHook i).2.serveHook a)
  | none => exec i (s.askHook i).2

end Sys2Proof.Machine
end

