-- ==== Sys2Proof/Machine/Channel.lean ====
section
/-! DEFINITION. The debug channel, the hexadecimal notation and the framing of outbound packets (spec/60_exceptions.md
sections 9, 10 and 12). -/

namespace Sys2Proof.Machine

/-- An ASCII character as a byte. -/
def ascii (c : Char) : Byte := BitVec.ofNat 8 c.toNat

/-! ### The channel (R451) -/

/-- `poll()`: take the next event of the channel, a byte or nothing; it never blocks (R451). -/
def State.poll (s : State) : Option Byte × State :=
  match s.chanIn with
  | [] => (none, s)
  | e :: rest => (e, { s with chanIn := rest })

/-- The next byte the channel brings, past the polls that would have found nothing, and what comes after it. -/
def nextReceived : List (Option Byte) → Option (Byte × List (Option Byte))
  | [] => none
  | some b :: rest => some (b, rest)
  | none :: rest => nextReceived rest

/-- `send(b)` for each byte in order (R451); it never fails. -/
def State.send (s : State) (bytes : List Byte) : State := { s with chanOut := s.chanOut ++ bytes }

/-! ### Hexadecimal (section 9) -/

/-- A number below 16 as a lowercase hex digit. -/
def hexDigit (n : Nat) : Byte := if n < 10 then BitVec.ofNat 8 (0x30 + n) else BitVec.ofNat 8 (0x57 + n)

/-- `hex2(b)`: two lowercase hex digits. -/
def hex2 (b : Byte) : List Byte := [hexDigit (b.toNat / 16), hexDigit (b.toNat % 16)]

/-- `hex32le(v)`: eight digits in target byte order. -/
def hex32le (v : Word) : List Byte := (bytesLE 4 v).flatMap hex2

/-- The value of a hex digit of either case; any other byte is none. -/
def hexValue (b : Byte) : Option Nat :=
  if 0x30 ≤ b.toNat ∧ b.toNat ≤ 0x39 then some (b.toNat - 0x30)
  else if 0x61 ≤ b.toNat ∧ b.toNat ≤ 0x66 then some (b.toNat - 0x57)
  else if 0x41 ≤ b.toNat ∧ b.toNat ≤ 0x46 then some (b.toNat - 0x37)
  else none

/-- The digits of a number, the last one first, for at most `fuel` digits. -/
def hexDigitsUp : Nat → Nat → List Byte
  | 0, _ => []
  | fuel + 1, n => hexDigit (n % 16) :: (if n < 16 then [] else hexDigitsUp fuel (n / 16))

/-- A number in lowercase hex without leading zeros (R499). -/
def hexNumber (n : Nat) : List Byte := (hexDigitsUp (n + 1) n).reverse

/-! ### Outbound packets (R463) -/

/-- The sum of the bytes modulo 256. -/
def checksum (bytes : List Byte) : Byte := bytes.foldl (· + ·) 0

/-- `$`, the payload, `#` and the checksum in two lowercase digits. -/
def framed (payload : List Byte) : List Byte :=
  ascii '$' :: payload ++ ascii '#' :: hex2 (checksum payload)

/-- Send a packet: the payload is cut to PKT_OUT_CAP bytes, which the outbound buffer then holds (R463; log entry 8). -/
def State.sendPacket (s : State) (payload : List Byte) : State :=
  { s with outbuf := payload.take s.cfg.pktOutCap }.send (framed (payload.take s.cfg.pktOutCap))

end Sys2Proof.Machine
end

