-- ==== Sys2Proof/Machine/Stub.lean ====
section
/-! DEFINITION. The debug stub: receiving packets, the session, and the commands (spec/60_exceptions.md sections 12 to 14). -/

namespace Sys2Proof.Machine

/-! ### Commands as syntax (section 14) -/

/-- A command of the stub, or the malformed `m` or `M` that answers `E01`. -/
inductive Command where
  /-- `?` (R498). -/
  | lastSignal
  /-- `q` with its sub-letter, if it has one (R499). -/
  | query (subLetter : Option Byte)
  /-- `H` (R500). -/
  | threadOperation
  /-- `g` (R501). -/
  | readRegisters
  /-- `G` (R505). -/
  | writeRegisters
  /-- `m addr,len` (R506). -/
  | readMemory (addr len : Nat)
  /-- `M addr,len:data` (R507). -/
  | writeMemory (addr : Nat) (data : List Byte)
  /-- An `m` or `M` whose syntax is not that of R506 or R507. -/
  | malformed
  /-- `c` (R508). -/
  | resume
  /-- `k` (R509). -/
  | kill
  /-- Any other first byte, or an empty payload (R510). -/
  | unknown
deriving DecidableEq, Repr

/-- The longest run of hex digits at the front, and what follows it. -/
def hexPrefix : List Byte → List Nat × List Byte
  | [] => ([], [])
  | b :: bs =>
    match hexValue b with
    | some d => (d :: (hexPrefix bs).1, (hexPrefix bs).2)
    | none => ([], b :: bs)

/-- One or more hex digits, read as an unbounded natural, and what follows them (R506). -/
def hexNat (bytes : List Byte) : Option (Nat × List Byte) :=
  match hexPrefix bytes with
  | ([], _) => none
  | (d :: ds, rest) => some ((d :: ds).foldl (fun n e => 16 * n + e) 0, rest)

/-- The two numbers `A ',' L` and what follows them (R506). -/
def addressAndLength (bytes : List Byte) : Option (Nat × Nat × List Byte) :=
  match hexNat bytes with
  | some (addr, c :: rest) =>
    if c = ascii ',' then
      match hexNat rest with
      | some (len, rest') => some (addr, len, rest')
      | none => none
    else none
  | _ => none

/-- Pairs of hex digits as bytes; none if a digit is missing or is no hex digit (R507). -/
def hexBytes : List Byte → Option (List Byte)
  | [] => some []
  | [_] => none
  | h :: l :: rest =>
    match hexValue h, hexValue l, hexBytes rest with
    | some a, some b, some bs => some (BitVec.ofNat 8 (16 * a + b) :: bs)
    | _, _, _ => none

/-- What follows the `m`: nothing may follow L (R506). -/
def parseReadMemory (bytes : List Byte) : Command :=
  match addressAndLength bytes with
  | some (addr, len, []) => .readMemory addr len
  | _ => .malformed

/-- What follows the `M`: D is exactly 2*L hex digits (R507). -/
def parseWriteMemory (bytes : List Byte) : Command :=
  match addressAndLength bytes with
  | some (addr, len, c :: digits) =>
    if c = ascii ':' then
      match hexBytes digits with
      | some data => if data.length = len then .writeMemory addr data else .malformed
      | none => .malformed
    else .malformed
  | _ => .malformed

/-- Dispatch on the first byte of the payload (R493). -/
def parseCommand : List Byte → Command
  | [] => .unknown
  | b :: bs =>
    if b = ascii '?' then .lastSignal
    else if b = ascii 'q' then .query bs.head?
    else if b = ascii 'H' then .threadOperation
    else if b = ascii 'g' then .readRegisters
    else if b = ascii 'G' then .writeRegisters
    else if b = ascii 'm' then parseReadMemory bs
    else if b = ascii 'M' then parseWriteMemory bs
    else if b = ascii 'c' then .resume
    else if b = ascii 'k' then .kill
    else .unknown

/-! ### Replies -/

/-- `OK`. -/
def replyOk : List Byte := [ascii 'O', ascii 'K']

/-- `E01`: malformed `m` or `M` (R511). -/
def replyE01 : List Byte := [ascii 'E', ascii '0', ascii '1']

/-- `E03`: the range is not inside memory (R511). -/
def replyE03 : List Byte := [ascii 'E', ascii '0', ascii '3']

/-- `S` and the stop signal (R498). -/
def State.signalReply (s : State) : List Byte := ascii 'S' :: hex2 s.stopSignal

/-- `PacketSize=` and PKT_IN_CAP (R499). -/
def State.packetSizeReply (s : State) : List Byte :=
  [ascii 'P', ascii 'a', ascii 'c', ascii 'k', ascii 'e', ascii 't', ascii 'S', ascii 'i', ascii 'z', ascii 'e',
   ascii '='] ++ hexNumber s.cfg.pktInCap

/-- The reply to a query by its sub-letter (R499); Q_ACK_LETTER may have no binding (log entry 17). -/
def State.queryReply (s : State) (subLetter : Option Byte) : List Byte :=
  match subLetter with
  | none => []
  | some l =>
    if l = ascii 'S' then s.packetSizeReply
    else
      match s.cfg.qAck with
      | some (letter, reply) => if l = letter then reply else []
      | none => []

/-- x0 to x31 and the live pc, each as `hex32le` (R501). -/
def State.registersReply (s : State) : List Byte :=
  (List.finRange 32).flatMap (fun r => hex32le (s.readReg r)) ++ hex32le s.pc

/-- The stop report: the signal, then x8, x2 and the pc, each tagged with its register index; the pc is mepc if the entry
was a trap (R490). -/
def State.stopReport (s : State) : List Byte :=
  ascii 'T' :: hex2 s.stopSignal ++
    [ascii '0', ascii '8', ascii ':'] ++ hex32le (s.readReg 8) ++ [ascii ';'] ++
    [ascii '0', ascii '2', ascii ':'] ++ hex32le (s.readReg 2) ++ [ascii ';'] ++
    [ascii '2', ascii '0', ascii ':'] ++
      hex32le (match s.entry with | .trap => s.csrs.mepc | .attention => s.pc) ++ [ascii ';']

/-! ### The session -/

/-- Enter a session: mode DEBUG with this reason, and one stop report; the receiver waits for a packet
(R452, R490, R492). -/
def State.enterSession (s : State) (why : Entry) : State :=
  let t := { s with mode := .debug, entry := why, rx := .waitStart }
  t.sendPacket t.stopReport

/-- Run a command and send its reply (R498 to R511). Only `M` changes machine state, and only memory (R493); `c` ends the
session and sends nothing (R508). -/
def State.runCommand (s : State) : Command → State
  | .lastSignal => s.sendPacket s.signalReply
  | .query l => s.sendPacket (s.queryReply l)
  | .threadOperation => s.sendPacket replyOk
  | .readRegisters => s.sendPacket s.registersReply
  | .writeRegisters => s.sendPacket replyOk
  | .readMemory addr len =>
    match s.viewRead addr len with
    | some bytes => s.sendPacket (bytes.flatMap hex2)
    | none => s.sendPacket replyE03
  | .writeMemory addr data =>
    match s.viewWrite addr data with
    | some t => t.sendPacket replyOk
    | none => s.sendPacket replyE03
  | .malformed => s.sendPacket replyE01
  | .resume => { s with mode := .run }
  | .kill => s.sendPacket replyOk
  | .unknown => s.sendPacket []

/-- Both digits are hex digits and their value is the sum (R460). -/
def checksumMatches (sum h1 h2 : Byte) : Bool :=
  match hexValue h1, hexValue h2 with
  | some a, some b => 16 * a + b == sum.toNat
  | _, _ => false

/-- The inbound buffer takes a payload byte unless it is full; the sum counts the byte in any case (R460 to R462). -/
def State.payloadByte (s : State) (sum b : Byte) : State :=
  { s with
    rx := .payload (sum + b)
    inbuf := if s.inbuf.length < s.cfg.pktInCap then s.inbuf ++ [b] else s.inbuf }

/-- The packet is complete: with a matching checksum send `+` and run its command, else send `-` and discard it (R460). -/
def State.closePacket (s : State) (sum h1 h2 : Byte) : State :=
  if checksumMatches sum h1 h2 then
    ({ s with rx := .waitStart }.send [ascii '+']).runCommand (parseCommand s.inbuf)
  else { s with rx := .waitStart }.send [ascii '-']

/-- The receiver takes one byte (R460). -/
def State.receiveByte (s : State) (b : Byte) : State :=
  match s.rx with
  | .waitStart => if b = ascii '$' then { s with rx := .payload 0, inbuf := [] } else s
  | .payload sum => if b = ascii '#' then { s with rx := .checksumHigh sum } else s.payloadByte sum b
  | .checksumHigh sum => { s with rx := .checksumLow sum b }
  | .checksumLow sum h1 => s.closePacket sum h1 b

/-- The stub's step: `recv()` one byte and act on it. With no further input `recv` does not return, and the machine is
stuck in the state it is in (R457; log entries 6 and 7). -/
def State.sessionStep (s : State) : State :=
  match nextReceived s.chanIn with
  | some (b, rest) => { s with chanIn := rest }.receiveByte b
  | none => s

end Sys2Proof.Machine
end

