-- ==== Sys2Proof/Machine/Controller.lean ====
section
/-! DEFINITION. One step of the execute engine, and the run controller that alternates it with the debug stub
(spec/20_memory.md R84, spec/60_exceptions.md R422 and section 11, spec/10_state.md R31). -/

namespace Sys2Proof.Machine

/-- Fetch the word at the pc, decode it, execute it: the fetch fault comes first, then the illegal instruction, then what
the instruction itself does (20_memory.md R84; 60_exceptions.md R422). A host-capability hook may act on an ECALL
(92_eei_decisions.md D24). -/
def fetchDecodeExecute (s : State) : Answer :=
  match s.memRead .fetch s.pc 4 with
  | .error f => .next (s.takeTrap (.access f))
  | .ok w =>
    match decode w with
    | .illegal _ => .next (s.takeTrap (.illegalInstruction w))
    | .instr i => runInstruction i s

/-- A step of the execute engine: at its end, completed or trapped, slot 0 is forced to zero (10_state.md R31). -/
def engineStep (s : State) : Answer := Answer.mapNext State.forceX0 (fetchDecodeExecute s)

/-- What the controller does with the outcome of a step when a channel is attached: a trapped step enters a session
(60_exceptions.md R452). -/
def State.afterStep (s : State) : State :=
  match s.outcome with
  | .trapped => s.enterSession .trap
  | .continued => s

/-- One iteration of the controller in RUN: with a channel, poll it, and enter a session on the attention byte, else take a
step (60_exceptions.md R452); with none, take a step (R456). -/
def runIteration (s : State) : Answer :=
  if s.cfg.channelAttached then
    if s.poll.1 = some s.cfg.attn then .next (s.poll.2.enterSession .attention)
    else Answer.mapNext State.afterStep (engineStep s.poll.2)
  else engineStep s

/-- The run controller: in RUN the engine, in DEBUG the stub (60_exceptions.md R450). -/
def controllerStep (s : State) : Answer :=
  match s.mode with
  | .run => runIteration s
  | .debug => .next s.sessionStep

/-- The next poll finds no attention byte: if it would, an empty poll is put before it (only with a channel attached). -/
def State.postponeAttention (s : State) : State :=
  if s.cfg.channelAttached ∧ s.poll.1 = some s.cfg.attn then { s with chanIn := none :: s.chanIn } else s

/-- The state whose next step fetches and runs the word `w`, if memory holds four bytes at the pc: the word is stored there,
the machine is in RUN, and no attention byte comes first (log entry 12). -/
def State.placeWord (s : State) (w : Word) : State :=
  if s.memValid s.pc 4 then
    { s with mode := .run, mem := s.mem.writeBytes s.pc.toNat (bytesLE 4 w) }.postponeAttention
  else s

end Sys2Proof.Machine
end

