-- ==== Sys2Proof/Machine/Step.lean ====
section
/-! DEFINITION. The step of the machine, and the state with an instruction placed where the next step fetches it. -/

namespace Sys2Proof.Machine

/-- One step: an iteration of the run controller in RUN, one byte of the session in DEBUG. -/
def step (s : State) : Host.Outcome State Fault Refusal := controllerStep s

/-- `s` with the instruction whose bits, numbered as spec/opcode_table.json numbers them, are `w` placed so that the next
step runs it (log entry 12). -/
def State.withFetchWord (s : State) (nbits w : Nat) : State := s.placeWord (tableWord nbits w)

end Sys2Proof.Machine
end

