-- ==== Sys2Proof/Safety.lean ====
section
/-! DEFINITION. The terms in which claims about runs are made: the invariant, what an instruction may write, and what two
states have in common. -/

namespace Sys2Proof

/-- The register an instruction writes, for the instructions of 10_state.md R34; the others write none. -/
def Instr.destination : Instr → Option Reg
  | .lui rd _ => some rd
  | .auipc rd _ => some rd
  | .jal rd _ => some rd
  | .jalr rd _ _ => some rd
  | .beq _ _ _ => none
  | .bne _ _ _ => none
  | .blt _ _ _ => none
  | .bge _ _ _ => none
  | .bltu _ _ _ => none
  | .bgeu _ _ _ => none
  | .lb rd _ _ => some rd
  | .lh rd _ _ => some rd
  | .lw rd _ _ => some rd
  | .lbu rd _ _ => some rd
  | .lhu rd _ _ => some rd
  | .sb _ _ _ => none
  | .sh _ _ _ => none
  | .sw _ _ _ => none
  | .addi rd _ _ => some rd
  | .slti rd _ _ => some rd
  | .sltiu rd _ _ => some rd
  | .xori rd _ _ => some rd
  | .ori rd _ _ => some rd
  | .andi rd _ _ => some rd
  | .slli rd _ _ => some rd
  | .srli rd _ _ => some rd
  | .srai rd _ _ => some rd
  | .add rd _ _ => some rd
  | .sub rd _ _ => some rd
  | .sll rd _ _ => some rd
  | .slt rd _ _ => some rd
  | .sltu rd _ _ => some rd
  | .xor rd _ _ => some rd
  | .srl rd _ _ => some rd
  | .sra rd _ _ => some rd
  | .or rd _ _ => some rd
  | .and rd _ _ => some rd
  | .mul rd _ _ => some rd
  | .mulh rd _ _ => some rd
  | .mulhsu rd _ _ => some rd
  | .mulhu rd _ _ => some rd
  | .div rd _ _ => some rd
  | .divu rd _ _ => some rd
  | .rem rd _ _ => some rd
  | .remu rd _ _ => some rd
  | .ecall => none
  | .ebreak => none
  | .mret => none
  | .wfi => none
  | .csrrw rd _ _ => some rd
  | .csrrs rd _ _ => some rd
  | .csrrc rd _ _ => some rd

/-- The instruction is one of the three CSR forms (46_system.md R319). -/
def Instr.csrNumber : Instr → Option (BitVec 12)
  | .lui _ _ => none
  | .auipc _ _ => none
  | .jal _ _ => none
  | .jalr _ _ _ => none
  | .beq _ _ _ => none
  | .bne _ _ _ => none
  | .blt _ _ _ => none
  | .bge _ _ _ => none
  | .bltu _ _ _ => none
  | .bgeu _ _ _ => none
  | .lb _ _ _ => none
  | .lh _ _ _ => none
  | .lw _ _ _ => none
  | .lbu _ _ _ => none
  | .lhu _ _ _ => none
  | .sb _ _ _ => none
  | .sh _ _ _ => none
  | .sw _ _ _ => none
  | .addi _ _ _ => none
  | .slti _ _ _ => none
  | .sltiu _ _ _ => none
  | .xori _ _ _ => none
  | .ori _ _ _ => none
  | .andi _ _ _ => none
  | .slli _ _ _ => none
  | .srli _ _ _ => none
  | .srai _ _ _ => none
  | .add _ _ _ => none
  | .sub _ _ _ => none
  | .sll _ _ _ => none
  | .slt _ _ _ => none
  | .sltu _ _ _ => none
  | .xor _ _ _ => none
  | .srl _ _ _ => none
  | .sra _ _ _ => none
  | .or _ _ _ => none
  | .and _ _ _ => none
  | .mul _ _ _ => none
  | .mulh _ _ _ => none
  | .mulhsu _ _ _ => none
  | .mulhu _ _ _ => none
  | .div _ _ _ => none
  | .divu _ _ _ => none
  | .rem _ _ _ => none
  | .remu _ _ _ => none
  | .ecall => none
  | .ebreak => none
  | .mret => none
  | .wfi => none
  | .csrrw _ csr _ => some csr
  | .csrrs _ csr _ => some csr
  | .csrrc _ csr _ => some csr

end Sys2Proof

namespace Sys2Proof.Machine

/-- Where and how wide an instruction stores: the effective address its meaning computes, and its width
(42_loads_stores.md R230, R236 to R238). -/
def storesAt (s : State) : Instr → Option (Word × Nat)
  | .lui _ _ => none
  | .auipc _ _ => none
  | .jal _ _ => none
  | .jalr _ _ _ => none
  | .beq _ _ _ => none
  | .bne _ _ _ => none
  | .blt _ _ _ => none
  | .bge _ _ _ => none
  | .bltu _ _ _ => none
  | .bgeu _ _ _ => none
  | .lb _ _ _ => none
  | .lh _ _ _ => none
  | .lw _ _ _ => none
  | .lbu _ _ _ => none
  | .lhu _ _ _ => none
  | .sb _ rs1 imm => some (s.effectiveAddress rs1 imm, 1)
  | .sh _ rs1 imm => some (s.effectiveAddress rs1 imm, 2)
  | .sw _ rs1 imm => some (s.effectiveAddress rs1 imm, 4)
  | .addi _ _ _ => none
  | .slti _ _ _ => none
  | .sltiu _ _ _ => none
  | .xori _ _ _ => none
  | .ori _ _ _ => none
  | .andi _ _ _ => none
  | .slli _ _ _ => none
  | .srli _ _ _ => none
  | .srai _ _ _ => none
  | .add _ _ _ => none
  | .sub _ _ _ => none
  | .sll _ _ _ => none
  | .slt _ _ _ => none
  | .sltu _ _ _ => none
  | .xor _ _ _ => none
  | .srl _ _ _ => none
  | .sra _ _ _ => none
  | .or _ _ _ => none
  | .and _ _ _ => none
  | .mul _ _ _ => none
  | .mulh _ _ _ => none
  | .mulhsu _ _ _ => none
  | .mulhu _ _ _ => none
  | .div _ _ _ => none
  | .divu _ _ _ => none
  | .rem _ _ _ => none
  | .remu _ _ _ => none
  | .ecall => none
  | .ebreak => none
  | .mret => none
  | .wfi => none
  | .csrrw _ _ _ => none
  | .csrrs _ _ _ => none
  | .csrrc _ _ _ => none

/-- The address lies outside the `width` bytes from `base` up. -/
def Outside (base width a : Nat) : Prop := a < base ∨ base + width ≤ a

/-- Every general register but `rd` reads the same in both states. -/
def SameRegsBut (rd : Reg) (s t : State) : Prop := ∀ r, r ≠ rd → t.readReg r = s.readReg r

/-- Every byte of memory reads the same in both states. -/
def SameBytes (s t : State) : Prop := ∀ a, t.mem.get a = s.mem.get a

/-- The two states have the same parameters, privilege mode, run controller, stub, channel and host hook. -/
def SameSession (s t : State) : Prop :=
  t.cfg = s.cfg ∧ t.priv = s.priv ∧ t.mode = s.mode ∧ t.entry = s.entry ∧ t.rx = s.rx ∧ t.inbuf = s.inbuf ∧
    t.outbuf = s.outbuf ∧ t.stopSignal = s.stopSignal ∧ t.chanIn = s.chanIn ∧ t.chanOut = s.chanOut ∧
    t.hostIn = s.hostIn ∧ t.hostOut = s.hostOut

/-- The two states have the same registers, pc, CSRs, privilege mode and parameters: all that a session may not change
(60_exceptions.md R493). -/
def SameHart (s t : State) : Prop :=
  t.regs = s.regs ∧ t.pc = s.pc ∧ t.csrs = s.csrs ∧ t.priv = s.priv ∧ t.cfg = s.cfg

/-- `t` is `s` after an instruction that writes `v` to x[rd], if rd is not x0, and falls through: the outcome is `continue`
and nothing else changes. -/
def WritesAndFallsThrough (rd : Reg) (v : Word) (s t : State) : Prop :=
  t.readReg rd = (if rd = 0 then 0 else v) ∧ t.pc = s.pc + 4 ∧ t.outcome = .continued ∧
    SameRegsBut rd s t ∧ t.csrs = s.csrs ∧ t.mem = s.mem ∧ SameSession s t

/-- `t` is `s` after an instruction that writes no register and continues at `next`; nothing else changes. -/
def OnlyMovesPc (next : Word) (s t : State) : Prop :=
  t.pc = next ∧ t.outcome = .continued ∧ t.regs = s.regs ∧ t.csrs = s.csrs ∧ t.mem = s.mem ∧ SameSession s t

/-- `t` is `s` after trap entry with this cause and trap value: the writes of 60_exceptions.md R410 and no other. -/
def EntersTrap (cause tval : Word) (s t : State) : Prop :=
  t.csrs.mcause = cause ∧ t.csrs.mepc = s.pc ∧ t.csrs.mtval = tval ∧
    (∀ j, t.csrs.mstatus.getLsbD j = (s.csrs.mstatus.getLsbD j && j != 3)) ∧
    t.pc = s.csrs.mtvec ∧ t.outcome = .trapped ∧
    t.csrs.mie = s.csrs.mie ∧ t.csrs.mtvec = s.csrs.mtvec ∧ t.csrs.mscratch = s.csrs.mscratch ∧ t.csrs.mip = s.csrs.mip ∧
    t.regs = s.regs ∧ t.mem = s.mem ∧ SameSession s t

/-- The instruction, if it has an encoding, has a word that this match and mask select and that decodes to it, with every
operand (the Encoding line of the instruction's rule). -/
def EncodedAs (i : Instr) (pattern mask : Word) : Prop :=
  i.wf = true → encode i &&& mask = pattern ∧ decode (encode i) = .instr i

/-- Executing `i` writes `v s` to x[rd] and falls through, in every state `s`. -/
def Gives (i : Instr) (rd : Reg) (v : State → Word) : Prop :=
  ∀ s, ∃ t, exec i s = .next t ∧ WritesAndFallsThrough rd (v s) s t

/-- Executing `i` continues at `next s` in every state `s`, and does nothing else. -/
def GoesTo (i : Instr) (next : State → Word) : Prop :=
  ∀ s, ∃ t, exec i s = .next t ∧ OnlyMovesPc (next s) s t

/-- Executing the load `i` of `width` bytes at `ea s`: with all bytes in memory it writes `v s` to x[rd] and falls through,
otherwise it raises the load fault at `ea s`: trap entry with that cause and trap value. -/
def LoadsInto (i : Instr) (rd : Reg) (width : Nat) (ea : State → Word) (v : State → Word) : Prop :=
  (∀ s, (ea s).toNat + (width - 1) < s.cfg.memSize →
    ∃ t, exec i s = .next t ∧ WritesAndFallsThrough rd (v s) s t) ∧
  (∀ s, ¬ (ea s).toNat + (width - 1) < s.cfg.memSize →
    ∃ t, exec i s = .next t ∧ EntersTrap s.cfg.loadFaultCause (ea s) s t)

/-- `t` is `s` with the low `width` bytes of `v` stored at `base`, least significant first; no other byte of memory, no
register and no CSR has changed. -/
def Stores (base width : Nat) (v : Word) (s t : State) : Prop :=
  (∀ i, i < width → t.mem.get (base + i) = v.extractLsb' (8 * i) 8) ∧
    (∀ a, Outside base width a → t.mem.get a = s.mem.get a) ∧
    t.regs = s.regs ∧ t.csrs = s.csrs ∧ SameSession s t

/-- Executing the store `i` of the low `width` bytes of `v s` at `ea s`: with all bytes in memory it stores them and falls
through, otherwise it raises the store fault at `ea s`: trap entry with that cause and trap value. -/
def StoresTo (i : Instr) (width : Nat) (ea : State → Word) (v : State → Word) : Prop :=
  (∀ s, (ea s).toNat + (width - 1) < s.cfg.memSize →
    ∃ t, exec i s = .next t ∧ t.pc = s.pc + 4 ∧ t.outcome = .continued ∧ Stores (ea s).toNat width (v s) s t) ∧
  (∀ s, ¬ (ea s).toNat + (width - 1) < s.cfg.memSize →
    ∃ t, exec i s = .next t ∧ EntersTrap s.cfg.storeFaultCause (ea s) s t)

/-- The digits are one or more hex digits of either case, and `n` is the number they write (60_exceptions.md R506). -/
def WritesNumber (digits : List Byte) (n : Nat) : Prop :=
  digits ≠ [] ∧ (∀ b ∈ digits, (hexValue b).isSome) ∧
    n = digits.foldl (fun m b => 16 * m + (hexValue b).getD 0) 0

/-- `t` has the packet of this payload sent after what `s` had sent, the payload cut to PKT_OUT_CAP (60_exceptions.md R463). -/
def Replied (payload : List Byte) (s t : State) : Prop :=
  t.outbuf = payload.take s.cfg.pktOutCap ∧ t.chanOut = s.chanOut ++ framed (payload.take s.cfg.pktOutCap)

/-- `t` is `s` with the packet of this payload sent, and nothing else changed. -/
def OnlyReplies (payload : List Byte) (s t : State) : Prop :=
  t = { s with
    outbuf := payload.take s.cfg.pktOutCap
    chanOut := s.chanOut ++ framed (payload.take s.cfg.pktOutCap) }

/-- The stop report with these values (60_exceptions.md R490). -/
def stopReportOf (signal : Byte) (x8 x2 p : Word) : List Byte :=
  [ascii 'T'] ++ hex2 signal ++
    [ascii '0', ascii '8', ascii ':'] ++ hex32le x8 ++ [ascii ';'] ++
    [ascii '0', ascii '2', ascii ':'] ++ hex32le x2 ++ [ascii ';'] ++
    [ascii '2', ascii '0', ascii ':'] ++ hex32le p ++ [ascii ';']

/-- What holds of every state a run can reach: slot 0 of the register file is zero (10_state.md R31); memory has its
canonical form inside MEM_SIZE (R55); the packet buffers are within their capacities (R57); the stop signal is the fixed
one (60_exceptions.md R498); FS of mstatus and the bits of mie, mtvec and mip outside their write masks are still 0
(10_state.md R48 to R52); a session is under way only with a channel attached (60_exceptions.md R456); and the parameters
are ones the spec allows. -/
structure State.Inv (s : State) : Prop where
  cfg        : s.cfg.Wf
  x0         : s.regs[0] = 0
  memWf      : s.mem.wf
  memBelow   : s.mem.below s.cfg.memSize
  inbuf      : s.inbuf.length ≤ s.cfg.pktInCap
  outbuf     : s.outbuf.length ≤ s.cfg.pktOutCap
  stopSignal : s.stopSignal = s.cfg.stopSignal
  fs         : mstatusFs s.csrs.mstatus = 0
  mie        : s.csrs.mie &&& ~~~s.cfg.writeMask.mie = 0
  mtvec      : s.csrs.mtvec &&& ~~~s.cfg.writeMask.mtvec = 0
  mip        : s.csrs.mip &&& ~~~s.cfg.writeMask.mip = 0
  attached   : s.mode = .debug → s.cfg.channelAttached = true

/-- A run of `k` steps from `s` is safe: it answers a next state, and that state meets the invariant. -/
def SafeFor (k : Nat) (s : State) : Prop := ∃ t, Host.Core.run ⟨State, Fault, Refusal, step, State.reset⟩ k s = .next t ∧ t.Inv

end Sys2Proof.Machine
end

