-- ==== Sys2Proof/Certificates/Slice0/Obligations.lean ====
section
/-! DEFINITION. The statements about the model, for the provers. Each docstring names the rule of spec/ it formalises; where
it rests on a decision of the spec (D<n> of spec/92_eei_decisions.md) or on a choice of the model (a log entry), it says so. -/

open Sys2Proof Sys2Proof.Machine

/-! ### Encoding -/

/-- Words written out from the spec's encodings decode to what they stand for (one of each format; 95_test_vectors.md). -/
def Obligations.DecodesWrittenOutWords : Prop :=
  decode 0x123450B7 = .instr (.lui 1 0x12345) ∧
  decode 0xF01FF06F = .instr (.jal 0 (-256)) ∧
  decode 0x004280E7 = .instr (.jalr 1 5 4) ∧
  decode 0xFE209EE3 = .instr (.bne 1 2 (-4)) ∧
  decode 0xFFC0A283 = .instr (.lw 5 1 (-4)) ∧
  decode 0xFE501F23 = .instr (.sh 5 0 (-2)) ∧
  decode 0x40415093 = .instr (.srai 1 2 4) ∧
  decode 0x402081B3 = .instr (.sub 3 1 2) ∧
  decode 0x0220A1B3 = .instr (.mulhsu 3 1 2) ∧
  decode 0x300120F3 = .instr (.csrrs 1 0x300 2) ∧
  decode 0x30200073 = .instr .mret

/-- Decoding the encoding of a well-formed instruction gives it back, with every operand (30_encoding.md R111 to R132). -/
def Obligations.DecodeOfEncodeIsTheInstruction : Prop :=
  ∀ i : Instr, i.wf = true → decode (encode i) = .instr i

/-- A word that decodes to an instruction is the encoding of that instruction, which is well-formed: every word has one
meaning and every bit of it is read (30_encoding.md R130, "every word decodes to exactly one instruction"). -/
def Obligations.EncodeOfDecodedIsTheWord : Prop :=
  ∀ (w : Word) (i : Instr), decode w = .instr i → i.wf = true ∧ encode i = w

/-- A word decodes to an instruction exactly when a row of the opcode table selects it, and then it is the instruction's own
row that does (30_encoding.md, opening, and R130). -/
def Obligations.DecodeFollowsOpcodeTable : Prop :=
  ∀ w : Word,
    (∀ i, decode w = .instr i → i.row ∈ opcodeTable ∧ i.row.selects w) ∧
    ((∃ why, decode w = .illegal why) ↔ ∀ r ∈ opcodeTable, ¬ r.selects w)

/-- R131 and R134, and the compressed space of R130: MISC-MEM words, SYSTEM words with funct3 100 to 111, the custom opcodes
and every word whose low two bits are not 11 are illegal. Which words standard RISC-V has there is not stated; D10 and D11
are the spec's decisions. -/
def Obligations.ReservedSpacesAreIllegal : Prop :=
  ∀ w : Word,
    (opcodeOf w = 0x0F ∨ (opcodeOf w = 0x73 ∧ 4 ≤ (funct3Of w).toNat) ∨
      opcodeOf w = 0x0B ∨ opcodeOf w = 0x2B ∨ opcodeOf w = 0x5B ∨ opcodeOf w = 0x7B ∨ w.extractLsb' 0 2 ≠ 0b11) →
    ∃ why, decode w = .illegal why

/-- The immediates as integers over the bits of the word, and their ranges (R120 to R124). -/
def Obligations.ImmediatesReadTheWordsBits : Prop :=
  ∀ w : Word,
    let field (lo len : Nat) : Int := ((w.extractLsb' lo len).toNat : Int)
    ((immediate12 (immIOf w)).toInt = field 20 11 - 2048 * field 31 1 ∧
      -2048 ≤ (immediate12 (immIOf w)).toInt ∧ (immediate12 (immIOf w)).toInt ≤ 2047) ∧
    ((immediate12 (immSOf w)).toInt = field 7 5 + 32 * field 25 6 - 2048 * field 31 1 ∧
      -2048 ≤ (immediate12 (immSOf w)).toInt ∧ (immediate12 (immSOf w)).toInt ≤ 2047) ∧
    ((branchOffset (immBOf w)).toInt = 2 * field 8 4 + 32 * field 25 6 + 2048 * field 7 1 - 4096 * field 31 1 ∧
      -4096 ≤ (branchOffset (immBOf w)).toInt ∧ (branchOffset (immBOf w)).toInt ≤ 4094) ∧
    ((immediateU (immUOf w)).toNat = 4096 * (w.extractLsb' 12 20).toNat) ∧
    ((jumpOffset (immJOf w)).toInt =
        2 * field 21 10 + 2048 * field 20 1 + 4096 * field 12 8 - 1048576 * field 31 1 ∧
      -1048576 ≤ (jumpOffset (immJOf w)).toInt ∧ (jumpOffset (immJOf w)).toInt ≤ 1048574)

/-! ### Memory -/

/-- `MemRead` fails with the address and the kind exactly when `A + (W - 1) < MEM_SIZE` does not hold, and otherwise gives the
little-endian value of the W bytes, zero-extended (R81). -/
def Obligations.MemReadIsLittleEndian : Prop :=
  ∀ (s : State) (kind : AccessKind) (a : Word) (width : Nat), width = 1 ∨ width = 2 ∨ width = 4 →
    (¬ a.toNat + (width - 1) < s.cfg.memSize → s.memRead kind a width = .error ⟨kind, a⟩) ∧
    (a.toNat + (width - 1) < s.cfg.memSize →
      ∃ v, s.memRead kind a width = .ok v ∧
        (∀ i, i < width → v.extractLsb' (8 * i) 8 = s.mem.get (a.toNat + i)) ∧
        ∀ j, 8 * width ≤ j → v.getLsbD j = false)

/-- `MemWrite` fails and changes nothing exactly when the access is not valid, and otherwise writes each byte
`v[8i+7:8i]` at `A + i` and no other byte (R82). -/
def Obligations.MemWriteWritesAllBytesOrNone : Prop :=
  ∀ (s : State) (a : Word) (width : Nat) (v : Word), width = 1 ∨ width = 2 ∨ width = 4 →
    (¬ a.toNat + (width - 1) < s.cfg.memSize → s.memWrite a width v = .error ⟨.store, a⟩) ∧
    (a.toNat + (width - 1) < s.cfg.memSize →
      ∃ t, s.memWrite a width v = .ok t ∧ t.pc = s.pc ∧ t.outcome = s.outcome ∧ Stores a.toNat width v s t)

/-- A word stored by SW is loaded back by LW at the same address, aligned or not, and fetched as an instruction word
(42_loads_stores.md R238; 20_memory.md R86, R97). -/
def Obligations.StoredWordIsReadBack : Prop :=
  ∀ (s : State) (rs2 rs1 rd base : Reg) (imm imm' : BitVec 12) (t : State),
    (s.effectiveAddress rs1 imm).toNat + 3 < s.cfg.memSize →
    exec (.sw rs2 rs1 imm) s = .next t →
    s.effectiveAddress base imm' = s.effectiveAddress rs1 imm →
    (∃ u, exec (.lw rd base imm') t = .next u ∧
      u.readReg rd = (if rd = 0 then 0 else s.readReg rs2) ∧ u.pc = s.pc + 8 ∧ u.mem = t.mem) ∧
    t.memRead .fetch (s.effectiveAddress rs1 imm) 4 = .ok (s.readReg rs2)

/-- Two memories in canonical form that read the same everywhere are the same data (the form is the model's, log entry 15). -/
def Obligations.CanonicalMemoriesAreEqualData : Prop :=
  ∀ m n : Memory, m.wf → n.wf → (∀ a, m.get a = n.get a) → m = n

/-! ### Fetch, decode, and the step -/

/-- When the word at the pc decodes to an instruction, a step in RUN is that instruction's meaning with slot 0 forced to zero
at the end. With no channel that is all; with a channel whose poll is not the attention byte, the polled event is consumed
first and a trapped step enters a session after (20_memory.md R84, 10_state.md R31, 60_exceptions.md R452, R456). The one
form left out is an ECALL that a host is there to answer, which O60 states (decision D24, log entry 11). -/
def Obligations.StepRunsTheDecodedInstruction : Prop :=
  ∀ (s : State) (i : Instr), s.mode = .run → s.pc.toNat + 3 < s.cfg.memSize →
    decode (ofBytesLE (s.mem.readBytes s.pc.toNat 4)) = .instr i →
    (i ≠ .ecall ∨ s.cfg.hostCall = false ∨ s.hostIn = []) →
    (s.cfg.channelAttached = false → step s = Answer.mapNext State.forceX0 (exec i s)) ∧
    (s.cfg.channelAttached = true → s.chanIn.head? ≠ some (some s.cfg.attn) →
      step s = Answer.mapNext (fun t => t.forceX0.afterStep) (exec i { s with chanIn := s.chanIn.tail }))

/-- A fetch that does not fit in memory ends the step with the fetch fault: trap value and mepc are the pc (20_memory.md R84;
60_exceptions.md R403 with decisions D5, D6). Nothing is decoded, whatever the bytes are (R422). -/
def Obligations.FetchOutsideMemoryTraps : Prop :=
  ∀ s : State, s.regs[0] = 0 → ¬ s.pc.toNat + 3 < s.cfg.memSize →
    ∃ t, engineStep s = .next t ∧ EntersTrap s.cfg.fetchFaultCause s.pc s t

/-- Illegal instruction: a fetched word that is no instruction, and a CSR instruction whose number the bank rejects, trap
with cause 2 and the instruction word as trap value (R402). -/
def Obligations.IllegalInstructionsTrapWithTheWord : Prop :=
  ∀ (s : State) (w : Word), s.regs[0] = 0 → s.memRead .fetch s.pc 4 = .ok w →
    ((∃ why, decode w = .illegal why) ∨
      (∃ i n, decode w = .instr i ∧ i.csrNumber = some n ∧ (csrOfNumber n = none ∨ csrReadOnly n = true))) →
    ∃ t, engineStep s = .next t ∧ EntersTrap 2 w s t

/-- After each step of the execute engine, completed or trapped, slot 0 is zero, whatever it was before; x0 reads zero in every
state; and a write of it is discarded (R31). -/
def Obligations.SlotZeroReadsZero : Prop :=
  (∀ s t : State, engineStep s = .next t → t.regs[0] = 0) ∧
  (∀ s : State, s.readReg 0 = 0) ∧
  (∀ (s : State) (v : Word), s.writeReg 0 v = s) ∧
  (∀ (i : Instr) (s t : State), i.destination = some 0 → exec i s = .next t → t.regs = s.regs)

/-! ### What each instruction does -/

/-- LUI and AUIPC (R200, R201). -/
def Obligations.UpperImmediateResults : Prop :=
  ∀ (rd : Reg) (imm : BitVec 20),
    Gives (.lui rd imm) rd (fun _ => BitVec.ofNat 32 (imm.toNat * 4096)) ∧
    Gives (.auipc rd imm) rd (fun s => BitVec.ofNat 32 (s.pc.toNat + imm.toNat * 4096)) ∧
    EncodedAs (.lui rd imm) 0x00000037 0x0000007F ∧
    EncodedAs (.auipc rd imm) 0x00000017 0x0000007F

/-- JAL (R210): the link value in x[rd], the pc moved by the offset, both modulo 2^32. -/
def Obligations.JalResult : Prop :=
  ∀ (rd : Reg) (offset : BitVec 21), EncodedAs (.jal rd offset) 0x0000006F 0x0000007F ∧
    ∀ s : State, ∃ t, exec (.jal rd offset) s = .next t ∧
    t.readReg rd = (if rd = 0 then 0 else BitVec.ofNat 32 (s.pc.toNat + 4)) ∧
    t.pc = BitVec.ofInt 32 (s.pc.toNat + offset.toInt) ∧ t.outcome = .continued ∧
    SameRegsBut rd s t ∧ t.csrs = s.csrs ∧ t.mem = s.mem ∧ SameSession s t

/-- JALR (41_control_transfer.md R211; that bit 0 is cleared and bit 1 kept is decision D8): the target is the sum with the old
x[rs1], its bit 0 cleared. -/
def Obligations.JalrResult : Prop :=
  ∀ (rd rs1 : Reg) (imm : BitVec 12), EncodedAs (.jalr rd rs1 imm) 0x00000067 0x0000707F ∧
    ∀ s : State, ∃ t, exec (.jalr rd rs1 imm) s = .next t ∧
    t.readReg rd = (if rd = 0 then 0 else BitVec.ofNat 32 (s.pc.toNat + 4)) ∧
    t.pc = BitVec.ofInt 32 (2 * (((s.readReg rs1).toInt + imm.toInt) / 2)) ∧ t.outcome = .continued ∧
    SameRegsBut rd s t ∧ t.csrs = s.csrs ∧ t.mem = s.mem ∧ SameSession s t

/-- The six branches: taken to `pc + imm_B` modulo 2^32 exactly on their condition, else to `pc + 4`; nothing else changes
(R212 to R217, R220). With rs1 = rs2, BEQ, BGE and BGEU are always taken and the others never. -/
def Obligations.BranchResults : Prop :=
  ∀ (rs1 rs2 : Reg) (offset : BitVec 13),
    let target (s : State) (taken : Prop) (next : Word) : Prop :=
      (taken → next = BitVec.ofInt 32 (s.pc.toNat + offset.toInt)) ∧ (¬ taken → next = BitVec.ofNat 32 (s.pc.toNat + 4))
    let branches (i : Instr) (taken : State → Prop) : Prop :=
      ∀ s, ∃ t, exec i s = .next t ∧ target s (taken s) t.pc ∧ OnlyMovesPc t.pc s t
    branches (.beq rs1 rs2 offset) (fun s => s.readReg rs1 = s.readReg rs2) ∧
    branches (.bne rs1 rs2 offset) (fun s => s.readReg rs1 ≠ s.readReg rs2) ∧
    branches (.blt rs1 rs2 offset) (fun s => (s.readReg rs1).toInt < (s.readReg rs2).toInt) ∧
    branches (.bge rs1 rs2 offset) (fun s => (s.readReg rs1).toInt ≥ (s.readReg rs2).toInt) ∧
    branches (.bltu rs1 rs2 offset) (fun s => (s.readReg rs1).toNat < (s.readReg rs2).toNat) ∧
    branches (.bgeu rs1 rs2 offset) (fun s => (s.readReg rs1).toNat ≥ (s.readReg rs2).toNat) ∧
    EncodedAs (.beq rs1 rs2 offset) 0x00000063 0x0000707F ∧
    EncodedAs (.bne rs1 rs2 offset) 0x00001063 0x0000707F ∧
    EncodedAs (.blt rs1 rs2 offset) 0x00004063 0x0000707F ∧
    EncodedAs (.bge rs1 rs2 offset) 0x00005063 0x0000707F ∧
    EncodedAs (.bltu rs1 rs2 offset) 0x00006063 0x0000707F ∧
    EncodedAs (.bgeu rs1 rs2 offset) 0x00007063 0x0000707F ∧
    (rs1 = rs2 → branches (.beq rs1 rs2 offset) (fun _ => True) ∧ branches (.bge rs1 rs2 offset) (fun _ => True) ∧
      branches (.bgeu rs1 rs2 offset) (fun _ => True) ∧ branches (.bne rs1 rs2 offset) (fun _ => False) ∧
      branches (.blt rs1 rs2 offset) (fun _ => False) ∧ branches (.bltu rs1 rs2 offset) (fun _ => False))

/-- The five loads: the extended little-endian value of the bytes at `x[rs1] + imm`, or the load fault, which writes no
register and enters the trap with LOAD_FAULT_CAUSE and the address (42_loads_stores.md R231 to R235; 60_exceptions.md R404;
that the cause is a parameter, what the trap value is and what the loads extend are decisions D5, D6, D21). -/
def Obligations.LoadResults : Prop :=
  ∀ (rd rs1 : Reg) (imm : BitVec 12),
    let ea (s : State) : Word := BitVec.ofInt 32 ((s.readReg rs1).toNat + imm.toInt)
    let byte (s : State) (i : Nat) : Byte := s.mem.get ((ea s).toNat + i)
    LoadsInto (.lb rd rs1 imm) rd 1 ea (fun s => BitVec.ofInt 32 (byte s 0).toInt) ∧
    LoadsInto (.lh rd rs1 imm) rd 2 ea (fun s => BitVec.ofInt 32 (byte s 1 ++ byte s 0).toInt) ∧
    LoadsInto (.lw rd rs1 imm) rd 4 ea (fun s => byte s 3 ++ (byte s 2 ++ (byte s 1 ++ byte s 0))) ∧
    LoadsInto (.lbu rd rs1 imm) rd 1 ea (fun s => BitVec.ofNat 32 (byte s 0).toNat) ∧
    LoadsInto (.lhu rd rs1 imm) rd 2 ea (fun s => BitVec.ofNat 32 ((byte s 0).toNat + 256 * (byte s 1).toNat)) ∧
    EncodedAs (.lb rd rs1 imm) 0x00000003 0x0000707F ∧
    EncodedAs (.lh rd rs1 imm) 0x00001003 0x0000707F ∧
    EncodedAs (.lw rd rs1 imm) 0x00002003 0x0000707F ∧
    EncodedAs (.lbu rd rs1 imm) 0x00004003 0x0000707F ∧
    EncodedAs (.lhu rd rs1 imm) 0x00005003 0x0000707F

/-- The three stores: the low bytes of x[rs2] at `x[rs1] + imm`, least significant first and no other byte, or the store fault,
which writes none and enters the trap with STORE_FAULT_CAUSE and the address (42_loads_stores.md R236 to R238;
60_exceptions.md R405; the cause and the trap value are decisions D5, D6). -/
def Obligations.StoreResults : Prop :=
  ∀ (rs2 rs1 : Reg) (imm : BitVec 12),
    let ea (s : State) : Word := BitVec.ofInt 32 ((s.readReg rs1).toNat + imm.toInt)
    StoresTo (.sb rs2 rs1 imm) 1 ea (fun s => s.readReg rs2) ∧
    StoresTo (.sh rs2 rs1 imm) 2 ea (fun s => s.readReg rs2) ∧
    StoresTo (.sw rs2 rs1 imm) 4 ea (fun s => s.readReg rs2) ∧
    EncodedAs (.sb rs2 rs1 imm) 0x00000023 0x0000707F ∧
    EncodedAs (.sh rs2 rs1 imm) 0x00001023 0x0000707F ∧
    EncodedAs (.sw rs2 rs1 imm) 0x00002023 0x0000707F

/-- ADDI, SLTI, SLTIU, XORI, ORI and ANDI (R250 to R255). -/
def Obligations.ImmediateArithmeticResults : Prop :=
  ∀ (rd rs1 : Reg) (imm : BitVec 12),
    let x (s : State) : Word := s.readReg rs1
    let immBit (j : Nat) : Bool := imm.getLsbD (min j 11)
    let bitwise (f : Bool → Bool → Bool) (v : Word) (s : State) : Prop :=
      ∀ j, j < 32 → v.getLsbD j = f ((x s).getLsbD j) (immBit j)
    Gives (.addi rd rs1 imm) rd (fun s => BitVec.ofInt 32 ((x s).toInt + imm.toInt)) ∧
    Gives (.slti rd rs1 imm) rd (fun s => if (x s).toInt < imm.toInt then 1 else 0) ∧
    Gives (.sltiu rd rs1 imm) rd (fun s => if (x s).toNat < (imm.signExtend 32).toNat then 1 else 0) ∧
    (∃ v, Gives (.xori rd rs1 imm) rd v ∧ ∀ s, bitwise Bool.xor (v s) s) ∧
    (∃ v, Gives (.ori rd rs1 imm) rd v ∧ ∀ s, bitwise Bool.or (v s) s) ∧
    (∃ v, Gives (.andi rd rs1 imm) rd v ∧ ∀ s, bitwise Bool.and (v s) s) ∧
    EncodedAs (.addi rd rs1 imm) 0x00000013 0x0000707F ∧
    EncodedAs (.slti rd rs1 imm) 0x00002013 0x0000707F ∧
    EncodedAs (.sltiu rd rs1 imm) 0x00003013 0x0000707F ∧
    EncodedAs (.xori rd rs1 imm) 0x00004013 0x0000707F ∧
    EncodedAs (.ori rd rs1 imm) 0x00006013 0x0000707F ∧
    EncodedAs (.andi rd rs1 imm) 0x00007013 0x0000707F

/-- SLLI, SRLI and SRAI, for each of the 32 amounts; a word with any other value of inst[31:25] and their funct3 raises the
illegal-instruction exception with the word (R256 to R258). -/
def Obligations.ImmediateShiftResults : Prop :=
  (∀ (s : State) (w : Word), s.memRead .fetch s.pc 4 = .ok w → opcodeOf w = 0b0010011 →
    (funct3Of w = 0b001 ∧ funct7Of w ≠ 0b0000000) ∨
      (funct3Of w = 0b101 ∧ funct7Of w ≠ 0b0000000 ∧ funct7Of w ≠ 0b0100000) →
    fetchDecodeExecute s = .next (s.takeTrap (.illegalInstruction w))) ∧
  ∀ (rd rs1 : Reg) (shamt : BitVec 5),
    Gives (.slli rd rs1 shamt) rd (fun s => BitVec.ofNat 32 ((s.readReg rs1).toNat * 2 ^ shamt.toNat)) ∧
    Gives (.srli rd rs1 shamt) rd (fun s => BitVec.ofNat 32 ((s.readReg rs1).toNat / 2 ^ shamt.toNat)) ∧
    Gives (.srai rd rs1 shamt) rd (fun s => BitVec.ofInt 32 ((s.readReg rs1).toInt / 2 ^ shamt.toNat)) ∧
    EncodedAs (.slli rd rs1 shamt) 0x00001013 0xFE00707F ∧
    EncodedAs (.srli rd rs1 shamt) 0x00005013 0xFE00707F ∧
    EncodedAs (.srai rd rs1 shamt) 0x40005013 0xFE00707F

/-- ADD to AND; a register shift uses x[rs2] modulo 32 (R270 to R279). -/
def Obligations.RegisterArithmeticResults : Prop :=
  ∀ rd rs1 rs2 : Reg,
    let x (s : State) : Word := s.readReg rs1
    let y (s : State) : Word := s.readReg rs2
    let bitwise (f : Bool → Bool → Bool) (v : Word) (s : State) : Prop :=
      ∀ j, j < 32 → v.getLsbD j = f ((x s).getLsbD j) ((y s).getLsbD j)
    Gives (.add rd rs1 rs2) rd (fun s => BitVec.ofInt 32 ((x s).toInt + (y s).toInt)) ∧
    Gives (.sub rd rs1 rs2) rd (fun s => BitVec.ofInt 32 ((x s).toInt - (y s).toInt)) ∧
    Gives (.sll rd rs1 rs2) rd (fun s => BitVec.ofNat 32 ((x s).toNat * 2 ^ ((y s).toNat % 32))) ∧
    Gives (.slt rd rs1 rs2) rd (fun s => if (x s).toInt < (y s).toInt then 1 else 0) ∧
    Gives (.sltu rd rs1 rs2) rd (fun s => if (x s).toNat < (y s).toNat then 1 else 0) ∧
    (∃ v, Gives (.xor rd rs1 rs2) rd v ∧ ∀ s, bitwise Bool.xor (v s) s) ∧
    Gives (.srl rd rs1 rs2) rd (fun s => BitVec.ofNat 32 ((x s).toNat / 2 ^ ((y s).toNat % 32))) ∧
    Gives (.sra rd rs1 rs2) rd (fun s => BitVec.ofInt 32 ((x s).toInt / 2 ^ ((y s).toNat % 32))) ∧
    (∃ v, Gives (.or rd rs1 rs2) rd v ∧ ∀ s, bitwise Bool.or (v s) s) ∧
    (∃ v, Gives (.and rd rs1 rs2) rd v ∧ ∀ s, bitwise Bool.and (v s) s) ∧
    EncodedAs (.add rd rs1 rs2) 0x00000033 0xFE00707F ∧
    EncodedAs (.sub rd rs1 rs2) 0x40000033 0xFE00707F ∧
    EncodedAs (.sll rd rs1 rs2) 0x00001033 0xFE00707F ∧
    EncodedAs (.slt rd rs1 rs2) 0x00002033 0xFE00707F ∧
    EncodedAs (.sltu rd rs1 rs2) 0x00003033 0xFE00707F ∧
    EncodedAs (.xor rd rs1 rs2) 0x00004033 0xFE00707F ∧
    EncodedAs (.srl rd rs1 rs2) 0x00005033 0xFE00707F ∧
    EncodedAs (.sra rd rs1 rs2) 0x40005033 0xFE00707F ∧
    EncodedAs (.or rd rs1 rs2) 0x00006033 0xFE00707F ∧
    EncodedAs (.and rd rs1 rs2) 0x00007033 0xFE00707F

/-- MUL, MULH, MULHSU and MULHU over exact products; the low half is the same for any signedness (R291 to R294). -/
def Obligations.MultiplyResults : Prop :=
  ∀ rd rs1 rs2 : Reg,
    let x (s : State) : Word := s.readReg rs1
    let y (s : State) : Word := s.readReg rs2
    Gives (.mul rd rs1 rs2) rd (fun s => BitVec.ofNat 32 ((x s).toNat * (y s).toNat)) ∧
    Gives (.mul rd rs1 rs2) rd (fun s => BitVec.ofInt 32 ((x s).toInt * (y s).toInt)) ∧
    Gives (.mulh rd rs1 rs2) rd (fun s => BitVec.ofInt 32 ((x s).toInt * (y s).toInt / 2 ^ 32)) ∧
    Gives (.mulhsu rd rs1 rs2) rd (fun s => BitVec.ofInt 32 ((x s).toInt * (y s).toNat / 2 ^ 32)) ∧
    Gives (.mulhu rd rs1 rs2) rd (fun s => BitVec.ofNat 32 ((x s).toNat * (y s).toNat / 2 ^ 32)) ∧
    EncodedAs (.mul rd rs1 rs2) 0x02000033 0xFE00707F ∧
    EncodedAs (.mulh rd rs1 rs2) 0x02001033 0xFE00707F ∧
    EncodedAs (.mulhsu rd rs1 rs2) 0x02002033 0xFE00707F ∧
    EncodedAs (.mulhu rd rs1 rs2) 0x02003033 0xFE00707F

/-- DIV, DIVU, REM and REMU (R295 to R298): quotients toward zero, remainders of the dividend's sign, and a result for a zero
divisor. The quotient of -2^31 by -1 is 2^31, which narrows to 0x80000000. -/
def Obligations.DivideResults : Prop :=
  ∀ rd rs1 rs2 : Reg,
    let x (s : State) : Word := s.readReg rs1
    let y (s : State) : Word := s.readReg rs2
    Gives (.div rd rs1 rs2) rd
      (fun s => BitVec.ofInt 32 (if (y s).toInt = 0 then -1 else (x s).toInt.tdiv (y s).toInt)) ∧
    Gives (.divu rd rs1 rs2) rd
      (fun s => if (y s).toNat = 0 then 0xFFFFFFFF else BitVec.ofNat 32 ((x s).toNat / (y s).toNat)) ∧
    Gives (.rem rd rs1 rs2) rd
      (fun s => BitVec.ofInt 32 (if (y s).toInt = 0 then (x s).toInt else (x s).toInt.tmod (y s).toInt)) ∧
    Gives (.remu rd rs1 rs2) rd
      (fun s => BitVec.ofNat 32 (if (y s).toNat = 0 then (x s).toNat else (x s).toNat % (y s).toNat)) ∧
    EncodedAs (.div rd rs1 rs2) 0x02004033 0xFE00707F ∧
    EncodedAs (.divu rd rs1 rs2) 0x02005033 0xFE00707F ∧
    EncodedAs (.rem rd rs1 rs2) 0x02006033 0xFE00707F ∧
    EncodedAs (.remu rd rs1 rs2) 0x02007033 0xFE00707F

/-- The edge cases of the table, and outside them `a = b * q + r` with `|r| < |b|` and r of a's sign (R299). -/
def Obligations.DivisionEdgeCases : Prop :=
  ∀ (rd rs1 rs2 : Reg) (s : State), rd ≠ 0 →
    let a := s.readReg rs1
    let b := s.readReg rs2
    ∃ td tdu tr tru th tsu tu,
      exec (.div rd rs1 rs2) s = .next td ∧ exec (.divu rd rs1 rs2) s = .next tdu ∧
      exec (.rem rd rs1 rs2) s = .next tr ∧ exec (.remu rd rs1 rs2) s = .next tru ∧
      exec (.mulh rd rs1 rs2) s = .next th ∧ exec (.mulhsu rd rs1 rs2) s = .next tsu ∧
      exec (.mulhu rd rs1 rs2) s = .next tu ∧
      (b = 0 → td.readReg rd = 0xFFFFFFFF ∧ tdu.readReg rd = 0xFFFFFFFF ∧ tr.readReg rd = a ∧ tru.readReg rd = a) ∧
      (a = 0x80000000 ∧ b = 0xFFFFFFFF → td.readReg rd = 0x80000000 ∧ tr.readReg rd = 0) ∧
      th.readReg rd = (a.signExtend 64 * b.signExtend 64).extractLsb' 32 32 ∧
      tsu.readReg rd = (a.signExtend 64 * b.setWidth 64).extractLsb' 32 32 ∧
      tu.readReg rd = (a.setWidth 64 * b.setWidth 64).extractLsb' 32 32 ∧
      (b ≠ 0 → ¬ (a = 0x80000000 ∧ b = 0xFFFFFFFF) →
        a.toInt = b.toInt * (td.readReg rd).toInt + (tr.readReg rd).toInt ∧
        (tr.readReg rd).toInt.natAbs < b.toInt.natAbs ∧
        ((tr.readReg rd).toInt ≠ 0 → ((tr.readReg rd).toInt < 0 ↔ a.toInt < 0)))

/-- ECALL and EBREAK take their exceptions: causes 11 and 3, trap value 0, mepc at the instruction itself; WFI only advances
the pc (46_system.md R311, R312, R317, with decisions D7, D13, D23, D24, D45). -/
def Obligations.EcallEbreakAndWfiResults : Prop :=
  (∀ s : State, ∃ t, exec .ecall s = .next t ∧ EntersTrap 11 0 s t) ∧
  (∀ s : State, ∃ t, exec .ebreak s = .next t ∧ EntersTrap 3 0 s t) ∧
  GoesTo .wfi (fun s => BitVec.ofNat 32 (s.pc.toNat + 4)) ∧
  EncodedAs .ecall 0x00000073 0xFFFFFFFF ∧
  EncodedAs .ebreak 0x00100073 0xFFFFFFFF ∧
  EncodedAs .wfi 0x10500073 0xFFFFFFFF

/-- MRET: MIE takes MPIE, MPIE becomes 1, MPP becomes 00, the pc takes mepc; no register and no other CSR bit changes
(R415). -/
def Obligations.MretRestoresAndReturns : Prop :=
  ∀ s : State, ∃ t, exec .mret s = .next t ∧
    (∀ j, t.csrs.mstatus.getLsbD j =
      if j = 3 then s.csrs.mstatus.getLsbD 7 else if j = 7 then true
      else if j = 11 ∨ j = 12 then false else s.csrs.mstatus.getLsbD j) ∧
    t.pc = s.csrs.mepc ∧ t.outcome = .continued ∧
    (∀ c, c ≠ .mstatus → readCsr t.csrs c = readCsr s.csrs c) ∧
    t.regs = s.regs ∧ t.mem = s.mem ∧ SameSession s t

/-- An ECALL and then an MRET come back to the ECALL with MIE as MPIE stood before the trap, which trap entry did not write
(46_system.md R311, R316 and 60_exceptions.md R411 with decision D21; the source's worked case, 95_test_vectors.md 1.3). -/
def Obligations.EcallThenMretReturnsWithOldMpie : Prop :=
  ∀ s : State, ∃ t u, exec .ecall s = .next t ∧ exec .mret t = .next u ∧
    t.csrs.mstatus.getLsbD 3 = false ∧ u.pc = s.pc ∧
    u.csrs.mstatus.getLsbD 3 = s.csrs.mstatus.getLsbD 7 ∧ u.csrs.mstatus.getLsbD 7 = true ∧
    u.regs = s.regs ∧ u.mem = s.mem

/-- The three CSR instructions on a catalogued number: x[rd] takes the old value through the read mask, the CSR's bits inside its
write mask take the new value computed from that and the old x[rs1], every other bit and CSR stays (46_system.md R313 to R315,
R319 with decision D19; 10_state.md R44, R45). -/
def Obligations.CsrInstructionResults : Prop :=
  ∀ (rd rs1 : Reg) (n : BitVec 12) (c : Csr), csrOfNumber n = some c →
    let old (s : State) : Word := readCsr s.csrs c &&& readCsr s.cfg.readMask c
    let does (i : Instr) (new : Word → Word → Word) : Prop :=
      ∀ s, ∃ t, exec i s = .next t ∧
        t.readReg rd = (if rd = 0 then 0 else old s) ∧
        (∀ j, (readCsr t.csrs c).getLsbD j =
          if (readCsr s.cfg.writeMask c).getLsbD j then (new (old s) (s.readReg rs1)).getLsbD j
          else (readCsr s.csrs c).getLsbD j) ∧
        (∀ d, d ≠ c → readCsr t.csrs d = readCsr s.csrs d) ∧
        t.pc = s.pc + 4 ∧ t.outcome = .continued ∧ SameRegsBut rd s t ∧ t.mem = s.mem ∧ SameSession s t
    does (.csrrw rd n rs1) (fun _ src => src) ∧
    does (.csrrs rd n rs1) (fun o src => o ||| src) ∧
    does (.csrrc rd n rs1) (fun o src => o &&& ~~~src) ∧
    EncodedAs (.csrrw rd n rs1) 0x00001073 0x0000707F ∧
    EncodedAs (.csrrs rd n rs1) 0x00002073 0x0000707F ∧
    EncodedAs (.csrrc rd n rs1) 0x00003073 0x0000707F

/-- A CSR fault, an unknown number or a write to the read-only range, raises the illegal-instruction exception: cause 2, the
instruction word in mtval, and neither x[rd] nor any CSR but those trap entry writes changes (46_system.md R318; trap entry is
60_exceptions.md R410 with decision D21). -/
def Obligations.CsrFaultIsIllegalInstruction : Prop :=
  ∀ (s : State) (w : Word) (i : Instr) (n : BitVec 12), decode w = .instr i → i.csrNumber = some n →
    csrOfNumber n = none ∨ csrReadOnly n = true →
    ∃ t, exec i s = .next t ∧ EntersTrap 2 w s t

/-- `CsrWrite`: it fails on an unknown number and on one in the read-only range; else it writes the bits inside the write mask
and preserves the others, and every other CSR (R45). -/
def Obligations.CsrWriteIsMasked : Prop :=
  ∀ (s : State) (n : BitVec 12) (v : Word),
    (csrOfNumber n = none ∨ csrReadOnly n = true → s.csrWrite n v = none) ∧
    (∀ c, csrOfNumber n = some c → csrReadOnly n = false →
      ∃ t, s.csrWrite n v = some t ∧
        (∀ j, (readCsr t.csrs c).getLsbD j =
          if (readCsr s.cfg.writeMask c).getLsbD j then v.getLsbD j else (readCsr s.csrs c).getLsbD j) ∧
        (∀ d, d ≠ c → readCsr t.csrs d = readCsr s.csrs d) ∧
        t.regs = s.regs ∧ t.pc = s.pc ∧ t.mem = s.mem ∧ SameSession s t)

/-! ### Frames -/

/-- Only the destination of an instruction changes among the general registers; an instruction that has none, and one that
traps, changes none (10_state.md R34; 60_exceptions.md R413). -/
def Obligations.OnlyTheDestinationRegisterChanges : Prop :=
  ∀ (i : Instr) (s t : State), exec i s = .next t →
    (∀ r, i.destination ≠ some r → t.readReg r = s.readReg r) ∧
    (i.destination = none ∨ t.outcome = .trapped → t.regs = s.regs)

/-- Only a store that does not trap changes memory, and only the bytes at the effective address its meaning computes
(42_loads_stores.md R230, R236 to R238; 60_exceptions.md R412). -/
def Obligations.OnlyStoredBytesChange : Prop :=
  ∀ (i : Instr) (s t : State), exec i s = .next t →
    (storesAt s i = none ∨ t.outcome = .trapped → SameBytes s t) ∧
    ∀ ea width, storesAt s i = some (ea, width) → ∀ a, Outside ea.toNat width a → t.mem.get a = s.mem.get a

/-- The CSRs: mie, mtvec, mscratch and mip are changed by CSR instructions only; an instruction that neither traps nor is a CSR
form nor MRET changes none; a trap changes what R410 lists; MRET changes mstatus only; a CSR form that completes changes the
CSR it names only (10_state.md R47; 60_exceptions.md R410, R415; 46_system.md R319). -/
def Obligations.OnlyListedCsrsChange : Prop :=
  ∀ (i : Instr) (s t : State), exec i s = .next t →
    (t.outcome = .trapped →
      ∀ c, c ∉ [Csr.mcause, .mepc, .mtval, .mstatus] → readCsr t.csrs c = readCsr s.csrs c) ∧
    (t.outcome = .trapped → t.csrs.mstatus = setMie s.csrs.mstatus false) ∧
    (t.outcome = .continued → i.csrNumber = none → i ≠ .mret → t.csrs = s.csrs) ∧
    (i = .mret → ∀ c, c ≠ .mstatus → readCsr t.csrs c = readCsr s.csrs c) ∧
    (t.outcome = .continued → ∀ n, i.csrNumber = some n →
      ∀ c, csrOfNumber n ≠ some c → readCsr t.csrs c = readCsr s.csrs c)

/-- No instruction changes the parameters, the privilege mode, the run controller, the stub or the channel
(00_scope.md R9; 60_exceptions.md R430, R432: a program cannot reach the channel). -/
def Obligations.InstructionsLeaveSessionAlone : Prop :=
  ∀ (i : Instr) (s t : State), exec i s = .next t → SameSession s t

/-! ### Whole-machine rules -/

/-- Traps are precise: an instruction that traps has changed no register and no byte of memory, mepc is its address, and control
is at mtvec (60_exceptions.md R412, R410). -/
def Obligations.TrapsArePrecise : Prop :=
  ∀ (i : Instr) (s t : State), exec i s = .next t → t.outcome = .trapped →
    t.regs = s.regs ∧ t.mem = s.mem ∧ t.csrs.mepc = s.pc ∧ t.pc = s.csrs.mtvec ∧
      t.csrs.mstatus.getLsbD 3 = false

/-- The exceptions of a step are the six of 60_exceptions.md R400 to R406: no other cause is ever recorded, and with parameters
the spec allows mcause[31] is 0 after a trap (R420). -/
def Obligations.OnlySixCausesAreRecorded : Prop :=
  ∀ s t : State, engineStep s = .next t → t.outcome = .trapped →
    (t.csrs.mcause = 2 ∨ t.csrs.mcause = 3 ∨ t.csrs.mcause = 11 ∨ t.csrs.mcause = s.cfg.fetchFaultCause ∨
      t.csrs.mcause = s.cfg.loadFaultCause ∨ t.csrs.mcause = s.cfg.storeFaultCause) ∧
    (s.cfg.Wf → t.csrs.mcause.getLsbD 31 = false)

/-- Where control goes: an instruction that traps goes to mtvec; one that completes goes to mepc if it is MRET, to its target if
it is JAL or JALR, to its target or pc + 4 if it is a branch (O18 says when to which), and to pc + 4 if it is any other
(10_state.md R36; the target of JALR as in O17, decision D8). -/
def Obligations.NextPcIsOneOfFour : Prop :=
  ∀ (i : Instr) (s t : State), exec i s = .next t →
    let isBranch (rs1 rs2 : Reg) (off : BitVec 13) : Prop :=
      i = .beq rs1 rs2 off ∨ i = .bne rs1 rs2 off ∨ i = .blt rs1 rs2 off ∨ i = .bge rs1 rs2 off ∨
        i = .bltu rs1 rs2 off ∨ i = .bgeu rs1 rs2 off
    (t.outcome = .trapped → t.pc = s.csrs.mtvec) ∧
    (t.outcome = .continued →
      (i = .mret → t.pc = s.csrs.mepc) ∧
      (∀ rd off, i = .jal rd off → t.pc = BitVec.ofInt 32 (s.pc.toNat + off.toInt)) ∧
      (∀ rd rs1 imm, i = .jalr rd rs1 imm →
        t.pc = BitVec.ofInt 32 (2 * (((s.readReg rs1).toInt + imm.toInt) / 2))) ∧
      (∀ rs1 rs2 off, isBranch rs1 rs2 off →
        t.pc = BitVec.ofInt 32 (s.pc.toNat + off.toInt) ∨ t.pc = BitVec.ofNat 32 (s.pc.toNat + 4)) ∧
      (i ≠ .mret → (∀ rd off, i ≠ .jal rd off) → (∀ rd rs1 imm, i ≠ .jalr rd rs1 imm) →
        (∀ rs1 rs2 off, ¬ isBranch rs1 rs2 off) → t.pc = BitVec.ofNat 32 (s.pc.toNat + 4)))

/-- The machine never halts by itself: every step from every state answers a next state (60_exceptions.md R457 with decisions
D27, D42; that a session without input repeats its state is log entry 6). -/
def Obligations.EveryStepAnswersNext : Prop :=
  (∀ s : State, ∃ t, step s = .next t) ∧
  (∀ s : State, s.mode = .debug → nextReceived s.chanIn = none → step s = .next s)

/-- "No instruction and no debug command changes a parameter" (R9). -/
def Obligations.StepsKeepTheParameters : Prop :=
  ∀ s t : State, step s = .next t → t.cfg = s.cfg

/-- Every step keeps the invariant. -/
def Obligations.StepKeepsTheInvariant : Prop :=
  ∀ s t : State, s.Inv → step s = .next t → t.Inv

/-- Every instance that can be created, with any input of its channel and any answers of its host, meets the invariant, and so
does the state after reset. -/
def Obligations.CreatedInstancesMeetTheInvariant : Prop :=
  (∀ (cfg : Config) (offset : Nat) (image : List Byte) (input : List (Option Byte)) (answers : List (Option HostAnswer))
    (s : State), cfg.Wf → State.create cfg offset image input answers = some s → s.Inv) ∧
  State.reset.Inv

/-- Every run of every length from every instance that can be created is safe, whatever its channel brings and its host answers:
it never stops, and the invariant holds at its end (60_exceptions.md R451, R457; that the input and the answers are arguments
of the creation is log entries 5 and 11). -/
def Obligations.EveryRunIsSafe : Prop :=
  ∀ (cfg : Config) (offset : Nat) (image : List Byte) (input : List (Option Byte)) (answers : List (Option HostAnswer))
    (s : State), cfg.Wf → State.create cfg offset image input answers = some s → ∀ k, SafeFor k s

/-- The state after creation: the image at its offset and zeros elsewhere, every register and CSR zero, the pc at RESET_PC, RUN,
empty buffers, the stop signal, the channel's whole input still to come and nothing sent; and an image that does not fit
creates no instance (70_reset_and_hazards.md R520, R523 with decisions D20, D43; 60_exceptions.md R451; log entries 5, 11). -/
def Obligations.CreatedState : Prop :=
  ∀ (cfg : Config) (offset : Nat) (image : List Byte) (input : List (Option Byte)) (answers : List (Option HostAnswer)),
    (¬ offset + image.length ≤ cfg.memSize → State.create cfg offset image input answers = none) ∧
    (offset + image.length ≤ cfg.memSize → ∃ s, State.create cfg offset image input answers = some s ∧
      (∀ i (h : i < image.length), s.mem.get (offset + i) = image[i]) ∧
      (∀ a, Outside offset image.length a → s.mem.get a = 0) ∧
      (∀ r, s.readReg r = 0) ∧ (∀ c, readCsr s.csrs c = 0) ∧ s.pc = cfg.resetPc ∧ s.priv = .machine ∧
      s.mode = .run ∧ s.inbuf = [] ∧ s.outbuf = [] ∧ s.stopSignal = cfg.stopSignal ∧ s.cfg = cfg ∧
      s.chanIn = input ∧ s.chanOut = [] ∧ s.hostIn = answers ∧ s.hostOut = [])

/-! ### The run controller and the debug stub -/

/-- The attention byte enters a session before the next step, with no register, CSR or byte of memory changed, and the stop
report carries the live pc (60_exceptions.md R453, R490 with decisions D26, D32, D39). -/
def Obligations.AttentionByteEntersSession : Prop :=
  ∀ (s : State) (rest : List (Option Byte)), s.mode = .run → s.cfg.channelAttached = true → 39 ≤ s.cfg.pktOutCap →
    s.chanIn = some s.cfg.attn :: rest →
    ∃ t, step s = .next t ∧ SameHart s t ∧ t.mem = s.mem ∧ t.mode = .debug ∧ t.entry = .attention ∧ t.rx = .waitStart ∧
      t.chanIn = rest ∧
      t.chanOut = s.chanOut ++ framed (stopReportOf s.stopSignal (s.readReg 8) (s.readReg 2) s.pc)

/-- With a channel, a step that traps enters a session after the trap has completed, and the stop report carries mepc; a step
that does not trap enters none; a polled byte that is not the attention byte is discarded
(60_exceptions.md R452, R454, R490 with decisions D23, D26, D32). -/
def Obligations.TrappedStepEntersSession : Prop :=
  ∀ s u : State, s.mode = .run → s.cfg.channelAttached = true → 39 ≤ s.cfg.pktOutCap →
    s.chanIn.head? ≠ some (some s.cfg.attn) → engineStep { s with chanIn := s.chanIn.tail } = .next u →
    (u.outcome = .continued → step s = .next u) ∧
    (u.outcome = .trapped → ∃ t, step s = .next t ∧ SameHart u t ∧ t.mem = u.mem ∧ t.mode = .debug ∧ t.entry = .trap ∧
      t.rx = .waitStart ∧ t.chanIn = s.chanIn.tail ∧
      t.chanOut = s.chanOut ++ framed (stopReportOf s.stopSignal (u.readReg 8) (u.readReg 2) u.csrs.mepc))

/-- Without a channel no session is ever entered: a step in RUN is a step of the engine and stays in RUN, whatever waits on the
channel (60_exceptions.md R456, decision D25). -/
def Obligations.NoChannelNoSession : Prop :=
  ∀ s t : State, s.cfg.channelAttached = false → s.mode = .run → step s = .next t →
    engineStep s = .next t ∧ t.mode = .run ∧ t.chanIn = s.chanIn ∧ t.chanOut = s.chanOut

/-- In a session only memory can change, of all the hart has, and only by an accepted `M` packet (60_exceptions.md R493). -/
def Obligations.SessionsChangeOnlyMemory : Prop :=
  ∀ s t : State, s.mode = .debug → step s = .next t →
    SameHart s t ∧ t.stopSignal = s.stopSignal ∧ t.entry = s.entry ∧
    (t.mem ≠ s.mem → ∃ sum h1 h2 rest addr data, s.rx = .checksumLow sum h1 ∧
      nextReceived s.chanIn = some (h2, rest) ∧ checksumMatches sum h1 h2 = true ∧ s.inbuf.head? = some (ascii 'M') ∧
      parseCommand s.inbuf = .writeMemory addr data ∧ t.mem = s.mem.writeBytes addr data)

/-- A session ends only when an accepted packet's command is `c`; the controller is then back in RUN, and the next step is an
iteration of it, which starts with a poll where a channel is attached (R455). -/
def Obligations.SessionsEndOnlyByResume : Prop :=
  ∀ s t : State, s.mode = .debug → step s = .next t → t.mode = .run →
    (∃ sum h1 h2 rest, s.rx = .checksumLow sum h1 ∧ nextReceived s.chanIn = some (h2, rest) ∧
      checksumMatches sum h1 h2 = true ∧ s.inbuf.head? = some (ascii 'c') ∧ t.chanIn = rest) ∧
    step t = runIteration t

/-- A checksum mismatch, which a digit that is no hex digit also is, sends `-` and nothing else, the receiver waits for the next
packet, and nothing else changes: no register, CSR or byte of memory (60_exceptions.md R464, R460 with decision D28; the
receiver as a state of the model is log entry 7). -/
def Obligations.BadChecksumOnlyAnswersMinus : Prop :=
  ∀ (s : State) (sum h1 h2 : Byte) (rest : List (Option Byte)), s.mode = .debug → s.rx = .checksumLow sum h1 →
    nextReceived s.chanIn = some (h2, rest) → checksumMatches sum h1 h2 = false →
    step s = .next { s with chanIn := rest, rx := .waitStart, chanOut := s.chanOut ++ [ascii '-'] }

/-- A packet received in a session runs its command: over the steps that take its bytes, one each, past any polls that would
find nothing, the stub answers `+` and runs the command of the first PKT_IN_CAP payload bytes if the checksum of the WHOLE
payload matches, and answers `-` if not (60_exceptions.md R460 to R462, decision D28). That a step takes one byte and that the
inbound buffer then holds what was kept are the model's choice (log entries 7 and 8). -/
def Obligations.ReceivedPacketRunsItsCommand : Prop :=
  ∀ (s : State) (payload : List Byte) (h1 h2 : Byte) (input rest : List (Option Byte)),
    s.mode = .debug → s.rx = .waitStart → (∀ b ∈ payload, b ≠ ascii '#') →
    input.filterMap id = ascii '$' :: payload ++ [ascii '#', h1, h2] → input.getLast? = some (some h2) →
    s.chanIn = input ++ rest →
    let seen := payload.take s.cfg.pktInCap
    let t : State := { s with chanIn := rest, inbuf := seen }
    Host.Core.run Sys2Proof.core (payload.length + 4) s =
      .next (if checksumMatches (checksum payload) h1 h2 then (t.send [ascii '+']).runCommand (parseCommand seen)
        else t.send [ascii '-'])

/-- An outbound packet is read back by the receiver's own check: the payload, cut to PKT_OUT_CAP, stands between `$` and `#`, and
the two digits after it match its checksum (60_exceptions.md R463, decision D29). -/
def Obligations.SentPacketsCarryTheirChecksum : Prop :=
  ∀ (s : State) (payload : List Byte), ∃ h1 h2,
    let cut := payload.take s.cfg.pktOutCap
    (s.sendPacket payload).chanOut = s.chanOut ++ ([ascii '$'] ++ cut ++ [ascii '#', h1, h2]) ∧
    checksumMatches (checksum cut) h1 h2 = true ∧ (s.sendPacket payload).outbuf = cut ∧
    SameHart s (s.sendPacket payload) ∧ (s.sendPacket payload).mem = s.mem

/-- `H` and `G` reply OK whatever follows, and any other first byte and the empty payload get the empty reply; none of them
changes anything else (60_exceptions.md R500, R505, R510 with decision D38; that a reply stands in the outbound buffer is
log entry 8). -/
def Obligations.AcknowledgedCommandsChangeNothing : Prop :=
  ∀ (s : State) (p : List Byte),
    let t := s.runCommand (parseCommand p)
    (p.head? = some (ascii 'H') ∨ p.head? = some (ascii 'G') → OnlyReplies [ascii 'O', ascii 'K'] s t) ∧
    ((∀ b ∈ p.head?, b ∉ [ascii '?', ascii 'q', ascii 'H', ascii 'g', ascii 'G', ascii 'm', ascii 'M', ascii 'c',
      ascii 'k']) → OnlyReplies [] s t)

/-- `?` replies S and the signal, `k` replies OK and the session goes on, `c` replies nothing and ends it, and `q` replies by its
sub-letter: to `S` with PKT_IN_CAP in lowercase hex digits without a leading zero (60_exceptions.md R498, R499, R508, R509 with decisions D31, D33, D38). -/
def Obligations.SignalKillResumeAndQueries : Prop :=
  ∀ (s : State) (args : List Byte),
    let does (c : Char) : State := s.runCommand (parseCommand (ascii c :: args))
    OnlyReplies (ascii 'S' :: hex2 s.stopSignal) s (does '?') ∧
    OnlyReplies [ascii 'O', ascii 'K'] s (does 'k') ∧
    does 'c' = { s with mode := .run } ∧
    (args.head? = some (ascii 'S') → ∃ digits, WritesNumber digits s.cfg.pktInCap ∧
      (∀ b ∈ digits, b ∉ "ABCDEF".toList.map ascii) ∧ (digits.head? = some (ascii '0') → digits = [ascii '0']) ∧
      OnlyReplies ("PacketSize=".toList.map ascii ++ digits) s (does 'q')) ∧
    (∀ letter reply, s.cfg.qAck = some (letter, reply) → letter ≠ ascii 'S' → args.head? = some letter →
      OnlyReplies reply s (does 'q')) ∧
    (args.head? ≠ some (ascii 'S') → (∀ a ∈ s.cfg.qAck, args.head? ≠ some a.1) → OnlyReplies [] s (does 'q'))

/-- `g` replies 264 characters, the 33 values x0 to x31 and the live pc, each as eight digits in target byte order, uncut under
every parameter the spec allows (60_exceptions.md R501, decision D34). -/
def Obligations.RegistersReplyIsWhole : Prop :=
  ∀ (s : State) (args : List Byte), s.cfg.Wf →
    let t := s.runCommand (parseCommand (ascii 'g' :: args))
    t.outbuf.length = 264 ∧
    (∀ r : Reg, (t.outbuf.drop (8 * r.val)).take 8 = hex32le (s.readReg r)) ∧
    t.outbuf.drop 256 = hex32le s.pc ∧ t.chanOut = s.chanOut ++ framed t.outbuf ∧ SameHart s t ∧ t.mem = s.mem

/-- `m addr,len`: two digits for each byte of the range, or E03 if the range is not inside memory, or E01 for any other syntax;
nothing changes (60_exceptions.md R506, R511 with decisions D35, D36). -/
def Obligations.ReadMemoryCommand : Prop :=
  ∀ (s : State) (args : List Byte),
    let t := s.runCommand (parseCommand (ascii 'm' :: args))
    (∀ as ls a l, args = as ++ ascii ',' :: ls → WritesNumber as a → WritesNumber ls l →
      (a + l ≤ s.cfg.memSize → OnlyReplies ((List.range l).flatMap fun i => hex2 (s.mem.get (a + i))) s t) ∧
      (¬ a + l ≤ s.cfg.memSize → OnlyReplies [ascii 'E', ascii '0', ascii '3'] s t)) ∧
    ((¬ ∃ as ls a l, args = as ++ ascii ',' :: ls ∧ WritesNumber as a ∧ WritesNumber ls l) →
      OnlyReplies [ascii 'E', ascii '0', ascii '1'] s t)

/-- `M addr,len:data`: with exactly 2*len digits and the range inside memory the bytes are written, no other, and the reply is
OK; a range not inside memory gets E03 and any other syntax E01, and memory is unchanged
(60_exceptions.md R507, R511 with decisions D35, D37). -/
def Obligations.WriteMemoryCommand : Prop :=
  ∀ (s : State) (args : List Byte),
    let t := s.runCommand (parseCommand (ascii 'M' :: args))
    let wellFormed (as ls ds : List Byte) (a l : Nat) : Prop :=
      args = as ++ ascii ',' :: (ls ++ ascii ':' :: ds) ∧ WritesNumber as a ∧ WritesNumber ls l ∧
        ds.length = 2 * l ∧ ∀ d ∈ ds, (hexValue d).isSome
    SameHart s t ∧ t.mode = s.mode ∧
    (∀ as ls ds a l, wellFormed as ls ds a l →
      (a + l ≤ s.cfg.memSize → Replied [ascii 'O', ascii 'K'] s t ∧
        (∀ i h1 h2, i < l → ds[2 * i]? = some h1 → ds[2 * i + 1]? = some h2 →
          t.mem.get (a + i) = BitVec.ofNat 8 ((hexValue h1).getD 0 * 16 + (hexValue h2).getD 0)) ∧
        ∀ b, Outside a l b → t.mem.get b = s.mem.get b) ∧
      (¬ a + l ≤ s.cfg.memSize → OnlyReplies [ascii 'E', ascii '0', ascii '3'] s t)) ∧
    ((¬ ∃ as ls ds a l, wellFormed as ls ds a l) → OnlyReplies [ascii 'E', ascii '0', ascii '1'] s t)

/-! ### The notation of the stub, and the host hook -/

/-- The hexadecimal notation and the framing that the statements about the stub use: the value of a digit of either case; a
byte in two lowercase digits, high one first; a word in eight, its bytes in target byte order; the sum of the payload modulo
256; a packet; and when two digits match a sum (60_exceptions.md sections 9 and 12; that a byte which is no digit matches no
sum is decision D28). -/
def Obligations.HexNotationAndFraming : Prop :=
  let lower := "0123456789abcdef".toList.map ascii
  let upper := "0123456789ABCDEF".toList.map ascii
  (∀ (c : Byte) (d : Nat), hexValue c = some d ↔ lower[d]? = some c ∨ upper[d]? = some c) ∧
  (∀ b : Byte, (hex2 b).map some = [lower[b.toNat / 16]?, lower[b.toNat % 16]?]) ∧
  (∀ v : Word, hex32le v =
    hex2 (v.extractLsb' 0 8) ++ hex2 (v.extractLsb' 8 8) ++ hex2 (v.extractLsb' 16 8) ++ hex2 (v.extractLsb' 24 8)) ∧
  (∀ p : List Byte, (checksum p).toNat = (p.map BitVec.toNat).sum % 256) ∧
  (∀ p : List Byte, framed p = [ascii '$'] ++ p ++ [ascii '#'] ++ hex2 (checksum p)) ∧
  (∀ sum h1 h2 : Byte, checksumMatches sum h1 h2 = true ↔
    ∃ a b, hexValue h1 = some a ∧ hexValue h2 = some b ∧ 16 * a + b = sum.toNat)

/-- An ECALL and the host-capability hook: with HOSTCALL none it always traps, as it does where the host declines or has no more
to say; a host that acts sees a7 and a0 to a6, reads and then writes memory through views, gives a0, and the step completes
at pc + 4 with nothing else changed; a view that fails is the hook's failure and no trap, and then memory is as it was
(92_eei_decisions.md D24; 20_memory.md R90; 46_system.md R311). That an ECALL invokes the hook, the registers and the form of
an answer are the model's choice (log entry 11). -/
def Obligations.HostHookServesEcalls : Prop :=
  ∀ s : State, s.pc.toNat + 3 < s.cfg.memSize →
    decode (ofBytesLE (s.mem.readBytes s.pc.toNat 4)) = .instr .ecall →
    (s.cfg.hostCall = false ∨ s.hostIn = [] → engineStep s = Answer.mapNext State.forceX0 (exec .ecall s)) ∧
    (∀ rest, s.cfg.hostCall = true → s.hostIn = none :: rest →
      engineStep s = Answer.mapNext State.forceX0 (exec .ecall { s with hostIn := rest })) ∧
    (∀ a rest, s.cfg.hostCall = true → s.hostIn = some a :: rest →
      let valid : Prop := (∀ v ∈ a.reads, v.1 + v.2 ≤ s.cfg.memSize) ∧ (∀ v ∈ a.writes, v.1 + v.2.length ≤ s.cfg.memSize)
      let call (seen : List (List Byte)) : HostCall :=
        ⟨s.readReg 17, [10, 11, 12, 13, 14, 15, 16].map s.readReg, seen⟩
      ∃ t, engineStep s = .next t ∧ t.pc = s.pc + 4 ∧ t.outcome = .continued ∧ SameRegsBut 10 s t ∧ t.csrs = s.csrs ∧
        SameSession { s with hostIn := rest, hostOut := t.hostOut } t ∧
        (valid → t.readReg 10 = a.result ∧
          t.hostOut = s.hostOut ++ [call (a.reads.map fun v => (List.range v.2).map fun i => s.mem.get (v.1 + i))] ∧
          (∀ before v after, a.writes = before ++ v :: after → ∀ i (h : i < v.2.length),
            (∀ w ∈ after, Outside w.1 w.2.length (v.1 + i)) → t.mem.get (v.1 + i) = v.2[i]) ∧
          ∀ b, (∀ v ∈ a.writes, Outside v.1 v.2.length b) → t.mem.get b = s.mem.get b) ∧
        (¬ valid → t.readReg 10 = a.failure ∧ t.hostOut = s.hostOut ++ [call []] ∧ t.mem = s.mem))
end

