-- ==== Sys2Proof/Laws/Decode.lean ====
section
/-! SUPPORT. The fields of an encoding, the encoding of a word's fields, and the words the decoder reads: what proofs about the
decoder and the encoder cite instead of unfolding the formats. -/

namespace Sys2Proof

/-! ### Fields of a concatenation -/

theorem extractLsb'_append_low {n m : Nat} (a : BitVec n) (b : BitVec m) (s l : Nat) (h : s + l ≤ m) :
    (a ++ b).extractLsb' s l = b.extractLsb' s l :=
  BitVec.extractLsb'_append_eq_of_add_le h

theorem extractLsb'_append_high {n m : Nat} (a : BitVec n) (b : BitVec m) (s l : Nat) (h : m ≤ s) :
    (a ++ b).extractLsb' s l = a.extractLsb' (s - m) l :=
  BitVec.extractLsb'_append_eq_of_le h

/-- Two adjacent fields are one field. -/
theorem extractLsb'_join {n k l s : Nat} (w : BitVec n) (m : Nat) (h : m = s + l) :
    w.extractLsb' m k ++ w.extractLsb' s l = w.extractLsb' s (k + l) :=
  BitVec.extractLsb'_append_extractLsb'_eq_extractLsb' h

@[simp] theorem regOfField_fieldOfReg (r : Reg) : regOfField (fieldOfReg r) = r := rfl

@[simp] theorem fieldOfReg_regOfField (b : BitVec 5) : fieldOfReg (regOfField b) = b := rfl

/-- An even offset has the 0 that its format does not encode. -/
theorem extractLsb'_zero_of_evenOffset {n : Nat} {offset : BitVec n} (h : evenOffset offset = true) :
    offset.extractLsb' 0 1 = 0#1 := by
  have h0 : offset.getLsbD 0 = false := by simpa [evenOffset] using h
  ext j hj
  obtain rfl : j = 0 := by omega
  simpa using h0

/-! ### The fields of an encoding (30_encoding.md R111 to R118) -/

@[simp] theorem opcodeOf_encodeR (f7 : BitVec 7) (f3 : BitVec 3) (op : BitVec 7) (rd rs1 rs2 : Reg) :
    opcodeOf (encodeR f7 f3 op rd rs1 rs2) = op := by
  unfold opcodeOf encodeR
  repeat rw [extractLsb'_append_low _ _ _ _ (by decide)]
  simp

@[simp] theorem funct3Of_encodeR (f7 : BitVec 7) (f3 : BitVec 3) (op : BitVec 7) (rd rs1 rs2 : Reg) :
    funct3Of (encodeR f7 f3 op rd rs1 rs2) = f3 := by
  unfold funct3Of encodeR
  repeat first | rw [extractLsb'_append_low _ _ _ _ (by decide)] | rw [extractLsb'_append_high _ _ _ _ (by decide)]
  simp

@[simp] theorem funct7Of_encodeR (f7 : BitVec 7) (f3 : BitVec 3) (op : BitVec 7) (rd rs1 rs2 : Reg) :
    funct7Of (encodeR f7 f3 op rd rs1 rs2) = f7 := by
  unfold funct7Of encodeR
  repeat first | rw [extractLsb'_append_low _ _ _ _ (by decide)] | rw [extractLsb'_append_high _ _ _ _ (by decide)]
  simp

@[simp] theorem rdOf_encodeR (f7 : BitVec 7) (f3 : BitVec 3) (op : BitVec 7) (rd rs1 rs2 : Reg) :
    rdOf (encodeR f7 f3 op rd rs1 rs2) = rd := by
  unfold rdOf encodeR
  repeat first | rw [extractLsb'_append_low _ _ _ _ (by decide)] | rw [extractLsb'_append_high _ _ _ _ (by decide)]
  simp

@[simp] theorem rs1Of_encodeR (f7 : BitVec 7) (f3 : BitVec 3) (op : BitVec 7) (rd rs1 rs2 : Reg) :
    rs1Of (encodeR f7 f3 op rd rs1 rs2) = rs1 := by
  unfold rs1Of encodeR
  repeat first | rw [extractLsb'_append_low _ _ _ _ (by decide)] | rw [extractLsb'_append_high _ _ _ _ (by decide)]
  simp

@[simp] theorem rs2Of_encodeR (f7 : BitVec 7) (f3 : BitVec 3) (op : BitVec 7) (rd rs1 rs2 : Reg) :
    rs2Of (encodeR f7 f3 op rd rs1 rs2) = rs2 := by
  unfold rs2Of encodeR
  repeat first | rw [extractLsb'_append_low _ _ _ _ (by decide)] | rw [extractLsb'_append_high _ _ _ _ (by decide)]
  simp

@[simp] theorem opcodeOf_encodeI (f3 : BitVec 3) (op : BitVec 7) (rd rs1 : Reg) (imm : BitVec 12) :
    opcodeOf (encodeI f3 op rd rs1 imm) = op := by
  unfold opcodeOf encodeI
  repeat rw [extractLsb'_append_low _ _ _ _ (by decide)]
  simp

@[simp] theorem funct3Of_encodeI (f3 : BitVec 3) (op : BitVec 7) (rd rs1 : Reg) (imm : BitVec 12) :
    funct3Of (encodeI f3 op rd rs1 imm) = f3 := by
  unfold funct3Of encodeI
  repeat first | rw [extractLsb'_append_low _ _ _ _ (by decide)] | rw [extractLsb'_append_high _ _ _ _ (by decide)]
  simp

@[simp] theorem rdOf_encodeI (f3 : BitVec 3) (op : BitVec 7) (rd rs1 : Reg) (imm : BitVec 12) :
    rdOf (encodeI f3 op rd rs1 imm) = rd := by
  unfold rdOf encodeI
  repeat first | rw [extractLsb'_append_low _ _ _ _ (by decide)] | rw [extractLsb'_append_high _ _ _ _ (by decide)]
  simp

@[simp] theorem rs1Of_encodeI (f3 : BitVec 3) (op : BitVec 7) (rd rs1 : Reg) (imm : BitVec 12) :
    rs1Of (encodeI f3 op rd rs1 imm) = rs1 := by
  unfold rs1Of encodeI
  repeat first | rw [extractLsb'_append_low _ _ _ _ (by decide)] | rw [extractLsb'_append_high _ _ _ _ (by decide)]
  simp

@[simp] theorem immIOf_encodeI (f3 : BitVec 3) (op : BitVec 7) (rd rs1 : Reg) (imm : BitVec 12) :
    immIOf (encodeI f3 op rd rs1 imm) = imm := by
  unfold immIOf encodeI
  repeat first | rw [extractLsb'_append_low _ _ _ _ (by decide)] | rw [extractLsb'_append_high _ _ _ _ (by decide)]
  simp

@[simp] theorem csrOf_encodeI (f3 : BitVec 3) (op : BitVec 7) (rd rs1 : Reg) (imm : BitVec 12) :
    csrOf (encodeI f3 op rd rs1 imm) = imm := by
  unfold csrOf encodeI
  repeat first | rw [extractLsb'_append_low _ _ _ _ (by decide)] | rw [extractLsb'_append_high _ _ _ _ (by decide)]
  simp

@[simp] theorem opcodeOf_encodeShift (f7 : BitVec 7) (f3 : BitVec 3) (rd rs1 : Reg) (shamt : BitVec 5) :
    opcodeOf (encodeShift f7 f3 rd rs1 shamt) = 0b0010011#7 := by
  unfold opcodeOf encodeShift
  repeat rw [extractLsb'_append_low _ _ _ _ (by decide)]
  simp

@[simp] theorem funct3Of_encodeShift (f7 : BitVec 7) (f3 : BitVec 3) (rd rs1 : Reg) (shamt : BitVec 5) :
    funct3Of (encodeShift f7 f3 rd rs1 shamt) = f3 := by
  unfold funct3Of encodeShift
  repeat first | rw [extractLsb'_append_low _ _ _ _ (by decide)] | rw [extractLsb'_append_high _ _ _ _ (by decide)]
  simp

@[simp] theorem funct7Of_encodeShift (f7 : BitVec 7) (f3 : BitVec 3) (rd rs1 : Reg) (shamt : BitVec 5) :
    funct7Of (encodeShift f7 f3 rd rs1 shamt) = f7 := by
  unfold funct7Of encodeShift
  repeat first | rw [extractLsb'_append_low _ _ _ _ (by decide)] | rw [extractLsb'_append_high _ _ _ _ (by decide)]
  simp

@[simp] theorem rdOf_encodeShift (f7 : BitVec 7) (f3 : BitVec 3) (rd rs1 : Reg) (shamt : BitVec 5) :
    rdOf (encodeShift f7 f3 rd rs1 shamt) = rd := by
  unfold rdOf encodeShift
  repeat first | rw [extractLsb'_append_low _ _ _ _ (by decide)] | rw [extractLsb'_append_high _ _ _ _ (by decide)]
  simp

@[simp] theorem rs1Of_encodeShift (f7 : BitVec 7) (f3 : BitVec 3) (rd rs1 : Reg) (shamt : BitVec 5) :
    rs1Of (encodeShift f7 f3 rd rs1 shamt) = rs1 := by
  unfold rs1Of encodeShift
  repeat first | rw [extractLsb'_append_low _ _ _ _ (by decide)] | rw [extractLsb'_append_high _ _ _ _ (by decide)]
  simp

@[simp] theorem shamtOf_encodeShift (f7 : BitVec 7) (f3 : BitVec 3) (rd rs1 : Reg) (shamt : BitVec 5) :
    shamtOf (encodeShift f7 f3 rd rs1 shamt) = shamt := by
  unfold shamtOf encodeShift
  repeat first | rw [extractLsb'_append_low _ _ _ _ (by decide)] | rw [extractLsb'_append_high _ _ _ _ (by decide)]
  simp

@[simp] theorem opcodeOf_encodeS (f3 : BitVec 3) (rs2 rs1 : Reg) (imm : BitVec 12) :
    opcodeOf (encodeS f3 rs2 rs1 imm) = 0b0100011#7 := by
  unfold opcodeOf encodeS
  repeat rw [extractLsb'_append_low _ _ _ _ (by decide)]
  simp

@[simp] theorem funct3Of_encodeS (f3 : BitVec 3) (rs2 rs1 : Reg) (imm : BitVec 12) :
    funct3Of (encodeS f3 rs2 rs1 imm) = f3 := by
  unfold funct3Of encodeS
  repeat first | rw [extractLsb'_append_low _ _ _ _ (by decide)] | rw [extractLsb'_append_high _ _ _ _ (by decide)]
  simp

@[simp] theorem rs1Of_encodeS (f3 : BitVec 3) (rs2 rs1 : Reg) (imm : BitVec 12) :
    rs1Of (encodeS f3 rs2 rs1 imm) = rs1 := by
  unfold rs1Of encodeS
  repeat first | rw [extractLsb'_append_low _ _ _ _ (by decide)] | rw [extractLsb'_append_high _ _ _ _ (by decide)]
  simp

@[simp] theorem rs2Of_encodeS (f3 : BitVec 3) (rs2 rs1 : Reg) (imm : BitVec 12) :
    rs2Of (encodeS f3 rs2 rs1 imm) = rs2 := by
  unfold rs2Of encodeS
  repeat first | rw [extractLsb'_append_low _ _ _ _ (by decide)] | rw [extractLsb'_append_high _ _ _ _ (by decide)]
  simp

@[simp] theorem opcodeOf_encodeB (f3 : BitVec 3) (rs1 rs2 : Reg) (offset : BitVec 13) :
    opcodeOf (encodeB f3 rs1 rs2 offset) = 0b1100011#7 := by
  unfold opcodeOf encodeB
  repeat rw [extractLsb'_append_low _ _ _ _ (by decide)]
  simp

@[simp] theorem funct3Of_encodeB (f3 : BitVec 3) (rs1 rs2 : Reg) (offset : BitVec 13) :
    funct3Of (encodeB f3 rs1 rs2 offset) = f3 := by
  unfold funct3Of encodeB
  repeat first | rw [extractLsb'_append_low _ _ _ _ (by decide)] | rw [extractLsb'_append_high _ _ _ _ (by decide)]
  simp

@[simp] theorem rs1Of_encodeB (f3 : BitVec 3) (rs1 rs2 : Reg) (offset : BitVec 13) :
    rs1Of (encodeB f3 rs1 rs2 offset) = rs1 := by
  unfold rs1Of encodeB
  repeat first | rw [extractLsb'_append_low _ _ _ _ (by decide)] | rw [extractLsb'_append_high _ _ _ _ (by decide)]
  simp

@[simp] theorem rs2Of_encodeB (f3 : BitVec 3) (rs1 rs2 : Reg) (offset : BitVec 13) :
    rs2Of (encodeB f3 rs1 rs2 offset) = rs2 := by
  unfold rs2Of encodeB
  repeat first | rw [extractLsb'_append_low _ _ _ _ (by decide)] | rw [extractLsb'_append_high _ _ _ _ (by decide)]
  simp

@[simp] theorem opcodeOf_encodeU (op : BitVec 7) (rd : Reg) (imm : BitVec 20) :
    opcodeOf (encodeU op rd imm) = op := by
  unfold opcodeOf encodeU
  repeat rw [extractLsb'_append_low _ _ _ _ (by decide)]
  simp

@[simp] theorem rdOf_encodeU (op : BitVec 7) (rd : Reg) (imm : BitVec 20) :
    rdOf (encodeU op rd imm) = rd := by
  unfold rdOf encodeU
  repeat first | rw [extractLsb'_append_low _ _ _ _ (by decide)] | rw [extractLsb'_append_high _ _ _ _ (by decide)]
  simp

@[simp] theorem immUOf_encodeU (op : BitVec 7) (rd : Reg) (imm : BitVec 20) :
    immUOf (encodeU op rd imm) = imm := by
  unfold immUOf encodeU
  repeat first | rw [extractLsb'_append_low _ _ _ _ (by decide)] | rw [extractLsb'_append_high _ _ _ _ (by decide)]
  simp

@[simp] theorem opcodeOf_encodeJ (rd : Reg) (offset : BitVec 21) :
    opcodeOf (encodeJ rd offset) = 0b1101111#7 := by
  unfold opcodeOf encodeJ
  repeat rw [extractLsb'_append_low _ _ _ _ (by decide)]
  simp

@[simp] theorem rdOf_encodeJ (rd : Reg) (offset : BitVec 21) :
    rdOf (encodeJ rd offset) = rd := by
  unfold rdOf encodeJ
  repeat first | rw [extractLsb'_append_low _ _ _ _ (by decide)] | rw [extractLsb'_append_high _ _ _ _ (by decide)]
  simp

theorem extractLsb'_25_encodeS (f3 : BitVec 3) (rs2 rs1 : Reg) (offset : BitVec 12) :
    (encodeS f3 rs2 rs1 offset).extractLsb' 25 7 = offset.extractLsb' 5 7 := by
  unfold encodeS
  repeat first | rw [extractLsb'_append_low _ _ _ _ (by decide)] | rw [extractLsb'_append_high _ _ _ _ (by decide)]
  simp

theorem extractLsb'_7_encodeS (f3 : BitVec 3) (rs2 rs1 : Reg) (offset : BitVec 12) :
    (encodeS f3 rs2 rs1 offset).extractLsb' 7 5 = offset.extractLsb' 0 5 := by
  unfold encodeS
  repeat first | rw [extractLsb'_append_low _ _ _ _ (by decide)] | rw [extractLsb'_append_high _ _ _ _ (by decide)]
  simp

@[simp] theorem immSOf_encodeS (f3 : BitVec 3) (rs2 rs1 : Reg) (offset : BitVec 12) :
    immSOf (encodeS f3 rs2 rs1 offset) = offset := by
  rw [immSOf, extractLsb'_25_encodeS, extractLsb'_7_encodeS, extractLsb'_join _ 5 (by decide)]
  exact BitVec.extractLsb'_eq_self

theorem extractLsb'_31_encodeB (f3 : BitVec 3) (rs1 rs2 : Reg) (offset : BitVec 13) :
    (encodeB f3 rs1 rs2 offset).extractLsb' 31 1 = offset.extractLsb' 12 1 := by
  unfold encodeB
  repeat first | rw [extractLsb'_append_low _ _ _ _ (by decide)] | rw [extractLsb'_append_high _ _ _ _ (by decide)]
  simp

theorem extractLsb'_7_encodeB (f3 : BitVec 3) (rs1 rs2 : Reg) (offset : BitVec 13) :
    (encodeB f3 rs1 rs2 offset).extractLsb' 7 1 = offset.extractLsb' 11 1 := by
  unfold encodeB
  repeat first | rw [extractLsb'_append_low _ _ _ _ (by decide)] | rw [extractLsb'_append_high _ _ _ _ (by decide)]
  simp

theorem extractLsb'_25_encodeB (f3 : BitVec 3) (rs1 rs2 : Reg) (offset : BitVec 13) :
    (encodeB f3 rs1 rs2 offset).extractLsb' 25 6 = offset.extractLsb' 5 6 := by
  unfold encodeB
  repeat first | rw [extractLsb'_append_low _ _ _ _ (by decide)] | rw [extractLsb'_append_high _ _ _ _ (by decide)]
  simp

theorem extractLsb'_8_encodeB (f3 : BitVec 3) (rs1 rs2 : Reg) (offset : BitVec 13) :
    (encodeB f3 rs1 rs2 offset).extractLsb' 8 4 = offset.extractLsb' 1 4 := by
  unfold encodeB
  repeat first | rw [extractLsb'_append_low _ _ _ _ (by decide)] | rw [extractLsb'_append_high _ _ _ _ (by decide)]
  simp

@[simp] theorem immBOf_encodeB (f3 : BitVec 3) (rs1 rs2 : Reg) (offset : BitVec 13) (h : evenOffset offset = true) :
    immBOf (encodeB f3 rs1 rs2 offset) = offset := by
  rw [immBOf, extractLsb'_31_encodeB, extractLsb'_7_encodeB, extractLsb'_25_encodeB, extractLsb'_8_encodeB, ← extractLsb'_zero_of_evenOffset h,
    extractLsb'_join _ 1 (by decide), extractLsb'_join _ 5 (by decide), extractLsb'_join _ 11 (by decide), extractLsb'_join _ 12 (by decide)]
  exact BitVec.extractLsb'_eq_self

theorem extractLsb'_31_encodeJ (rd : Reg) (offset : BitVec 21) :
    (encodeJ rd offset).extractLsb' 31 1 = offset.extractLsb' 20 1 := by
  unfold encodeJ
  repeat first | rw [extractLsb'_append_low _ _ _ _ (by decide)] | rw [extractLsb'_append_high _ _ _ _ (by decide)]
  simp

theorem extractLsb'_12_encodeJ (rd : Reg) (offset : BitVec 21) :
    (encodeJ rd offset).extractLsb' 12 8 = offset.extractLsb' 12 8 := by
  unfold encodeJ
  repeat first | rw [extractLsb'_append_low _ _ _ _ (by decide)] | rw [extractLsb'_append_high _ _ _ _ (by decide)]
  simp

theorem extractLsb'_20_encodeJ (rd : Reg) (offset : BitVec 21) :
    (encodeJ rd offset).extractLsb' 20 1 = offset.extractLsb' 11 1 := by
  unfold encodeJ
  repeat first | rw [extractLsb'_append_low _ _ _ _ (by decide)] | rw [extractLsb'_append_high _ _ _ _ (by decide)]
  simp

theorem extractLsb'_21_encodeJ (rd : Reg) (offset : BitVec 21) :
    (encodeJ rd offset).extractLsb' 21 10 = offset.extractLsb' 1 10 := by
  unfold encodeJ
  repeat first | rw [extractLsb'_append_low _ _ _ _ (by decide)] | rw [extractLsb'_append_high _ _ _ _ (by decide)]
  simp

@[simp] theorem immJOf_encodeJ (rd : Reg) (offset : BitVec 21) (h : evenOffset offset = true) :
    immJOf (encodeJ rd offset) = offset := by
  rw [immJOf, extractLsb'_31_encodeJ, extractLsb'_12_encodeJ, extractLsb'_20_encodeJ, extractLsb'_21_encodeJ, ← extractLsb'_zero_of_evenOffset h,
    extractLsb'_join _ 1 (by decide), extractLsb'_join _ 11 (by decide), extractLsb'_join _ 12 (by decide), extractLsb'_join _ 20 (by decide)]
  exact BitVec.extractLsb'_eq_self

/-! ### The encoding of the fields of a word -/

theorem encodeR_fields (w : Word) : encodeR (funct7Of w) (funct3Of w) (opcodeOf w) (rdOf w) (rs1Of w) (rs2Of w) = w := by
  simp only [encodeR, opcodeOf, rdOf, funct3Of, rs1Of, rs2Of, funct7Of, fieldOfReg_regOfField]
  rw [extractLsb'_join _ 7 (by decide), extractLsb'_join _ 12 (by decide), extractLsb'_join _ 15 (by decide),
    extractLsb'_join _ 20 (by decide), extractLsb'_join _ 25 (by decide)]
  exact BitVec.extractLsb'_eq_self

theorem encodeI_fields (w : Word) : encodeI (funct3Of w) (opcodeOf w) (rdOf w) (rs1Of w) (immIOf w) = w := by
  simp only [encodeI, opcodeOf, rdOf, funct3Of, rs1Of, immIOf, fieldOfReg_regOfField]
  rw [extractLsb'_join _ 7 (by decide), extractLsb'_join _ 12 (by decide), extractLsb'_join _ 15 (by decide),
    extractLsb'_join _ 20 (by decide)]
  exact BitVec.extractLsb'_eq_self

theorem encodeShift_fields (w : Word) (h : opcodeOf w = 0b0010011) :
    encodeShift (funct7Of w) (funct3Of w) (rdOf w) (rs1Of w) (shamtOf w) = w := by
  rw [encodeShift, show 0b0010011#7 = opcodeOf w from h.symm]
  exact encodeR_fields w

theorem encodeU_fields (w : Word) : encodeU (opcodeOf w) (rdOf w) (immUOf w) = w := by
  simp only [encodeU, opcodeOf, rdOf, immUOf, fieldOfReg_regOfField]
  rw [extractLsb'_join _ 7 (by decide), extractLsb'_join _ 12 (by decide)]
  exact BitVec.extractLsb'_eq_self

theorem encodeS_fields (w : Word) (h : opcodeOf w = 0b0100011) :
    encodeS (funct3Of w) (rs2Of w) (rs1Of w) (immSOf w) = w := by
  have h5 : (immSOf w).extractLsb' 5 7 = w.extractLsb' 25 7 := by
    rw [immSOf, extractLsb'_append_high _ _ _ _ (by decide)]; exact BitVec.extractLsb'_eq_self
  have h0 : (immSOf w).extractLsb' 0 5 = w.extractLsb' 7 5 := by
    rw [immSOf, extractLsb'_append_low _ _ _ _ (by decide)]; exact BitVec.extractLsb'_eq_self
  rw [encodeS, h5, h0, show 0b0100011#7 = opcodeOf w from h.symm]
  exact encodeR_fields w

theorem encodeB_fields (w : Word) (h : opcodeOf w = 0b1100011) :
    encodeB (funct3Of w) (rs1Of w) (rs2Of w) (immBOf w) = w := by
  have h12 : (immBOf w).extractLsb' 12 1 = w.extractLsb' 31 1 := by
    unfold immBOf
    repeat first | rw [extractLsb'_append_low _ _ _ _ (by decide)] | rw [extractLsb'_append_high _ _ _ _ (by decide)]
    simp
  have h5 : (immBOf w).extractLsb' 5 6 = w.extractLsb' 25 6 := by
    unfold immBOf
    repeat first | rw [extractLsb'_append_low _ _ _ _ (by decide)] | rw [extractLsb'_append_high _ _ _ _ (by decide)]
    simp
  have h1 : (immBOf w).extractLsb' 1 4 = w.extractLsb' 8 4 := by
    unfold immBOf
    repeat first | rw [extractLsb'_append_low _ _ _ _ (by decide)] | rw [extractLsb'_append_high _ _ _ _ (by decide)]
    simp
  have h11 : (immBOf w).extractLsb' 11 1 = w.extractLsb' 7 1 := by
    unfold immBOf
    repeat first | rw [extractLsb'_append_low _ _ _ _ (by decide)] | rw [extractLsb'_append_high _ _ _ _ (by decide)]
    simp
  rw [encodeB, h12, h5, h1, h11, show 0b1100011#7 = opcodeOf w from h.symm]
  simp only [opcodeOf, funct3Of, rs1Of, rs2Of, fieldOfReg_regOfField]
  rw [extractLsb'_join _ 7 (by decide), extractLsb'_join _ 8 (by decide), extractLsb'_join _ 12 (by decide),
    extractLsb'_join _ 15 (by decide), extractLsb'_join _ 20 (by decide), extractLsb'_join _ 25 (by decide),
    extractLsb'_join _ 31 (by decide)]
  exact BitVec.extractLsb'_eq_self

theorem encodeJ_fields (w : Word) (h : opcodeOf w = 0b1101111) : encodeJ (rdOf w) (immJOf w) = w := by
  have h20 : (immJOf w).extractLsb' 20 1 = w.extractLsb' 31 1 := by
    unfold immJOf
    repeat first | rw [extractLsb'_append_low _ _ _ _ (by decide)] | rw [extractLsb'_append_high _ _ _ _ (by decide)]
    simp
  have h1 : (immJOf w).extractLsb' 1 10 = w.extractLsb' 21 10 := by
    unfold immJOf
    repeat first | rw [extractLsb'_append_low _ _ _ _ (by decide)] | rw [extractLsb'_append_high _ _ _ _ (by decide)]
    simp
  have h11 : (immJOf w).extractLsb' 11 1 = w.extractLsb' 20 1 := by
    unfold immJOf
    repeat first | rw [extractLsb'_append_low _ _ _ _ (by decide)] | rw [extractLsb'_append_high _ _ _ _ (by decide)]
    simp
  have h12 : (immJOf w).extractLsb' 12 8 = w.extractLsb' 12 8 := by
    unfold immJOf
    repeat first | rw [extractLsb'_append_low _ _ _ _ (by decide)] | rw [extractLsb'_append_high _ _ _ _ (by decide)]
    simp
  rw [encodeJ, h20, h1, h11, h12, show 0b1101111#7 = opcodeOf w from h.symm]
  simp only [opcodeOf, rdOf, fieldOfReg_regOfField]
  rw [extractLsb'_join _ 7 (by decide), extractLsb'_join _ 12 (by decide), extractLsb'_join _ 20 (by decide),
    extractLsb'_join _ 21 (by decide), extractLsb'_join _ 31 (by decide)]
  exact BitVec.extractLsb'_eq_self

/-- The offsets the decoder reads are even. -/
@[simp] theorem evenOffset_immBOf (w : Word) : evenOffset (immBOf w) = true := by
  simp only [evenOffset, immBOf, BitVec.getLsbD_append]; rfl

@[simp] theorem evenOffset_immJOf (w : Word) : evenOffset (immJOf w) = true := by
  simp only [evenOffset, immJOf, BitVec.getLsbD_append]; rfl

/-! ### The masks of the opcode table -/

/-- The mask of the rows that the major opcode alone selects. -/
theorem and_opcodeMask (w : Word) : w &&& 0x0000007F#32 = 0#25 ++ opcodeOf w := by
  have hw : w = w.extractLsb' 7 25 ++ opcodeOf w := by
    rw [opcodeOf, extractLsb'_join _ 7 (by decide)]; exact BitVec.extractLsb'_eq_self.symm
  conv_lhs => rw [hw, show 0x0000007F#32 = 0#25 ++ BitVec.allOnes 7 by decide, BitVec.and_append]
  simp only [BitVec.and_allOnes, BitVec.and_zero]

/-- The mask of the rows that the major opcode and funct3 select. -/
theorem and_funct3Mask (w : Word) : w &&& 0x0000707F#32 = 0#17 ++ (funct3Of w ++ (0#5 ++ opcodeOf w)) := by
  have hw : w = w.extractLsb' 15 17 ++ (funct3Of w ++ (w.extractLsb' 7 5 ++ opcodeOf w)) := by
    rw [opcodeOf, funct3Of, extractLsb'_join _ 7 (by decide), extractLsb'_join _ 12 (by decide),
      extractLsb'_join _ 15 (by decide)]
    exact BitVec.extractLsb'_eq_self.symm
  conv_lhs => rw [hw, show 0x0000707F#32 = 0#17 ++ (BitVec.allOnes 3 ++ (0#5 ++ BitVec.allOnes 7)) by decide,
    BitVec.and_append, BitVec.and_append, BitVec.and_append]
  simp only [BitVec.and_allOnes, BitVec.and_zero]

/-- The mask of the rows that the major opcode, funct3 and funct7 select. -/
theorem and_funct7Mask (w : Word) :
    w &&& 0xFE00707F#32 = funct7Of w ++ (0#10 ++ (funct3Of w ++ (0#5 ++ opcodeOf w))) := by
  have hw : w = funct7Of w ++ (w.extractLsb' 15 10 ++ (funct3Of w ++ (w.extractLsb' 7 5 ++ opcodeOf w))) := by
    rw [opcodeOf, funct3Of, funct7Of, extractLsb'_join _ 7 (by decide), extractLsb'_join _ 12 (by decide),
      extractLsb'_join _ 15 (by decide), extractLsb'_join _ 25 (by decide)]
    exact BitVec.extractLsb'_eq_self.symm
  conv_lhs => rw [hw, show 0xFE00707F#32 =
    BitVec.allOnes 7 ++ (0#10 ++ (BitVec.allOnes 3 ++ (0#5 ++ BitVec.allOnes 7))) by decide,
    BitVec.and_append, BitVec.and_append, BitVec.and_append, BitVec.and_append]
  simp only [BitVec.and_allOnes, BitVec.and_zero]

/-- A row with the first mask selects a word by its major opcode. -/
theorem and_opcodeMask_eq_iff (w : Word) (op : BitVec 7) : w &&& 0x0000007F#32 = 0#25 ++ op ↔ opcodeOf w = op := by
  rw [and_opcodeMask]
  refine ⟨fun h => ?_, fun h => by rw [h]⟩
  have h := congrArg (BitVec.extractLsb' 0 7) h
  simpa [extractLsb'_append_low _ _ 0 7 (Nat.le_refl 7)] using h

theorem extractLsb'_funct3 {n : Nat} (a : BitVec n) (f3 : BitVec 3) (op : BitVec 7) :
    (a ++ (f3 ++ (0#5 ++ op))).extractLsb' 12 3 = f3 := by
  rw [extractLsb'_append_low _ _ _ _ (by decide), extractLsb'_append_high _ _ _ _ (by decide)]
  exact BitVec.extractLsb'_eq_self

/-- A row with the second mask selects a word by its major opcode and funct3. -/
theorem and_funct3Mask_eq_iff (w : Word) (f3 : BitVec 3) (op : BitVec 7) :
    w &&& 0x0000707F#32 = 0#17 ++ (f3 ++ (0#5 ++ op)) ↔ funct3Of w = f3 ∧ opcodeOf w = op := by
  rw [and_funct3Mask]
  refine ⟨fun h => ⟨?_, ?_⟩, fun h => by rw [h.1, h.2]⟩
  · have h := congrArg (BitVec.extractLsb' 12 3) h
    rwa [extractLsb'_funct3, extractLsb'_funct3] at h
  · have h := congrArg (BitVec.extractLsb' 0 7) h
    repeat rw [extractLsb'_append_low _ _ 0 7 (by decide)] at h
    simpa using h

/-- A row with the third mask selects a word by its major opcode, funct3 and funct7. -/
theorem and_funct7Mask_eq_iff (w : Word) (f7 : BitVec 7) (f3 : BitVec 3) (op : BitVec 7) :
    w &&& 0xFE00707F#32 = f7 ++ (0#10 ++ (f3 ++ (0#5 ++ op))) ↔
      funct7Of w = f7 ∧ funct3Of w = f3 ∧ opcodeOf w = op := by
  rw [and_funct7Mask]
  refine ⟨fun h => ⟨?_, ?_, ?_⟩, fun h => by rw [h.1, h.2.1, h.2.2]⟩
  · have h := congrArg (BitVec.extractLsb' 25 7) h
    repeat rw [extractLsb'_append_high _ _ 25 7 (by decide)] at h
    simpa using h
  · have h := congrArg (BitVec.extractLsb' 12 3) h
    rw [extractLsb'_append_low _ _ _ _ (by decide)] at h
    conv_rhs at h => rw [extractLsb'_append_low _ _ _ _ (by decide)]
    rwa [extractLsb'_funct3, extractLsb'_funct3] at h
  · have h := congrArg (BitVec.extractLsb' 0 7) h
    repeat rw [extractLsb'_append_low _ _ 0 7 (by decide)] at h
    simpa using h

/-! ### The masked encodings -/

theorem encodeR_masked (f7 : BitVec 7) (f3 : BitVec 3) (op : BitVec 7) (rd rs1 rs2 : Reg) :
    encodeR f7 f3 op rd rs1 rs2 &&& 0xFE00707F#32 = f7 ++ (0#10 ++ (f3 ++ (0#5 ++ op))) := by simp [and_funct7Mask]

theorem encodeShift_masked (f7 : BitVec 7) (f3 : BitVec 3) (rd rs1 : Reg) (shamt : BitVec 5) :
    encodeShift f7 f3 rd rs1 shamt &&& 0xFE00707F#32 = f7 ++ (0#10 ++ (f3 ++ (0#5 ++ 0b0010011#7))) := by
  simp [and_funct7Mask]

theorem encodeI_masked (f3 : BitVec 3) (op : BitVec 7) (rd rs1 : Reg) (imm : BitVec 12) :
    encodeI f3 op rd rs1 imm &&& 0x0000707F#32 = 0#17 ++ (f3 ++ (0#5 ++ op)) := by simp [and_funct3Mask]

theorem encodeS_masked (f3 : BitVec 3) (rs2 rs1 : Reg) (imm : BitVec 12) :
    encodeS f3 rs2 rs1 imm &&& 0x0000707F#32 = 0#17 ++ (f3 ++ (0#5 ++ 0b0100011#7)) := by simp [and_funct3Mask]

theorem encodeB_masked (f3 : BitVec 3) (rs1 rs2 : Reg) (offset : BitVec 13) :
    encodeB f3 rs1 rs2 offset &&& 0x0000707F#32 = 0#17 ++ (f3 ++ (0#5 ++ 0b1100011#7)) := by simp [and_funct3Mask]

theorem encodeU_masked (op : BitVec 7) (rd : Reg) (imm : BitVec 20) :
    encodeU op rd imm &&& 0x0000007F#32 = 0#25 ++ op := by simp [and_opcodeMask]

theorem encodeJ_masked (rd : Reg) (offset : BitVec 21) :
    encodeJ rd offset &&& 0x0000007F#32 = 0#25 ++ 0b1101111#7 := by simp [and_opcodeMask]

end Sys2Proof
end

