-- ==== Sys2Proof/Laws/Memory.lean ====
section
/-! SUPPORT. The laws of memory: reading after writing, the canonical form, and the bytes of a word. -/

namespace Sys2Proof.Machine

/-! ### One byte -/

theorem Memory.get_insert (m : Memory) (a x : Nat) (b : Byte) (h : ∀ c ∈ m, c.1 ≠ a) :
    (Memory.insert a b m).get x = if x = a then b else m.get x := by
  induction m with
  | nil => simp [Memory.insert, Memory.get, eq_comm]
  | cons c m ih =>
    have hc : c.1 ≠ a := h c (by simp)
    have ih := ih fun d hd => h d (by simp [hd])
    obtain ⟨k, v⟩ := c
    simp only at hc
    unfold Memory.insert
    split
    · by_cases hx : x = a
      · subst hx; simp [Memory.get]
      · simp [Memory.get, hx, Ne.symm hx]
    · by_cases hk : k = x
      · subst hk; simp [Memory.get, hc]
      · simp [Memory.get, hk, ih]

theorem Memory.get_filter_ne (m : Memory) (a x : Nat) :
    Memory.get (m.filter fun c => c.1 ≠ a) x = if x = a then 0 else m.get x := by
  induction m with
  | nil => simp [Memory.get]
  | cons c m ih =>
    obtain ⟨k, v⟩ := c
    by_cases hk : k = a
    · subst hk
      by_cases hx : x = k
      · subst hx; simpa using ih
      · simp only [ne_eq, not_true_eq_false, decide_false, Bool.false_eq_true, not_false_eq_true, List.filter_cons_of_neg]
        rw [ih]
        simp [Memory.get, hx, Ne.symm hx]
    · by_cases hx : x = k
      · subst hx; simp [Memory.get, hk]
      · simp [Memory.get, hk, Ne.symm hx]
        simpa using ih

/-- Reading after a write of one byte: the new byte at its address, the old bytes elsewhere. -/
theorem Memory.get_set (m : Memory) (a x : Nat) (b : Byte) :
    (m.set a b).get x = if x = a then b else m.get x := by
  unfold Memory.set
  simp only
  split
  · rename_i hb
    rw [Memory.get_filter_ne]
    simp [hb]
  · rw [Memory.get_insert _ _ _ _ (by simp), Memory.get_filter_ne]
    split <;> rfl

@[simp] theorem Memory.get_set_same (m : Memory) (a : Nat) (b : Byte) : (m.set a b).get a = b := by
  simp [Memory.get_set]

theorem Memory.get_set_ne (m : Memory) {a x : Nat} (b : Byte) (h : x ≠ a) : (m.set a b).get x = m.get x := by
  simp [Memory.get_set, h]

/-! ### The canonical form -/

theorem Memory.mem_insert {a : Nat} {b : Byte} {m : Memory} {c : Host.Cell} (h : c ∈ Memory.insert a b m) :
    c = (a, b) ∨ c ∈ m := by
  induction m with
  | nil => simpa [Memory.insert] using h
  | cons d m ih =>
    obtain ⟨k, v⟩ := d
    unfold Memory.insert at h
    split at h
    · simpa using h
    · rcases List.mem_cons.mp h with h | h
      · exact .inr (by simp [h])
      · exact (ih h).imp id fun h => by simp [h]

theorem Memory.pairwise_insert {a : Nat} {b : Byte} {m : Memory} (hne : ∀ c ∈ m, c.1 ≠ a)
    (h : m.Pairwise fun c d => c.1 < d.1) : (Memory.insert a b m).Pairwise fun c d => c.1 < d.1 := by
  induction m with
  | nil => simp [Memory.insert]
  | cons d m ih =>
    have hd : d.1 ≠ a := hne d (by simp)
    obtain ⟨k, v⟩ := d
    simp only at hd
    obtain ⟨hk, hm⟩ := List.pairwise_cons.mp h
    unfold Memory.insert
    split
    · rename_i hlt
      refine List.pairwise_cons.mpr ⟨fun c hc => ?_, h⟩
      rcases List.mem_cons.mp hc with rfl | hc
      · exact hlt
      · exact Nat.lt_trans hlt (hk c hc)
    · rename_i hlt
      refine List.pairwise_cons.mpr ⟨fun c hc => ?_, ih (fun c hc => hne c (by simp [hc])) hm⟩
      rcases Memory.mem_insert hc with rfl | hc
      · simp only; omega
      · exact hk c hc

/-- A write of one byte keeps the canonical form. -/
theorem Memory.wf_set {m : Memory} (h : m.wf) (a : Nat) (b : Byte) : (m.set a b).wf := by
  have hf : Memory.wf (m.filter fun c => c.1 ≠ a) := ⟨h.1.filter _, fun c hc => h.2 c (List.mem_filter.mp hc).1⟩
  unfold Memory.set
  simp only
  split
  · exact hf
  · rename_i hb
    refine ⟨Memory.pairwise_insert (by simp) hf.1, fun c hc => ?_⟩
    rcases Memory.mem_insert hc with rfl | hc
    · exact hb
    · exact hf.2 c hc

theorem Memory.below_set {m : Memory} {n a : Nat} (h : m.below n) (ha : a < n) (b : Byte) : (m.set a b).below n := by
  intro c hc
  unfold Memory.set at hc
  simp only at hc
  split at hc
  · exact h c (List.mem_filter.mp hc).1
  · rcases Memory.mem_insert hc with rfl | hc
    · exact ha
    · exact h c (List.mem_filter.mp hc).1

/-- Every write keeps the canonical form. -/
theorem Memory.wf_writeBytes (bytes : List Byte) : ∀ {m : Memory} (_ : m.wf) (a : Nat), (m.writeBytes a bytes).wf := by
  induction bytes with
  | nil => exact fun h _ => h
  | cons b bs ih => exact fun h a => ih (Memory.wf_set h a b) (a + 1)

/-- A write of bytes that end below `n` keeps memory below `n`. -/
theorem Memory.below_writeBytes {n : Nat} (bytes : List Byte) :
    ∀ {m : Memory} (_ : m.below n) {a : Nat} (_ : a + bytes.length ≤ n), (m.writeBytes a bytes).below n := by
  induction bytes with
  | nil => exact fun h _ _ => h
  | cons b bs ih =>
    intro m h a ha
    simp only [List.length_cons] at ha
    exact ih (Memory.below_set h (by omega) b) (by omega)

/-! ### Many bytes -/

/-- A write leaves the bytes outside it as they were. -/
theorem Memory.get_writeBytes_outside (bytes : List Byte) :
    ∀ (m : Memory) (a x : Nat), x < a ∨ a + bytes.length ≤ x → (m.writeBytes a bytes).get x = m.get x := by
  induction bytes with
  | nil => intros; rfl
  | cons b bs ih =>
    intro m a x hx
    simp only [List.length_cons] at hx
    unfold Memory.writeBytes
    rw [ih _ _ _ (by omega), Memory.get_set_ne _ _ (by omega)]

/-- A write puts each byte in its place. -/
theorem Memory.get_writeBytes_inside (bytes : List Byte) :
    ∀ (m : Memory) (a i : Nat) (h : i < bytes.length), (m.writeBytes a bytes).get (a + i) = bytes[i] := by
  induction bytes with
  | nil => intro _ _ _ h; simp at h
  | cons b bs ih =>
    intro m a i h
    unfold Memory.writeBytes
    cases i with
    | zero => rw [Memory.get_writeBytes_outside _ _ _ _ (by omega)]; simp
    | succ i =>
      have := ih (m.set a b) (a + 1) i (by simpa using h)
      rw [show a + (i + 1) = a + 1 + i by omega, this]
      simp

@[simp] theorem Memory.length_readBytes (m : Memory) (a n : Nat) : (m.readBytes a n).length = n := by
  induction n generalizing a with
  | zero => rfl
  | succ n ih => simp [Memory.readBytes, ih]

theorem Memory.getElem_readBytes (m : Memory) (n : Nat) :
    ∀ (a i : Nat) (h : i < (m.readBytes a n).length), (m.readBytes a n)[i] = m.get (a + i) := by
  induction n with
  | zero => intro a i h; simp at h
  | succ n ih =>
    intro a i h
    cases i with
    | zero => simp [Memory.readBytes]
    | succ i =>
      simp only [Memory.readBytes, List.getElem_cons_succ]
      rw [ih]
      congr 1
      omega

/-- Bytes written are read back. -/
theorem Memory.readBytes_writeBytes (m : Memory) (a : Nat) (bytes : List Byte) :
    (m.writeBytes a bytes).readBytes a bytes.length = bytes := by
  apply List.ext_getElem
  · simp
  · intro i h1 h2
    rw [Memory.getElem_readBytes, Memory.get_writeBytes_inside _ _ _ _ h2]

/-! ### The bytes of a word -/

@[simp] theorem length_bytesLE (n : Nat) (v : Word) : (bytesLE n v).length = n := by
  induction n generalizing v with
  | zero => rfl
  | succ n ih => simp [bytesLE, ih]

/-- Byte `i` of a word is its bits 8i to 8i+7. -/
theorem getElem_bytesLE (n : Nat) :
    ∀ (v : Word) (i : Nat) (h : i < (bytesLE n v).length), (bytesLE n v)[i] = v.extractLsb' (8 * i) 8 := by
  induction n with
  | zero => intro v i h; simp at h
  | succ n ih =>
    intro v i h
    cases i with
    | zero =>
      ext j hj
      simp only [bytesLE, List.getElem_cons_zero, BitVec.getElem_setWidth, BitVec.getElem_extractLsb']
      congr 1
      omega
    | succ i =>
      simp only [bytesLE, List.getElem_cons_succ]
      rw [ih]
      ext j hj
      simp only [BitVec.getElem_extractLsb', BitVec.getLsbD_ushiftRight]
      congr 1
      omega

/-- Bit `j` of the value of bytes is bit `j % 8` of byte `j / 8`. -/
theorem getLsbD_ofBytesLE (bytes : List Byte) :
    ∀ j, j < 32 → (ofBytesLE bytes).getLsbD j = (bytes.getD (j / 8) 0).getLsbD (j % 8) := by
  induction bytes with
  | nil => intro j _; simp [ofBytesLE]
  | cons b bs ih =>
    intro j hj
    simp only [ofBytesLE, BitVec.getLsbD_or, BitVec.getLsbD_setWidth, BitVec.getLsbD_shiftLeft, hj, decide_true,
      Bool.true_and]
    by_cases h : j < 8
    · rw [Nat.div_eq_of_lt h, Nat.mod_eq_of_lt h]
      simp [h]
    · rw [ih (j - 8) (by omega), show j / 8 = (j - 8) / 8 + 1 by omega, show j % 8 = (j - 8) % 8 by omega]
      simp [h, BitVec.getLsbD_of_ge b j (by omega)]

/-- The four bytes of a word have its value. -/
@[simp] theorem ofBytesLE_bytesLE_four (v : Word) : ofBytesLE (bytesLE 4 v) = v := by
  ext j hj
  rw [← BitVec.getLsbD_eq_getElem, getLsbD_ofBytesLE _ _ hj, List.getD_eq_getElem _ _ (by simp; omega), getElem_bytesLE,
    BitVec.getLsbD_extractLsb', ← BitVec.getLsbD_eq_getElem]
  have h8 : j % 8 < 8 := by omega
  have hj8 : 8 * (j / 8) + j % 8 = j := by omega
  simp [h8, hj8]

/-- Byte `i` of the value of at most four bytes is byte `i`. -/
theorem extractLsb'_ofBytesLE (bytes : List Byte) (i : Nat) (hi : i < 4) :
    (ofBytesLE bytes).extractLsb' (8 * i) 8 = bytes.getD i 0 := by
  ext j hj
  rw [BitVec.getElem_extractLsb', getLsbD_ofBytesLE _ _ (by omega), ← BitVec.getLsbD_eq_getElem]
  congr 2 <;> omega

/-! ### The access primitives -/

theorem State.memValid_iff (s : State) (a : Word) (width : Nat) :
    s.memValid a width = true ↔ a.toNat + (width - 1) < s.cfg.memSize := by
  simp [State.memValid]

/-- What `MemRead` answers (20_memory.md R81). -/
theorem State.memRead_cases (s : State) (kind : AccessKind) (a : Word) (width : Nat) :
    (a.toNat + (width - 1) < s.cfg.memSize ∧
      s.memRead kind a width = .ok (ofBytesLE (s.mem.readBytes a.toNat width))) ∨
    (¬ a.toNat + (width - 1) < s.cfg.memSize ∧ s.memRead kind a width = .error ⟨kind, a⟩) := by
  by_cases h : a.toNat + (width - 1) < s.cfg.memSize
  · exact .inl ⟨h, by simp [State.memRead, State.memValid, h]⟩
  · exact .inr ⟨h, by simp [State.memRead, State.memValid, h]⟩

/-- What `MemWrite` answers (20_memory.md R82). -/
theorem State.memWrite_cases (s : State) (a : Word) (width : Nat) (v : Word) :
    (a.toNat + (width - 1) < s.cfg.memSize ∧
      s.memWrite a width v = .ok { s with mem := s.mem.writeBytes a.toNat (bytesLE width v) }) ∨
    (¬ a.toNat + (width - 1) < s.cfg.memSize ∧ s.memWrite a width v = .error ⟨.store, a⟩) := by
  by_cases h : a.toNat + (width - 1) < s.cfg.memSize
  · exact .inl ⟨h, by simp [State.memWrite, State.memValid, h]⟩
  · exact .inr ⟨h, by simp [State.memWrite, State.memValid, h]⟩

/-- What the view accessor reads (20_memory.md R90). -/
theorem State.viewRead_cases (s : State) (base length : Nat) :
    (base + length ≤ s.cfg.memSize ∧ s.viewRead base length = some (s.mem.readBytes base length)) ∨
    (¬ base + length ≤ s.cfg.memSize ∧ s.viewRead base length = none) := by
  by_cases h : base + length ≤ s.cfg.memSize
  · exact .inl ⟨h, by simp [State.viewRead, State.viewValid, h]⟩
  · exact .inr ⟨h, by simp [State.viewRead, State.viewValid, h]⟩

/-- What the view accessor writes (20_memory.md R90). -/
theorem State.viewWrite_cases (s : State) (base : Nat) (bytes : List Byte) :
    (base + bytes.length ≤ s.cfg.memSize ∧
      s.viewWrite base bytes = some { s with mem := s.mem.writeBytes base bytes }) ∨
    (¬ base + bytes.length ≤ s.cfg.memSize ∧ s.viewWrite base bytes = none) := by
  by_cases h : base + bytes.length ≤ s.cfg.memSize
  · exact .inl ⟨h, by simp [State.viewWrite, State.viewValid, h]⟩
  · exact .inr ⟨h, by simp [State.viewWrite, State.viewValid, h]⟩

end Sys2Proof.Machine
end

