-- ==== Sys2Proof/Laws/State.lean ====
section
/-! SUPPORT. What each update of the state leaves in each field: one lemma per field per update, for the simp set; and the
reading of registers and CSRs after a write. -/

namespace Sys2Proof.Machine

/-! ### forceX0 -/

@[simp] theorem State.forceX0_cfg (s : State) : (s.forceX0).cfg = s.cfg := rfl
@[simp] theorem State.forceX0_regs (s : State) : (s.forceX0).regs = s.regs.set 0 0 := rfl
@[simp] theorem State.forceX0_pc (s : State) : (s.forceX0).pc = s.pc := rfl
@[simp] theorem State.forceX0_csrs (s : State) : (s.forceX0).csrs = s.csrs := rfl
@[simp] theorem State.forceX0_mem (s : State) : (s.forceX0).mem = s.mem := rfl
@[simp] theorem State.forceX0_priv (s : State) : (s.forceX0).priv = s.priv := rfl
@[simp] theorem State.forceX0_mode (s : State) : (s.forceX0).mode = s.mode := rfl
@[simp] theorem State.forceX0_entry (s : State) : (s.forceX0).entry = s.entry := rfl
@[simp] theorem State.forceX0_outcome (s : State) : (s.forceX0).outcome = s.outcome := rfl
@[simp] theorem State.forceX0_rx (s : State) : (s.forceX0).rx = s.rx := rfl
@[simp] theorem State.forceX0_inbuf (s : State) : (s.forceX0).inbuf = s.inbuf := rfl
@[simp] theorem State.forceX0_outbuf (s : State) : (s.forceX0).outbuf = s.outbuf := rfl
@[simp] theorem State.forceX0_stopSignal (s : State) : (s.forceX0).stopSignal = s.stopSignal := rfl
@[simp] theorem State.forceX0_chanIn (s : State) : (s.forceX0).chanIn = s.chanIn := rfl
@[simp] theorem State.forceX0_hostIn (s : State) : (s.forceX0).hostIn = s.hostIn := rfl
@[simp] theorem State.forceX0_hostOut (s : State) : (s.forceX0).hostOut = s.hostOut := rfl
@[simp] theorem State.forceX0_chanOut (s : State) : (s.forceX0).chanOut = s.chanOut := rfl

/-! ### retire -/

@[simp] theorem State.retire_cfg (s : State) (next : Word) : (s.retire next).cfg = s.cfg := rfl
@[simp] theorem State.retire_regs (s : State) (next : Word) : (s.retire next).regs = s.regs := rfl
@[simp] theorem State.retire_pc (s : State) (next : Word) : (s.retire next).pc = next := rfl
@[simp] theorem State.retire_csrs (s : State) (next : Word) : (s.retire next).csrs = s.csrs := rfl
@[simp] theorem State.retire_mem (s : State) (next : Word) : (s.retire next).mem = s.mem := rfl
@[simp] theorem State.retire_priv (s : State) (next : Word) : (s.retire next).priv = s.priv := rfl
@[simp] theorem State.retire_mode (s : State) (next : Word) : (s.retire next).mode = s.mode := rfl
@[simp] theorem State.retire_entry (s : State) (next : Word) : (s.retire next).entry = s.entry := rfl
@[simp] theorem State.retire_outcome (s : State) (next : Word) : (s.retire next).outcome = .continued := rfl
@[simp] theorem State.retire_rx (s : State) (next : Word) : (s.retire next).rx = s.rx := rfl
@[simp] theorem State.retire_inbuf (s : State) (next : Word) : (s.retire next).inbuf = s.inbuf := rfl
@[simp] theorem State.retire_outbuf (s : State) (next : Word) : (s.retire next).outbuf = s.outbuf := rfl
@[simp] theorem State.retire_stopSignal (s : State) (next : Word) : (s.retire next).stopSignal = s.stopSignal := rfl
@[simp] theorem State.retire_chanIn (s : State) (next : Word) : (s.retire next).chanIn = s.chanIn := rfl
@[simp] theorem State.retire_hostIn (s : State) (next : Word) : (s.retire next).hostIn = s.hostIn := rfl
@[simp] theorem State.retire_hostOut (s : State) (next : Word) : (s.retire next).hostOut = s.hostOut := rfl
@[simp] theorem State.retire_chanOut (s : State) (next : Word) : (s.retire next).chanOut = s.chanOut := rfl

/-! ### takeTrap -/

@[simp] theorem State.takeTrap_cfg (s : State) (e : Exception) : (s.takeTrap e).cfg = s.cfg := rfl
@[simp] theorem State.takeTrap_regs (s : State) (e : Exception) : (s.takeTrap e).regs = s.regs := rfl
@[simp] theorem State.takeTrap_pc (s : State) (e : Exception) : (s.takeTrap e).pc = s.csrs.mtvec := rfl
@[simp] theorem State.takeTrap_mem (s : State) (e : Exception) : (s.takeTrap e).mem = s.mem := rfl
@[simp] theorem State.takeTrap_priv (s : State) (e : Exception) : (s.takeTrap e).priv = s.priv := rfl
@[simp] theorem State.takeTrap_mode (s : State) (e : Exception) : (s.takeTrap e).mode = s.mode := rfl
@[simp] theorem State.takeTrap_entry (s : State) (e : Exception) : (s.takeTrap e).entry = s.entry := rfl
@[simp] theorem State.takeTrap_outcome (s : State) (e : Exception) : (s.takeTrap e).outcome = .trapped := rfl
@[simp] theorem State.takeTrap_rx (s : State) (e : Exception) : (s.takeTrap e).rx = s.rx := rfl
@[simp] theorem State.takeTrap_inbuf (s : State) (e : Exception) : (s.takeTrap e).inbuf = s.inbuf := rfl
@[simp] theorem State.takeTrap_outbuf (s : State) (e : Exception) : (s.takeTrap e).outbuf = s.outbuf := rfl
@[simp] theorem State.takeTrap_stopSignal (s : State) (e : Exception) : (s.takeTrap e).stopSignal = s.stopSignal := rfl
@[simp] theorem State.takeTrap_chanIn (s : State) (e : Exception) : (s.takeTrap e).chanIn = s.chanIn := rfl
@[simp] theorem State.takeTrap_hostIn (s : State) (e : Exception) : (s.takeTrap e).hostIn = s.hostIn := rfl
@[simp] theorem State.takeTrap_hostOut (s : State) (e : Exception) : (s.takeTrap e).hostOut = s.hostOut := rfl
@[simp] theorem State.takeTrap_chanOut (s : State) (e : Exception) : (s.takeTrap e).chanOut = s.chanOut := rfl

@[simp] theorem State.takeTrap_mstatus (s : State) (e : Exception) : (s.takeTrap e).csrs.mstatus = setMie s.csrs.mstatus false := rfl
@[simp] theorem State.takeTrap_mie (s : State) (e : Exception) : (s.takeTrap e).csrs.mie = s.csrs.mie := rfl
@[simp] theorem State.takeTrap_mtvec (s : State) (e : Exception) : (s.takeTrap e).csrs.mtvec = s.csrs.mtvec := rfl
@[simp] theorem State.takeTrap_mscratch (s : State) (e : Exception) : (s.takeTrap e).csrs.mscratch = s.csrs.mscratch := rfl
@[simp] theorem State.takeTrap_mepc (s : State) (e : Exception) : (s.takeTrap e).csrs.mepc = s.pc := rfl
@[simp] theorem State.takeTrap_mcause (s : State) (e : Exception) : (s.takeTrap e).csrs.mcause = exceptionCause s.cfg e := rfl
@[simp] theorem State.takeTrap_mtval (s : State) (e : Exception) : (s.takeTrap e).csrs.mtval = exceptionTval e := rfl
@[simp] theorem State.takeTrap_mip (s : State) (e : Exception) : (s.takeTrap e).csrs.mip = s.csrs.mip := rfl

/-! ### returnFromTrap -/

@[simp] theorem State.returnFromTrap_cfg (s : State) : (s.returnFromTrap).cfg = s.cfg := rfl
@[simp] theorem State.returnFromTrap_regs (s : State) : (s.returnFromTrap).regs = s.regs := rfl
@[simp] theorem State.returnFromTrap_pc (s : State) : (s.returnFromTrap).pc = s.csrs.mepc := rfl
@[simp] theorem State.returnFromTrap_mem (s : State) : (s.returnFromTrap).mem = s.mem := rfl
@[simp] theorem State.returnFromTrap_priv (s : State) : (s.returnFromTrap).priv = s.priv := rfl
@[simp] theorem State.returnFromTrap_mode (s : State) : (s.returnFromTrap).mode = s.mode := rfl
@[simp] theorem State.returnFromTrap_entry (s : State) : (s.returnFromTrap).entry = s.entry := rfl
@[simp] theorem State.returnFromTrap_outcome (s : State) : (s.returnFromTrap).outcome = .continued := rfl
@[simp] theorem State.returnFromTrap_rx (s : State) : (s.returnFromTrap).rx = s.rx := rfl
@[simp] theorem State.returnFromTrap_inbuf (s : State) : (s.returnFromTrap).inbuf = s.inbuf := rfl
@[simp] theorem State.returnFromTrap_outbuf (s : State) : (s.returnFromTrap).outbuf = s.outbuf := rfl
@[simp] theorem State.returnFromTrap_stopSignal (s : State) : (s.returnFromTrap).stopSignal = s.stopSignal := rfl
@[simp] theorem State.returnFromTrap_chanIn (s : State) : (s.returnFromTrap).chanIn = s.chanIn := rfl
@[simp] theorem State.returnFromTrap_hostIn (s : State) : (s.returnFromTrap).hostIn = s.hostIn := rfl
@[simp] theorem State.returnFromTrap_hostOut (s : State) : (s.returnFromTrap).hostOut = s.hostOut := rfl
@[simp] theorem State.returnFromTrap_chanOut (s : State) : (s.returnFromTrap).chanOut = s.chanOut := rfl

@[simp] theorem State.returnFromTrap_mstatus (s : State) : s.returnFromTrap.csrs.mstatus = mstatusReturn s.csrs.mstatus := rfl
@[simp] theorem State.returnFromTrap_mie (s : State) : s.returnFromTrap.csrs.mie = s.csrs.mie := rfl
@[simp] theorem State.returnFromTrap_mtvec (s : State) : s.returnFromTrap.csrs.mtvec = s.csrs.mtvec := rfl
@[simp] theorem State.returnFromTrap_mscratch (s : State) : s.returnFromTrap.csrs.mscratch = s.csrs.mscratch := rfl
@[simp] theorem State.returnFromTrap_mepc (s : State) : s.returnFromTrap.csrs.mepc = s.csrs.mepc := rfl
@[simp] theorem State.returnFromTrap_mcause (s : State) : s.returnFromTrap.csrs.mcause = s.csrs.mcause := rfl
@[simp] theorem State.returnFromTrap_mtval (s : State) : s.returnFromTrap.csrs.mtval = s.csrs.mtval := rfl
@[simp] theorem State.returnFromTrap_mip (s : State) : s.returnFromTrap.csrs.mip = s.csrs.mip := rfl

/-! ### send -/

@[simp] theorem State.send_cfg (s : State) (bytes : List Byte) : (s.send bytes).cfg = s.cfg := rfl
@[simp] theorem State.send_regs (s : State) (bytes : List Byte) : (s.send bytes).regs = s.regs := rfl
@[simp] theorem State.send_pc (s : State) (bytes : List Byte) : (s.send bytes).pc = s.pc := rfl
@[simp] theorem State.send_csrs (s : State) (bytes : List Byte) : (s.send bytes).csrs = s.csrs := rfl
@[simp] theorem State.send_mem (s : State) (bytes : List Byte) : (s.send bytes).mem = s.mem := rfl
@[simp] theorem State.send_priv (s : State) (bytes : List Byte) : (s.send bytes).priv = s.priv := rfl
@[simp] theorem State.send_mode (s : State) (bytes : List Byte) : (s.send bytes).mode = s.mode := rfl
@[simp] theorem State.send_entry (s : State) (bytes : List Byte) : (s.send bytes).entry = s.entry := rfl
@[simp] theorem State.send_outcome (s : State) (bytes : List Byte) : (s.send bytes).outcome = s.outcome := rfl
@[simp] theorem State.send_rx (s : State) (bytes : List Byte) : (s.send bytes).rx = s.rx := rfl
@[simp] theorem State.send_inbuf (s : State) (bytes : List Byte) : (s.send bytes).inbuf = s.inbuf := rfl
@[simp] theorem State.send_outbuf (s : State) (bytes : List Byte) : (s.send bytes).outbuf = s.outbuf := rfl
@[simp] theorem State.send_stopSignal (s : State) (bytes : List Byte) : (s.send bytes).stopSignal = s.stopSignal := rfl
@[simp] theorem State.send_chanIn (s : State) (bytes : List Byte) : (s.send bytes).chanIn = s.chanIn := rfl
@[simp] theorem State.send_hostIn (s : State) (bytes : List Byte) : (s.send bytes).hostIn = s.hostIn := rfl
@[simp] theorem State.send_hostOut (s : State) (bytes : List Byte) : (s.send bytes).hostOut = s.hostOut := rfl
@[simp] theorem State.send_chanOut (s : State) (bytes : List Byte) : (s.send bytes).chanOut = s.chanOut ++ bytes := rfl

/-! ### sendPacket -/

@[simp] theorem State.sendPacket_cfg (s : State) (p : List Byte) : (s.sendPacket p).cfg = s.cfg := rfl
@[simp] theorem State.sendPacket_regs (s : State) (p : List Byte) : (s.sendPacket p).regs = s.regs := rfl
@[simp] theorem State.sendPacket_pc (s : State) (p : List Byte) : (s.sendPacket p).pc = s.pc := rfl
@[simp] theorem State.sendPacket_csrs (s : State) (p : List Byte) : (s.sendPacket p).csrs = s.csrs := rfl
@[simp] theorem State.sendPacket_mem (s : State) (p : List Byte) : (s.sendPacket p).mem = s.mem := rfl
@[simp] theorem State.sendPacket_priv (s : State) (p : List Byte) : (s.sendPacket p).priv = s.priv := rfl
@[simp] theorem State.sendPacket_mode (s : State) (p : List Byte) : (s.sendPacket p).mode = s.mode := rfl
@[simp] theorem State.sendPacket_entry (s : State) (p : List Byte) : (s.sendPacket p).entry = s.entry := rfl
@[simp] theorem State.sendPacket_outcome (s : State) (p : List Byte) : (s.sendPacket p).outcome = s.outcome := rfl
@[simp] theorem State.sendPacket_rx (s : State) (p : List Byte) : (s.sendPacket p).rx = s.rx := rfl
@[simp] theorem State.sendPacket_inbuf (s : State) (p : List Byte) : (s.sendPacket p).inbuf = s.inbuf := rfl
@[simp] theorem State.sendPacket_outbuf (s : State) (p : List Byte) : (s.sendPacket p).outbuf = p.take s.cfg.pktOutCap := rfl
@[simp] theorem State.sendPacket_stopSignal (s : State) (p : List Byte) : (s.sendPacket p).stopSignal = s.stopSignal := rfl
@[simp] theorem State.sendPacket_chanIn (s : State) (p : List Byte) : (s.sendPacket p).chanIn = s.chanIn := rfl
@[simp] theorem State.sendPacket_hostIn (s : State) (p : List Byte) : (s.sendPacket p).hostIn = s.hostIn := rfl
@[simp] theorem State.sendPacket_hostOut (s : State) (p : List Byte) : (s.sendPacket p).hostOut = s.hostOut := rfl
@[simp] theorem State.sendPacket_chanOut (s : State) (p : List Byte) : (s.sendPacket p).chanOut = s.chanOut ++ framed (p.take s.cfg.pktOutCap) := rfl

/-! ### enterSession -/

@[simp] theorem State.enterSession_cfg (s : State) (why : Entry) : (s.enterSession why).cfg = s.cfg := rfl
@[simp] theorem State.enterSession_regs (s : State) (why : Entry) : (s.enterSession why).regs = s.regs := rfl
@[simp] theorem State.enterSession_pc (s : State) (why : Entry) : (s.enterSession why).pc = s.pc := rfl
@[simp] theorem State.enterSession_csrs (s : State) (why : Entry) : (s.enterSession why).csrs = s.csrs := rfl
@[simp] theorem State.enterSession_mem (s : State) (why : Entry) : (s.enterSession why).mem = s.mem := rfl
@[simp] theorem State.enterSession_priv (s : State) (why : Entry) : (s.enterSession why).priv = s.priv := rfl
@[simp] theorem State.enterSession_mode (s : State) (why : Entry) : (s.enterSession why).mode = .debug := rfl
@[simp] theorem State.enterSession_entry (s : State) (why : Entry) : (s.enterSession why).entry = why := rfl
@[simp] theorem State.enterSession_outcome (s : State) (why : Entry) : (s.enterSession why).outcome = s.outcome := rfl
@[simp] theorem State.enterSession_rx (s : State) (why : Entry) : (s.enterSession why).rx = .waitStart := rfl
@[simp] theorem State.enterSession_inbuf (s : State) (why : Entry) : (s.enterSession why).inbuf = s.inbuf := rfl
@[simp] theorem State.enterSession_stopSignal (s : State) (why : Entry) : (s.enterSession why).stopSignal = s.stopSignal := rfl
@[simp] theorem State.enterSession_chanIn (s : State) (why : Entry) : (s.enterSession why).chanIn = s.chanIn := rfl
@[simp] theorem State.enterSession_hostIn (s : State) (why : Entry) : (s.enterSession why).hostIn = s.hostIn := rfl
@[simp] theorem State.enterSession_hostOut (s : State) (why : Entry) : (s.enterSession why).hostOut = s.hostOut := rfl

/-! ### payloadByte -/

@[simp] theorem State.payloadByte_cfg (s : State) (sum b : Byte) : (s.payloadByte sum b).cfg = s.cfg := rfl
@[simp] theorem State.payloadByte_regs (s : State) (sum b : Byte) : (s.payloadByte sum b).regs = s.regs := rfl
@[simp] theorem State.payloadByte_pc (s : State) (sum b : Byte) : (s.payloadByte sum b).pc = s.pc := rfl
@[simp] theorem State.payloadByte_csrs (s : State) (sum b : Byte) : (s.payloadByte sum b).csrs = s.csrs := rfl
@[simp] theorem State.payloadByte_mem (s : State) (sum b : Byte) : (s.payloadByte sum b).mem = s.mem := rfl
@[simp] theorem State.payloadByte_priv (s : State) (sum b : Byte) : (s.payloadByte sum b).priv = s.priv := rfl
@[simp] theorem State.payloadByte_mode (s : State) (sum b : Byte) : (s.payloadByte sum b).mode = s.mode := rfl
@[simp] theorem State.payloadByte_entry (s : State) (sum b : Byte) : (s.payloadByte sum b).entry = s.entry := rfl
@[simp] theorem State.payloadByte_outcome (s : State) (sum b : Byte) : (s.payloadByte sum b).outcome = s.outcome := rfl
@[simp] theorem State.payloadByte_rx (s : State) (sum b : Byte) : (s.payloadByte sum b).rx = .payload (sum + b) := rfl
@[simp] theorem State.payloadByte_inbuf (s : State) (sum b : Byte) : (s.payloadByte sum b).inbuf = if s.inbuf.length < s.cfg.pktInCap then s.inbuf ++ [b] else s.inbuf := rfl
@[simp] theorem State.payloadByte_outbuf (s : State) (sum b : Byte) : (s.payloadByte sum b).outbuf = s.outbuf := rfl
@[simp] theorem State.payloadByte_stopSignal (s : State) (sum b : Byte) : (s.payloadByte sum b).stopSignal = s.stopSignal := rfl
@[simp] theorem State.payloadByte_chanIn (s : State) (sum b : Byte) : (s.payloadByte sum b).chanIn = s.chanIn := rfl
@[simp] theorem State.payloadByte_hostIn (s : State) (sum b : Byte) : (s.payloadByte sum b).hostIn = s.hostIn := rfl
@[simp] theorem State.payloadByte_hostOut (s : State) (sum b : Byte) : (s.payloadByte sum b).hostOut = s.hostOut := rfl
@[simp] theorem State.payloadByte_chanOut (s : State) (sum b : Byte) : (s.payloadByte sum b).chanOut = s.chanOut := rfl

/-! ### writeReg -/

@[simp] theorem State.writeReg_cfg (s : State) (r : Reg) (v : Word) : (s.writeReg r v).cfg = s.cfg := by
  unfold State.writeReg; split <;> rfl
@[simp] theorem State.writeReg_pc (s : State) (r : Reg) (v : Word) : (s.writeReg r v).pc = s.pc := by
  unfold State.writeReg; split <;> rfl
@[simp] theorem State.writeReg_csrs (s : State) (r : Reg) (v : Word) : (s.writeReg r v).csrs = s.csrs := by
  unfold State.writeReg; split <;> rfl
@[simp] theorem State.writeReg_mem (s : State) (r : Reg) (v : Word) : (s.writeReg r v).mem = s.mem := by
  unfold State.writeReg; split <;> rfl
@[simp] theorem State.writeReg_priv (s : State) (r : Reg) (v : Word) : (s.writeReg r v).priv = s.priv := by
  unfold State.writeReg; split <;> rfl
@[simp] theorem State.writeReg_mode (s : State) (r : Reg) (v : Word) : (s.writeReg r v).mode = s.mode := by
  unfold State.writeReg; split <;> rfl
@[simp] theorem State.writeReg_entry (s : State) (r : Reg) (v : Word) : (s.writeReg r v).entry = s.entry := by
  unfold State.writeReg; split <;> rfl
@[simp] theorem State.writeReg_outcome (s : State) (r : Reg) (v : Word) : (s.writeReg r v).outcome = s.outcome := by
  unfold State.writeReg; split <;> rfl
@[simp] theorem State.writeReg_rx (s : State) (r : Reg) (v : Word) : (s.writeReg r v).rx = s.rx := by
  unfold State.writeReg; split <;> rfl
@[simp] theorem State.writeReg_inbuf (s : State) (r : Reg) (v : Word) : (s.writeReg r v).inbuf = s.inbuf := by
  unfold State.writeReg; split <;> rfl
@[simp] theorem State.writeReg_outbuf (s : State) (r : Reg) (v : Word) : (s.writeReg r v).outbuf = s.outbuf := by
  unfold State.writeReg; split <;> rfl
@[simp] theorem State.writeReg_stopSignal (s : State) (r : Reg) (v : Word) : (s.writeReg r v).stopSignal = s.stopSignal := by
  unfold State.writeReg; split <;> rfl
@[simp] theorem State.writeReg_chanIn (s : State) (r : Reg) (v : Word) : (s.writeReg r v).chanIn = s.chanIn := by
  unfold State.writeReg; split <;> rfl
@[simp] theorem State.writeReg_hostIn (s : State) (r : Reg) (v : Word) : (s.writeReg r v).hostIn = s.hostIn := by
  unfold State.writeReg; split <;> rfl
@[simp] theorem State.writeReg_hostOut (s : State) (r : Reg) (v : Word) : (s.writeReg r v).hostOut = s.hostOut := by
  unfold State.writeReg; split <;> rfl
@[simp] theorem State.writeReg_chanOut (s : State) (r : Reg) (v : Word) : (s.writeReg r v).chanOut = s.chanOut := by
  unfold State.writeReg; split <;> rfl

@[simp] theorem State.writeReg_zero (s : State) (v : Word) : s.writeReg 0 v = s := rfl

/-! ### writeNext -/

@[simp] theorem State.writeNext_cfg (s : State) (r : Reg) (v : Word) : (s.writeNext r v).cfg = s.cfg := by
  simp [State.writeNext]
@[simp] theorem State.writeNext_pc (s : State) (r : Reg) (v : Word) : (s.writeNext r v).pc = s.pc + 4 := by
  simp [State.writeNext]
@[simp] theorem State.writeNext_csrs (s : State) (r : Reg) (v : Word) : (s.writeNext r v).csrs = s.csrs := by
  simp [State.writeNext]
@[simp] theorem State.writeNext_mem (s : State) (r : Reg) (v : Word) : (s.writeNext r v).mem = s.mem := by
  simp [State.writeNext]
@[simp] theorem State.writeNext_priv (s : State) (r : Reg) (v : Word) : (s.writeNext r v).priv = s.priv := by
  simp [State.writeNext]
@[simp] theorem State.writeNext_mode (s : State) (r : Reg) (v : Word) : (s.writeNext r v).mode = s.mode := by
  simp [State.writeNext]
@[simp] theorem State.writeNext_entry (s : State) (r : Reg) (v : Word) : (s.writeNext r v).entry = s.entry := by
  simp [State.writeNext]
@[simp] theorem State.writeNext_outcome (s : State) (r : Reg) (v : Word) : (s.writeNext r v).outcome = .continued := by
  simp [State.writeNext]
@[simp] theorem State.writeNext_rx (s : State) (r : Reg) (v : Word) : (s.writeNext r v).rx = s.rx := by
  simp [State.writeNext]
@[simp] theorem State.writeNext_inbuf (s : State) (r : Reg) (v : Word) : (s.writeNext r v).inbuf = s.inbuf := by
  simp [State.writeNext]
@[simp] theorem State.writeNext_outbuf (s : State) (r : Reg) (v : Word) : (s.writeNext r v).outbuf = s.outbuf := by
  simp [State.writeNext]
@[simp] theorem State.writeNext_stopSignal (s : State) (r : Reg) (v : Word) : (s.writeNext r v).stopSignal = s.stopSignal := by
  simp [State.writeNext]
@[simp] theorem State.writeNext_chanIn (s : State) (r : Reg) (v : Word) : (s.writeNext r v).chanIn = s.chanIn := by
  simp [State.writeNext]
@[simp] theorem State.writeNext_hostIn (s : State) (r : Reg) (v : Word) : (s.writeNext r v).hostIn = s.hostIn := by
  simp [State.writeNext]
@[simp] theorem State.writeNext_hostOut (s : State) (r : Reg) (v : Word) : (s.writeNext r v).hostOut = s.hostOut := by
  simp [State.writeNext]
@[simp] theorem State.writeNext_chanOut (s : State) (r : Reg) (v : Word) : (s.writeNext r v).chanOut = s.chanOut := by
  simp [State.writeNext]

/-! ### poll -/

@[simp] theorem State.poll_fst (s : State) : s.poll.1 = s.chanIn.head?.join := by
  unfold State.poll; cases s.chanIn <;> rfl

@[simp] theorem State.poll_snd (s : State) : s.poll.2 = { s with chanIn := s.chanIn.tail } := by
  cases s with
  | mk _ _ _ _ _ _ _ _ _ _ _ _ _ chanIn => cases chanIn <;> rfl

/-! ### Reading registers -/

@[simp] theorem State.readReg_zero (s : State) : s.readReg 0 = 0 := rfl

/-- Reads depend on the register file alone. -/
theorem State.readReg_congr {s t : State} (h : t.regs = s.regs) (r : Reg) : t.readReg r = s.readReg r := by
  simp [State.readReg, h]

/-- Reading the register written gives the value, but x0 reads 0. -/
theorem State.readReg_writeReg_same (s : State) (r : Reg) (v : Word) :
    (s.writeReg r v).readReg r = if r = 0 then 0 else v := by
  by_cases h : r = 0 <;> simp [State.writeReg, State.readReg, h]

/-- Reading another register gives what it held. -/
theorem State.readReg_writeReg_ne (s : State) {r r' : Reg} (v : Word) (h : r' ≠ r) :
    (s.writeReg r v).readReg r' = s.readReg r' := by
  have h' : r.val ≠ r'.val := fun e => h (Fin.ext e.symm)
  unfold State.writeReg
  split
  · rfl
  · simp [State.readReg, Vector.getElem_set_ne, h']

@[simp] theorem State.readReg_retire (s : State) (next : Word) (r : Reg) : (s.retire next).readReg r = s.readReg r := rfl

@[simp] theorem State.readReg_writeNext_same (s : State) (r : Reg) (v : Word) :
    (s.writeNext r v).readReg r = if r = 0 then 0 else v := by
  simp [State.writeNext, State.readReg_writeReg_same]

theorem State.readReg_writeNext_ne (s : State) {r r' : Reg} (v : Word) (h : r' ≠ r) :
    (s.writeNext r v).readReg r' = s.readReg r' := by
  simp [State.writeNext, State.readReg_writeReg_ne s v h]

/-- Forcing slot 0 to zero changes no read. -/
@[simp] theorem State.readReg_forceX0 (s : State) (r : Reg) : s.forceX0.readReg r = s.readReg r := by
  unfold State.readReg
  split
  · rfl
  · rename_i h
    have h' : 0 ≠ r.val := fun e => h (Fin.ext e.symm)
    simp [State.forceX0, Vector.getElem_set_ne, h']

/-- Where slot 0 is already zero, forcing it changes nothing. -/
theorem State.forceX0_eq_self {s : State} (h : s.regs[0] = 0) : s.forceX0 = s := by
  have e : s.regs.set 0 0 = s.regs := by
    rw [← h]; exact Vector.set_getElem_self ..
  unfold State.forceX0
  rw [e]

/-! ### Reading CSRs -/

@[simp] theorem readCsr_updateCsr_same (c : Csrs) (v : Word) (r : Csr) : readCsr (updateCsr c v r) r = v := by
  cases r <;> rfl

theorem readCsr_updateCsr_ne (c : Csrs) (v : Word) {r r' : Csr} (h : r' ≠ r) :
    readCsr (updateCsr c v r) r' = readCsr c r' := by
  cases r <;> cases r' <;> first | rfl | exact absurd rfl h

/-- A masked write, bit by bit. -/
theorem getLsbD_maskedWrite (mask old v : Word) (j : Nat) :
    (maskedWrite mask old v).getLsbD j = if mask.getLsbD j then v.getLsbD j else old.getLsbD j := by
  simp only [maskedWrite, BitVec.getLsbD_or, BitVec.getLsbD_and, BitVec.getLsbD_not]
  by_cases hj : j < 32
  · cases mask.getLsbD j <;> simp [hj]
  · simp [BitVec.getLsbD_of_ge _ _ (Nat.le_of_not_lt hj)]

/-- A field written through a mask, bit by bit: inside the mask the new bits, elsewhere the old ones. -/
theorem getLsbD_writeField (m mask new : Word) (h : new &&& ~~~mask = 0) (j : Nat) :
    ((m &&& ~~~mask) ||| new).getLsbD j = if mask.getLsbD j then new.getLsbD j else m.getLsbD j := by
  by_cases hj : j < 32
  · have hb := congrArg (fun v => v.getLsbD j) h
    simp only [BitVec.getLsbD_and, BitVec.getLsbD_not, hj, decide_true, Bool.true_and] at hb
    simp only [BitVec.getLsbD_or, BitVec.getLsbD_and, BitVec.getLsbD_not, hj, decide_true, Bool.true_and]
    revert hb
    cases mask.getLsbD j <;> cases new.getLsbD j <;> cases m.getLsbD j <;> simp
  · simp [BitVec.getLsbD_of_ge _ _ (Nat.le_of_not_lt hj)]

/-- A one-bit mask, bit by bit. -/
theorem getLsbD_oneBit (k : Nat) (hk : k < 32) (j : Nat) : (BitVec.twoPow 32 k).getLsbD j = decide (j = k) := by
  rw [BitVec.getLsbD_twoPow]
  by_cases h : j = k
  · simp [h, hk]
  · simp [h, Ne.symm h]

/-- Writing MIE, bit by bit. -/
theorem getLsbD_setMie (m : Word) (b : Bool) (j : Nat) :
    (setMie m b).getLsbD j = if j = 3 then b else m.getLsbD j := by
  have h8 : (0x8#32) = BitVec.twoPow 32 3 := by decide
  unfold setMie
  rw [getLsbD_writeField _ _ _ (by cases b <;> decide), h8, getLsbD_oneBit 3 (by decide)]
  by_cases h : j = 3
  · subst h; cases b <;> simp
  · simp [h]

/-- Writing MPIE, bit by bit. -/
theorem getLsbD_setMpie (m : Word) (b : Bool) (j : Nat) :
    (setMpie m b).getLsbD j = if j = 7 then b else m.getLsbD j := by
  have h80 : (0x80#32) = BitVec.twoPow 32 7 := by decide
  unfold setMpie
  rw [getLsbD_writeField _ _ _ (by cases b <;> decide), h80, getLsbD_oneBit 7 (by decide)]
  by_cases h : j = 7
  · subst h; cases b <;> simp
  · simp [h]

/-- Clearing MPP, bit by bit. -/
theorem getLsbD_setMpp_zero (m : Word) (j : Nat) :
    (setMpp m 0b00).getLsbD j = if j = 11 ∨ j = 12 then false else m.getLsbD j := by
  have h1800 : (0x1800#32) = BitVec.twoPow 32 11 ||| BitVec.twoPow 32 12 := by decide
  have h0 : ((0 : BitVec 2).setWidth 32 <<< 11 : Word) = 0 := by decide
  unfold setMpp
  rw [getLsbD_writeField _ _ _ (by decide), h0, h1800, BitVec.getLsbD_or, getLsbD_oneBit 11 (by decide),
    getLsbD_oneBit 12 (by decide)]
  by_cases h : j = 11 ∨ j = 12
  · rcases h with h | h <;> simp [h]
  · simp [not_or.mp h]

/-- What MRET makes of mstatus, bit by bit (46_system.md R316). -/
theorem getLsbD_mstatusReturn (m : Word) (j : Nat) :
    (mstatusReturn m).getLsbD j =
      if j = 3 then m.getLsbD 7 else if j = 7 then true
      else if j = 11 ∨ j = 12 then false else m.getLsbD j := by
  unfold mstatusReturn mstatusMpie
  rw [getLsbD_setMpp_zero, getLsbD_setMpie, getLsbD_setMie]
  by_cases h3 : j = 3
  · simp [h3]
  · by_cases h7 : j = 7
    · simp [h7]
    · simp [h3, h7]

end Sys2Proof.Machine
end

