-- ==== Sys2Proof/Laws/Exec.lean ====
section
/-! SUPPORT. What an instruction can do, said once: every meaning has one of six effects. Proofs about all instructions go by
cases on the effect, not by unfolding the meanings. -/

namespace Sys2Proof.Machine

/-! ### The shared operations -/

/-- What a load does: it writes the destination, or takes the load fault. -/
theorem State.load_cases (s : State) (rd rs1 : Reg) (imm : BitVec 12) (width : Nat) (widen : Word → Word) :
    ((s.effectiveAddress rs1 imm).toNat + (width - 1) < s.cfg.memSize ∧
      s.load rd rs1 imm width widen =
        s.writeNext rd (widen (ofBytesLE (s.mem.readBytes (s.effectiveAddress rs1 imm).toNat width)))) ∨
    (¬ (s.effectiveAddress rs1 imm).toNat + (width - 1) < s.cfg.memSize ∧
      s.load rd rs1 imm width widen = s.takeTrap (.access ⟨.load, s.effectiveAddress rs1 imm⟩)) := by
  rcases s.memRead_cases .load (s.effectiveAddress rs1 imm) width with ⟨hv, h⟩ | ⟨hv, h⟩
  · exact .inl ⟨hv, by simp [State.load, h]⟩
  · exact .inr ⟨hv, by simp [State.load, h]⟩

/-- What a store does: it writes memory, or takes the store fault. -/
theorem State.store_cases (s : State) (rs2 rs1 : Reg) (imm : BitVec 12) (width : Nat) :
    ((s.effectiveAddress rs1 imm).toNat + (width - 1) < s.cfg.memSize ∧
      s.store rs2 rs1 imm width =
        { s with
          mem := s.mem.writeBytes (s.effectiveAddress rs1 imm).toNat (bytesLE width (s.readReg rs2))
          }.retire (s.pc + 4)) ∨
    (¬ (s.effectiveAddress rs1 imm).toNat + (width - 1) < s.cfg.memSize ∧
      s.store rs2 rs1 imm width = s.takeTrap (.access ⟨.store, s.effectiveAddress rs1 imm⟩)) := by
  rcases s.memWrite_cases (s.effectiveAddress rs1 imm) width (s.readReg rs2) with ⟨hv, h⟩ | ⟨hv, h⟩
  · exact .inl ⟨hv, by simp [State.store, h]⟩
  · exact .inr ⟨hv, by simp [State.store, h]⟩

/-- No number of the catalogue is in the read-only range. -/
theorem csrReadOnly_of_csrOfNumber {n : BitVec 12} {c : Csr} (h : csrOfNumber n = some c) : csrReadOnly n = false := by
  unfold csrOfNumber at h
  split at h <;> first | rfl | cases h

/-- What `CsrWrite` answers (10_state.md R45). -/
theorem State.csrWrite_cases (s : State) (n : BitVec 12) (v : Word) :
    (∃ c, csrOfNumber n = some c ∧ csrReadOnly n = false ∧
      s.csrWrite n v =
        some { s with csrs := updateCsr s.csrs (maskedWrite (readCsr s.cfg.writeMask c) (readCsr s.csrs c) v) c }) ∨
    (csrOfNumber n = none ∧ s.csrWrite n v = none) := by
  cases h : csrOfNumber n with
  | none => exact .inr ⟨rfl, by simp [State.csrWrite, h]⟩
  | some c =>
    have hr := csrReadOnly_of_csrOfNumber h
    exact .inl ⟨c, rfl, hr, by simp [State.csrWrite, h, hr]⟩

/-- What the CSR instructions share: on a catalogued number the masked write and the old value in x[rd], on another the
illegal-instruction exception. -/
theorem State.csrReadModifyWrite_cases (s : State) (rd : Reg) (n : BitVec 12) (rs1 : Reg) (inst : Word)
    (op : Word → Word → Word) :
    (∃ c, csrOfNumber n = some c ∧
      s.csrReadModifyWrite rd n rs1 inst op =
        ({ s with
            csrs := updateCsr s.csrs (maskedWrite (readCsr s.cfg.writeMask c) (readCsr s.csrs c)
              (op (readCsr s.csrs c &&& readCsr s.cfg.readMask c) (s.readReg rs1))) c
            }.writeReg rd (readCsr s.csrs c &&& readCsr s.cfg.readMask c)).retire (s.pc + 4)) ∨
    (csrOfNumber n = none ∧ s.csrReadModifyWrite rd n rs1 inst op = s.takeTrap (.illegalInstruction inst)) := by
  cases h : csrOfNumber n with
  | none => exact .inr ⟨rfl, by simp [State.csrReadModifyWrite, State.csrRead, h]⟩
  | some c =>
    refine .inl ⟨c, rfl, ?_⟩
    have hr := csrReadOnly_of_csrOfNumber h
    simp [State.csrReadModifyWrite, State.csrRead, State.csrWrite, h, hr]

/-! ### The effects -/

/-- The effects of an instruction, with the forms that have each. -/
inductive Effect (i : Instr) (s : State) : State → Prop
  /-- One register is written and the pc moves: arithmetic, jumps, and loads that succeed. -/
  | writes (rd : Reg) (v next : Word) (hd : i.destination = some rd) (hs : storesAt s i = none)
      (hc : i.csrNumber = none) (hm : i ≠ .mret) : Effect i s ((s.writeReg rd v).retire next)
  /-- Only the pc moves: branches and WFI. -/
  | moves (next : Word) (hd : i.destination = none) (hs : storesAt s i = none) (hc : i.csrNumber = none)
      (hm : i ≠ .mret) : Effect i s (s.retire next)
  /-- A store that succeeds. -/
  | stores (ea : Word) (width : Nat) (v : Word) (hd : i.destination = none) (hs : storesAt s i = some (ea, width))
      (hc : i.csrNumber = none) (hm : i ≠ .mret) (hw : 1 ≤ width) (hv : ea.toNat + (width - 1) < s.cfg.memSize) :
      Effect i s ({ s with mem := s.mem.writeBytes ea.toNat (bytesLE width v) }.retire (s.pc + 4))
  /-- A CSR instruction on a catalogued number. -/
  | csr (rd : Reg) (n : BitVec 12) (c : Csr) (v : Word) (hd : i.destination = some rd) (hs : storesAt s i = none)
      (hc : i.csrNumber = some n) (hn : csrOfNumber n = some c) :
      Effect i s (({ s with csrs := updateCsr s.csrs (maskedWrite (readCsr s.cfg.writeMask c) (readCsr s.csrs c) v) c
        }.writeReg rd (readCsr s.csrs c &&& readCsr s.cfg.readMask c)).retire (s.pc + 4))
  /-- MRET. -/
  | returns (hm : i = .mret) : Effect i s s.returnFromTrap
  /-- An exception of the instruction itself: it is never a fetch fault. -/
  | traps (e : Exception) (he : ∀ a, e ≠ .access ⟨.fetch, a⟩) (hm : i ≠ .mret) : Effect i s (s.takeTrap e)

theorem Effect.of_load {i : Instr} {s : State} {rd rs1 : Reg} {imm : BitVec 12} (width : Nat) (widen : Word → Word)
    (hd : i.destination = some rd) (hs : storesAt s i = none) (hc : i.csrNumber = none) (hm : i ≠ .mret) :
    Effect i s (s.load rd rs1 imm width widen) := by
  rcases s.load_cases rd rs1 imm width widen with ⟨_, h⟩ | ⟨_, h⟩ <;> rw [h]
  · exact .writes _ _ _ hd hs hc hm
  · exact .traps _ (by simp) hm

theorem Effect.of_store {i : Instr} {s : State} {rs2 rs1 : Reg} {imm : BitVec 12} (width : Nat) (hd : i.destination = none)
    (hs : storesAt s i = some (s.effectiveAddress rs1 imm, width)) (hc : i.csrNumber = none) (hm : i ≠ .mret)
    (hw : 1 ≤ width) : Effect i s (s.store rs2 rs1 imm width) := by
  rcases s.store_cases rs2 rs1 imm width with ⟨hv, h⟩ | ⟨_, h⟩ <;> rw [h]
  · exact .stores _ _ _ hd hs hc hm hw hv
  · exact .traps _ (by simp) hm

theorem Effect.of_csr {i : Instr} {s : State} {rd rs1 : Reg} {n : BitVec 12} (inst : Word) (op : Word → Word → Word)
    (hd : i.destination = some rd) (hs : storesAt s i = none) (hc : i.csrNumber = some n) (hm : i ≠ .mret) :
    Effect i s (s.csrReadModifyWrite rd n rs1 inst op) := by
  rcases s.csrReadModifyWrite_cases rd n rs1 inst op with ⟨c, hn, h⟩ | ⟨_, h⟩ <;> rw [h]
  · exact .csr _ _ _ _ hd hs hc hn
  · exact .traps _ (by simp) hm

/-- Every instruction answers a next state. -/
theorem exec_next (i : Instr) (s : State) : ∃ t, exec i s = .next t := by
  cases i <;> exact ⟨_, rfl⟩

/-- What an instruction can do. -/
theorem exec_effect {i : Instr} {s t : State} (h : exec i s = .next t) : Effect i s t := by
  cases i <;> cases h
  case lb => exact .of_load _ _ rfl rfl rfl (by simp)
  case lh => exact .of_load _ _ rfl rfl rfl (by simp)
  case lw => exact .of_load _ _ rfl rfl rfl (by simp)
  case lbu => exact .of_load _ _ rfl rfl rfl (by simp)
  case lhu => exact .of_load _ _ rfl rfl rfl (by simp)
  case sb => exact .of_store _ rfl rfl rfl (by simp) (by decide)
  case sh => exact .of_store _ rfl rfl rfl (by simp) (by decide)
  case sw => exact .of_store _ rfl rfl rfl (by simp) (by decide)
  case csrrw => exact .of_csr _ _ rfl rfl rfl (by simp)
  case csrrs => exact .of_csr _ _ rfl rfl rfl (by simp)
  case csrrc => exact .of_csr _ _ rfl rfl rfl (by simp)
  case beq => exact .moves _ rfl rfl rfl (by simp)
  case bne => exact .moves _ rfl rfl rfl (by simp)
  case blt => exact .moves _ rfl rfl rfl (by simp)
  case bge => exact .moves _ rfl rfl rfl (by simp)
  case bltu => exact .moves _ rfl rfl rfl (by simp)
  case bgeu => exact .moves _ rfl rfl rfl (by simp)
  case wfi => exact .moves _ rfl rfl rfl (by simp)
  case mret => exact .returns rfl
  case ecall => exact .traps _ (by simp) (by simp)
  case ebreak => exact .traps _ (by simp) (by simp)
  all_goals exact .writes _ _ _ rfl rfl rfl (by simp)

/-! ### The specifications of Safety.lean -/

theorem SameSession.refl (s : State) : SameSession s s := by simp [SameSession]

/-- Writing a register and falling through. -/
theorem writesAndFallsThrough_writeNext (s : State) (rd : Reg) (v : Word) :
    WritesAndFallsThrough rd v s (s.writeNext rd v) :=
  ⟨by simp, by simp, by simp, fun _ hr => s.readReg_writeNext_ne v hr, by simp, by simp, by simp [SameSession]⟩

/-- Moving the pc. -/
theorem onlyMovesPc_retire (s : State) (next : Word) : OnlyMovesPc next s (s.retire next) := by
  simp [OnlyMovesPc, SameSession]

/-- Trap entry (60_exceptions.md R410). -/
theorem entersTrap_takeTrap (s : State) (e : Exception) :
    EntersTrap (exceptionCause s.cfg e) (exceptionTval e) s (s.takeTrap e) := by
  refine ⟨rfl, rfl, rfl, fun j => ?_, rfl, rfl, rfl, rfl, rfl, rfl, rfl, rfl, SameSession.refl s⟩
  rw [State.takeTrap_mstatus, getLsbD_setMie]
  by_cases h : j = 3 <;> simp [h]

/-- A meaning that writes a register and falls through. -/
theorem gives_of_exec {i : Instr} {rd : Reg} {v : State → Word} (h : ∀ s, exec i s = .next (s.writeNext rd (v s))) :
    Gives i rd v :=
  fun s => ⟨_, h s, writesAndFallsThrough_writeNext s rd (v s)⟩

/-- A meaning that moves the pc. -/
theorem goesTo_of_exec {i : Instr} {next : State → Word} (h : ∀ s, exec i s = .next (s.retire (next s))) : GoesTo i next :=
  fun s => ⟨_, h s, onlyMovesPc_retire s (next s)⟩

end Sys2Proof.Machine
end

