-- ==== Sys2Proof/Laws/HostHook.lean ====
section
/-! SUPPORT. What the host-capability hook can do (spec/92_eei_decisions.md D24, spec/20_memory.md R90). -/

namespace Sys2Proof.Machine

/-! ### Views -/

/-- Views are written if all are inside memory, and then in order. -/
theorem State.viewWrites_eq (views : List (Nat × List Byte)) : ∀ s : State,
    s.viewWrites views =
      if ∀ v ∈ views, v.1 + v.2.length ≤ s.cfg.memSize then
        some { s with mem := views.foldl (fun m v => m.writeBytes v.1 v.2) s.mem } else none := by
  induction views with
  | nil => intro s; simp [State.viewWrites]
  | cons v views ih =>
    intro s
    rcases s.viewWrite_cases v.1 v.2 with ⟨hv, hw⟩ | ⟨hv, hw⟩
    · simp only [State.viewWrites, hw, ih, List.mem_cons, forall_eq_or_imp, hv, true_and, List.foldl_cons]
    · simp [State.viewWrites, hw, hv]

/-- Writing views keeps the canonical form. -/
theorem Memory.wf_writeViews (views : List (Nat × List Byte)) : ∀ {m : Memory} (_ : m.wf),
    (views.foldl (fun m v => m.writeBytes v.1 v.2) m).wf := by
  induction views with
  | nil => exact id
  | cons v views ih => exact fun h => ih (Memory.wf_writeBytes v.2 h v.1)

/-- Writing views that end below `n` keeps memory below `n`. -/
theorem Memory.below_writeViews {n : Nat} (views : List (Nat × List Byte)) (hv : ∀ v ∈ views, v.1 + v.2.length ≤ n) :
    ∀ {m : Memory} (_ : m.below n), (views.foldl (fun m v => m.writeBytes v.1 v.2) m).below n := by
  induction views with
  | nil => exact id
  | cons v views ih =>
    exact fun h => ih (fun w hw => hv w (by simp [hw])) (Memory.below_writeBytes v.2 h (hv v (by simp)))

/-- Writing views leaves the bytes outside all of them as they were. -/
theorem Memory.get_writeViews_outside (views : List (Nat × List Byte)) {a : Nat}
    (ha : ∀ v ∈ views, Outside v.1 v.2.length a) :
    ∀ m : Memory, (views.foldl (fun m v => m.writeBytes v.1 v.2) m).get a = m.get a := by
  induction views with
  | nil => exact fun _ => rfl
  | cons v views ih =>
    intro m
    rw [List.foldl_cons, ih fun w hw => ha w (by simp [hw])]
    exact Memory.get_writeBytes_outside v.2 m v.1 a (ha v (by simp))

/-- The views that can be read are those inside memory, and these bytes are read. -/
theorem State.viewReads_eq (s : State) (views : List (Nat × Nat)) :
    s.viewReads views =
      if ∀ v ∈ views, v.1 + v.2 ≤ s.cfg.memSize then some (views.map fun v => s.mem.readBytes v.1 v.2) else none := by
  induction views with
  | nil => simp [State.viewReads]
  | cons v views ih =>
    rcases s.viewRead_cases v.1 v.2 with ⟨hv, hr⟩ | ⟨hv, hr⟩
    · by_cases h : ∀ v ∈ views, v.1 + v.2 ≤ s.cfg.memSize
      · have h' : ∀ w ∈ v :: views, w.1 + w.2 ≤ s.cfg.memSize := by simpa [hv] using h
        simp only [State.viewReads, hr, ih, if_pos h, if_pos h', List.map_cons]
      · have h' : ¬ ∀ w ∈ v :: views, w.1 + w.2 ≤ s.cfg.memSize := by simpa [hv] using h
        simp only [State.viewReads, hr, ih, if_neg h, if_neg h']
    · simp [State.viewReads, hr, hv]

/-! ### A served call -/

/-- What a served call does: with all its views in memory, memory is written and a0 takes the result; else only a0 takes the
failure's result. The call is recorded and the pc moves on. -/
theorem State.serveHook_cases (s : State) (a : HostAnswer) :
    (((∀ v ∈ a.reads, v.1 + v.2 ≤ s.cfg.memSize) ∧ (∀ v ∈ a.writes, v.1 + v.2.length ≤ s.cfg.memSize)) ∧
      s.serveHook a =
        { s with
          mem := a.writes.foldl (fun (m : Memory) (v : Nat × List Byte) => m.writeBytes v.1 v.2) s.mem }.hookReturns
          (s.hookCall (a.reads.map fun (v : Nat × Nat) => s.mem.readBytes v.1 v.2)) a.result) ∨
    (¬ ((∀ v ∈ a.reads, v.1 + v.2 ≤ s.cfg.memSize) ∧ (∀ v ∈ a.writes, v.1 + v.2.length ≤ s.cfg.memSize)) ∧
      s.serveHook a = s.hookReturns (s.hookCall []) a.failure) := by
  by_cases hr : ∀ v ∈ a.reads, v.1 + v.2 ≤ s.cfg.memSize
  · by_cases hw : ∀ v ∈ a.writes, v.1 + v.2.length ≤ s.cfg.memSize
    · exact .inl ⟨⟨hr, hw⟩, by
        simp only [State.serveHook, State.viewReads_eq, State.viewWrites_eq, if_pos hr, if_pos hw]⟩
    · exact .inr ⟨fun h => hw h.2, by
        simp only [State.serveHook, State.viewReads_eq, State.viewWrites_eq, if_pos hr, if_neg hw]⟩
  · exact .inr ⟨fun h => hr h.1, by simp only [State.serveHook, State.viewReads_eq, if_neg hr]⟩

/-! ### The step of an instruction -/

/-- The hook is not asked about another instruction than ECALL, nor where HOSTCALL is none, nor once it has no more to say. -/
theorem State.askHook_not (s : State) {i : Instr} (h : i ≠ .ecall ∨ s.cfg.hostCall = false ∨ s.hostIn = []) :
    s.askHook i = (none, s) := by
  unfold State.askHook
  rcases h with h | h | h
  · simp [h]
  · simp [h]
  · simp [h]

/-- What running an instruction does: its meaning, from a state with perhaps a declined call taken from the host's answers, or
an ECALL served by the host. -/
theorem runInstruction_cases (i : Instr) (s : State) :
    (∃ answers, (answers = s.hostIn ∨ i = .ecall ∧ s.cfg.hostCall = true ∧ s.hostIn = none :: answers) ∧
      runInstruction i s = exec i { s with hostIn := answers }) ∨
    (∃ a answers, i = .ecall ∧ s.cfg.hostCall = true ∧ s.hostIn = some a :: answers ∧
      runInstruction i s = .next ({ s with hostIn := answers }.serveHook a)) := by
  by_cases h : i ≠ .ecall ∨ s.cfg.hostCall = false ∨ s.hostIn = []
  · exact .inl ⟨s.hostIn, .inl rfl, by simp [runInstruction, s.askHook_not h]⟩
  · simp only [ne_eq, not_or, Decidable.not_not, Bool.not_eq_false] at h
    obtain ⟨rfl, hc, hn⟩ := h
    match hh : s.hostIn with
    | [] => exact absurd hh hn
    | none :: answers => exact .inl ⟨answers, .inr ⟨rfl, hc, rfl⟩, by simp [runInstruction, State.askHook, hc, hh]⟩
    | some a :: answers => exact .inr ⟨a, answers, rfl, hc, rfl, by simp [runInstruction, State.askHook, hc, hh]⟩

/-- Running an instruction always answers a next state. -/
theorem runInstruction_next (i : Instr) (s : State) : ∃ t, runInstruction i s = .next t := by
  rcases runInstruction_cases i s with ⟨_, _, h⟩ | ⟨_, _, _, _, _, h⟩ <;> rw [h]
  · exact exec_next _ _
  · exact ⟨_, rfl⟩

end Sys2Proof.Machine
end

