-- ==== Sys2Proof/Laws/PerInstr.lean ====
section
/-! SUPPORT. Per-instruction families (LAWS.json): the word of every instruction is selected by its own row of the opcode
table. -/

/-- The row that spec/opcode_table.json gives an instruction selects its encoding (30_encoding.md, opening). -/
def Sys2Proof.Laws.TableMatch.Statement (i : Sys2Proof.Instr) : Prop := i.row.selects (Sys2Proof.encode i)

namespace Sys2Proof.Laws.TableMatch

/-- Whatever the operands, the masked encoding is the row's pattern. -/
theorem statement_iff (i : Instr) : Statement i ↔ encode i &&& i.row.mask = i.row.pattern := Iff.rfl

theorem lui (rd : Reg) (imm : BitVec 20) : Statement (.lui rd imm) :=
  encodeU_masked _ _ _

theorem auipc (rd : Reg) (imm : BitVec 20) : Statement (.auipc rd imm) :=
  encodeU_masked _ _ _

theorem jal (rd : Reg) (offset : BitVec 21) : Statement (.jal rd offset) :=
  encodeJ_masked _ _

theorem jalr (rd rs1 : Reg) (imm : BitVec 12) : Statement (.jalr rd rs1 imm) :=
  encodeI_masked _ _ _ _ _

theorem beq (rs1 rs2 : Reg) (offset : BitVec 13) : Statement (.beq rs1 rs2 offset) :=
  encodeB_masked _ _ _ _

theorem bne (rs1 rs2 : Reg) (offset : BitVec 13) : Statement (.bne rs1 rs2 offset) :=
  encodeB_masked _ _ _ _

theorem blt (rs1 rs2 : Reg) (offset : BitVec 13) : Statement (.blt rs1 rs2 offset) :=
  encodeB_masked _ _ _ _

theorem bge (rs1 rs2 : Reg) (offset : BitVec 13) : Statement (.bge rs1 rs2 offset) :=
  encodeB_masked _ _ _ _

theorem bltu (rs1 rs2 : Reg) (offset : BitVec 13) : Statement (.bltu rs1 rs2 offset) :=
  encodeB_masked _ _ _ _

theorem bgeu (rs1 rs2 : Reg) (offset : BitVec 13) : Statement (.bgeu rs1 rs2 offset) :=
  encodeB_masked _ _ _ _

theorem lb (rd rs1 : Reg) (imm : BitVec 12) : Statement (.lb rd rs1 imm) :=
  encodeI_masked _ _ _ _ _

theorem lh (rd rs1 : Reg) (imm : BitVec 12) : Statement (.lh rd rs1 imm) :=
  encodeI_masked _ _ _ _ _

theorem lw (rd rs1 : Reg) (imm : BitVec 12) : Statement (.lw rd rs1 imm) :=
  encodeI_masked _ _ _ _ _

theorem lbu (rd rs1 : Reg) (imm : BitVec 12) : Statement (.lbu rd rs1 imm) :=
  encodeI_masked _ _ _ _ _

theorem lhu (rd rs1 : Reg) (imm : BitVec 12) : Statement (.lhu rd rs1 imm) :=
  encodeI_masked _ _ _ _ _

theorem sb (rs2 rs1 : Reg) (imm : BitVec 12) : Statement (.sb rs2 rs1 imm) :=
  encodeS_masked _ _ _ _

theorem sh (rs2 rs1 : Reg) (imm : BitVec 12) : Statement (.sh rs2 rs1 imm) :=
  encodeS_masked _ _ _ _

theorem sw (rs2 rs1 : Reg) (imm : BitVec 12) : Statement (.sw rs2 rs1 imm) :=
  encodeS_masked _ _ _ _

theorem addi (rd rs1 : Reg) (imm : BitVec 12) : Statement (.addi rd rs1 imm) :=
  encodeI_masked _ _ _ _ _

theorem slti (rd rs1 : Reg) (imm : BitVec 12) : Statement (.slti rd rs1 imm) :=
  encodeI_masked _ _ _ _ _

theorem sltiu (rd rs1 : Reg) (imm : BitVec 12) : Statement (.sltiu rd rs1 imm) :=
  encodeI_masked _ _ _ _ _

theorem xori (rd rs1 : Reg) (imm : BitVec 12) : Statement (.xori rd rs1 imm) :=
  encodeI_masked _ _ _ _ _

theorem ori (rd rs1 : Reg) (imm : BitVec 12) : Statement (.ori rd rs1 imm) :=
  encodeI_masked _ _ _ _ _

theorem andi (rd rs1 : Reg) (imm : BitVec 12) : Statement (.andi rd rs1 imm) :=
  encodeI_masked _ _ _ _ _

theorem slli (rd rs1 : Reg) (shamt : BitVec 5) : Statement (.slli rd rs1 shamt) :=
  encodeShift_masked _ _ _ _ _

theorem srli (rd rs1 : Reg) (shamt : BitVec 5) : Statement (.srli rd rs1 shamt) :=
  encodeShift_masked _ _ _ _ _

theorem srai (rd rs1 : Reg) (shamt : BitVec 5) : Statement (.srai rd rs1 shamt) :=
  encodeShift_masked _ _ _ _ _

theorem add (rd rs1 rs2 : Reg) : Statement (.add rd rs1 rs2) :=
  encodeR_masked _ _ _ _ _ _

theorem sub (rd rs1 rs2 : Reg) : Statement (.sub rd rs1 rs2) :=
  encodeR_masked _ _ _ _ _ _

theorem sll (rd rs1 rs2 : Reg) : Statement (.sll rd rs1 rs2) :=
  encodeR_masked _ _ _ _ _ _

theorem slt (rd rs1 rs2 : Reg) : Statement (.slt rd rs1 rs2) :=
  encodeR_masked _ _ _ _ _ _

theorem sltu (rd rs1 rs2 : Reg) : Statement (.sltu rd rs1 rs2) :=
  encodeR_masked _ _ _ _ _ _

theorem xor (rd rs1 rs2 : Reg) : Statement (.xor rd rs1 rs2) :=
  encodeR_masked _ _ _ _ _ _

theorem srl (rd rs1 rs2 : Reg) : Statement (.srl rd rs1 rs2) :=
  encodeR_masked _ _ _ _ _ _

theorem sra (rd rs1 rs2 : Reg) : Statement (.sra rd rs1 rs2) :=
  encodeR_masked _ _ _ _ _ _

theorem or (rd rs1 rs2 : Reg) : Statement (.or rd rs1 rs2) :=
  encodeR_masked _ _ _ _ _ _

theorem and (rd rs1 rs2 : Reg) : Statement (.and rd rs1 rs2) :=
  encodeR_masked _ _ _ _ _ _

theorem mul (rd rs1 rs2 : Reg) : Statement (.mul rd rs1 rs2) :=
  encodeR_masked _ _ _ _ _ _

theorem mulh (rd rs1 rs2 : Reg) : Statement (.mulh rd rs1 rs2) :=
  encodeR_masked _ _ _ _ _ _

theorem mulhsu (rd rs1 rs2 : Reg) : Statement (.mulhsu rd rs1 rs2) :=
  encodeR_masked _ _ _ _ _ _

theorem mulhu (rd rs1 rs2 : Reg) : Statement (.mulhu rd rs1 rs2) :=
  encodeR_masked _ _ _ _ _ _

theorem div (rd rs1 rs2 : Reg) : Statement (.div rd rs1 rs2) :=
  encodeR_masked _ _ _ _ _ _

theorem divu (rd rs1 rs2 : Reg) : Statement (.divu rd rs1 rs2) :=
  encodeR_masked _ _ _ _ _ _

theorem rem (rd rs1 rs2 : Reg) : Statement (.rem rd rs1 rs2) :=
  encodeR_masked _ _ _ _ _ _

theorem remu (rd rs1 rs2 : Reg) : Statement (.remu rd rs1 rs2) :=
  encodeR_masked _ _ _ _ _ _

theorem ecall : Statement (.ecall) := by
  rw [statement_iff]; decide

theorem ebreak : Statement (.ebreak) := by
  rw [statement_iff]; decide

theorem mret : Statement (.mret) := by
  rw [statement_iff]; decide

theorem wfi : Statement (.wfi) := by
  rw [statement_iff]; decide

theorem csrrw (rd : Reg) (csr : BitVec 12) (rs1 : Reg) : Statement (.csrrw rd csr rs1) :=
  encodeI_masked _ _ _ _ _

theorem csrrs (rd : Reg) (csr : BitVec 12) (rs1 : Reg) : Statement (.csrrs rd csr rs1) :=
  encodeI_masked _ _ _ _ _

theorem csrrc (rd : Reg) (csr : BitVec 12) (rs1 : Reg) : Statement (.csrrc rd csr rs1) :=
  encodeI_masked _ _ _ _ _

end Sys2Proof.Laws.TableMatch
end

