-- ==== Sys2Proof/Laws/Stub.lean ====
section
/-! SUPPORT. What a command, a received byte and a step of a session can change (60_exceptions.md sections 12 to 14). -/

namespace Sys2Proof.Machine

/-! ### Commands -/

/-- What a command does: the session ends, a reply is sent, or memory is written and a reply is sent. -/
theorem State.runCommand_cases (s : State) (c : Command) :
    (c = .resume ∧ s.runCommand c = { s with mode := .run }) ∨
    (c ≠ .resume ∧ ∃ reply, s.runCommand c = s.sendPacket reply) ∨
    (∃ addr data, c = .writeMemory addr data ∧ addr + data.length ≤ s.cfg.memSize ∧
      s.runCommand c = { s with mem := s.mem.writeBytes addr data }.sendPacket replyOk) := by
  cases c with
  | resume => exact .inl ⟨rfl, rfl⟩
  | readMemory addr len =>
    rcases s.viewRead_cases addr len with ⟨_, h⟩ | ⟨_, h⟩ <;>
      exact .inr (.inl ⟨by simp, _, by simp only [State.runCommand, h]; rfl⟩)
  | writeMemory addr data =>
    rcases s.viewWrite_cases addr data with ⟨hv, h⟩ | ⟨_, h⟩
    · exact .inr (.inr ⟨addr, data, rfl, hv, by simp only [State.runCommand, h]⟩)
    · exact .inr (.inl ⟨by simp, _, by simp only [State.runCommand, h]; rfl⟩)
  | lastSignal => exact .inr (.inl ⟨by simp, _, rfl⟩)
  | query => exact .inr (.inl ⟨by simp, _, rfl⟩)
  | threadOperation => exact .inr (.inl ⟨by simp, _, rfl⟩)
  | readRegisters => exact .inr (.inl ⟨by simp, _, rfl⟩)
  | writeRegisters => exact .inr (.inl ⟨by simp, _, rfl⟩)
  | malformed => exact .inr (.inl ⟨by simp, _, rfl⟩)
  | kill => exact .inr (.inl ⟨by simp, _, rfl⟩)
  | unknown => exact .inr (.inl ⟨by simp, _, rfl⟩)

@[simp] theorem State.runCommand_cfg (s : State) (c : Command) : (s.runCommand c).cfg = s.cfg := by
  rcases s.runCommand_cases c with ⟨_, h⟩ | ⟨_, _, h⟩ | ⟨_, _, _, _, h⟩ <;> simp [h]
@[simp] theorem State.runCommand_regs (s : State) (c : Command) : (s.runCommand c).regs = s.regs := by
  rcases s.runCommand_cases c with ⟨_, h⟩ | ⟨_, _, h⟩ | ⟨_, _, _, _, h⟩ <;> simp [h]
@[simp] theorem State.runCommand_pc (s : State) (c : Command) : (s.runCommand c).pc = s.pc := by
  rcases s.runCommand_cases c with ⟨_, h⟩ | ⟨_, _, h⟩ | ⟨_, _, _, _, h⟩ <;> simp [h]
@[simp] theorem State.runCommand_csrs (s : State) (c : Command) : (s.runCommand c).csrs = s.csrs := by
  rcases s.runCommand_cases c with ⟨_, h⟩ | ⟨_, _, h⟩ | ⟨_, _, _, _, h⟩ <;> simp [h]
@[simp] theorem State.runCommand_priv (s : State) (c : Command) : (s.runCommand c).priv = s.priv := by
  rcases s.runCommand_cases c with ⟨_, h⟩ | ⟨_, _, h⟩ | ⟨_, _, _, _, h⟩ <;> simp [h]
@[simp] theorem State.runCommand_entry (s : State) (c : Command) : (s.runCommand c).entry = s.entry := by
  rcases s.runCommand_cases c with ⟨_, h⟩ | ⟨_, _, h⟩ | ⟨_, _, _, _, h⟩ <;> simp [h]
@[simp] theorem State.runCommand_outcome (s : State) (c : Command) : (s.runCommand c).outcome = s.outcome := by
  rcases s.runCommand_cases c with ⟨_, h⟩ | ⟨_, _, h⟩ | ⟨_, _, _, _, h⟩ <;> simp [h]
@[simp] theorem State.runCommand_rx (s : State) (c : Command) : (s.runCommand c).rx = s.rx := by
  rcases s.runCommand_cases c with ⟨_, h⟩ | ⟨_, _, h⟩ | ⟨_, _, _, _, h⟩ <;> simp [h]
@[simp] theorem State.runCommand_inbuf (s : State) (c : Command) : (s.runCommand c).inbuf = s.inbuf := by
  rcases s.runCommand_cases c with ⟨_, h⟩ | ⟨_, _, h⟩ | ⟨_, _, _, _, h⟩ <;> simp [h]
@[simp] theorem State.runCommand_stopSignal (s : State) (c : Command) : (s.runCommand c).stopSignal = s.stopSignal := by
  rcases s.runCommand_cases c with ⟨_, h⟩ | ⟨_, _, h⟩ | ⟨_, _, _, _, h⟩ <;> simp [h]
@[simp] theorem State.runCommand_chanIn (s : State) (c : Command) : (s.runCommand c).chanIn = s.chanIn := by
  rcases s.runCommand_cases c with ⟨_, h⟩ | ⟨_, _, h⟩ | ⟨_, _, _, _, h⟩ <;> simp [h]
@[simp] theorem State.runCommand_hostIn (s : State) (c : Command) : (s.runCommand c).hostIn = s.hostIn := by
  rcases s.runCommand_cases c with ⟨_, h⟩ | ⟨_, _, h⟩ | ⟨_, _, _, _, h⟩ <;> simp [h]
@[simp] theorem State.runCommand_hostOut (s : State) (c : Command) : (s.runCommand c).hostOut = s.hostOut := by
  rcases s.runCommand_cases c with ⟨_, h⟩ | ⟨_, _, h⟩ | ⟨_, _, _, _, h⟩ <;> simp [h]

/-- Only `c` changes the mode. -/
theorem State.runCommand_mode (s : State) {c : Command} (hc : c ≠ .resume) : (s.runCommand c).mode = s.mode := by
  rcases s.runCommand_cases c with ⟨h, _⟩ | ⟨_, _, h⟩ | ⟨_, _, _, _, h⟩
  · exact absurd h hc
  · simp [h]
  · simp [h]

/-- Only `M` changes memory. -/
theorem State.runCommand_mem (s : State) (c : Command) :
    (s.runCommand c).mem = s.mem ∨
      ∃ addr data, c = .writeMemory addr data ∧ addr + data.length ≤ s.cfg.memSize ∧
        (s.runCommand c).mem = s.mem.writeBytes addr data := by
  rcases s.runCommand_cases c with ⟨_, h⟩ | ⟨_, _, h⟩ | ⟨a, d, hc, hv, h⟩
  · exact .inl (by simp [h])
  · exact .inl (by simp [h])
  · exact .inr ⟨a, d, hc, hv, by simp [h]⟩

/-- A reply fits the outbound buffer. -/
theorem State.runCommand_outbuf (s : State) (c : Command) (h : s.outbuf.length ≤ s.cfg.pktOutCap) :
    (s.runCommand c).outbuf.length ≤ s.cfg.pktOutCap := by
  rcases s.runCommand_cases c with ⟨_, h'⟩ | ⟨_, _, h'⟩ | ⟨_, _, _, _, h'⟩
  · simpa [h'] using h
  · simp [h']
  · simp [h']

/-! ### Received bytes -/

/-- What the receiver does with a byte: nothing but its own position and the inbound buffer changes, or the packet is
complete. -/
theorem State.receiveByte_cases (s : State) (b : Byte) :
    (∃ sum h1, s.rx = .checksumLow sum h1 ∧ checksumMatches sum h1 b = true ∧
      s.receiveByte b = ({ s with rx := .waitStart }.send [ascii '+']).runCommand (parseCommand s.inbuf)) ∨
    (∃ sum h1, s.rx = .checksumLow sum h1 ∧ checksumMatches sum h1 b = false ∧
      s.receiveByte b = { s with rx := .waitStart }.send [ascii '-']) ∨
    ((∀ sum h1, s.rx ≠ .checksumLow sum h1) ∧ ∃ rx inbuf, s.receiveByte b = { s with rx := rx, inbuf := inbuf } ∧
      (s.inbuf.length ≤ s.cfg.pktInCap → inbuf.length ≤ s.cfg.pktInCap)) := by
  cases hrx : s.rx with
  | checksumLow sum h1 =>
    by_cases hm : checksumMatches sum h1 b = true
    · exact .inl ⟨sum, h1, rfl, hm, by simp [State.receiveByte, hrx, State.closePacket, hm]⟩
    · simp only [Bool.not_eq_true] at hm
      exact .inr (.inl ⟨sum, h1, rfl, hm, by simp [State.receiveByte, hrx, State.closePacket, hm]⟩)
  | waitStart =>
    refine .inr (.inr ⟨by simp, ?_⟩)
    by_cases hb : b = ascii '$'
    · exact ⟨.payload 0, [], by simp [State.receiveByte, hrx, hb], by simp⟩
    · exact ⟨s.rx, s.inbuf, by simp only [State.receiveByte, hrx, hb, if_false]; rw [← hrx], id⟩
  | payload sum =>
    refine .inr (.inr ⟨by simp, ?_⟩)
    by_cases hb : b = ascii '#'
    · exact ⟨.checksumHigh sum, s.inbuf, by simp [State.receiveByte, hrx, hb], id⟩
    · refine ⟨_, _, by simp only [State.receiveByte, hrx, hb, if_false]; rfl, fun h => ?_⟩
      split
      · simpa using ‹_›
      · exact h
  | checksumHigh sum =>
    exact .inr (.inr ⟨by simp, .checksumLow sum b, s.inbuf, by simp [State.receiveByte, hrx], id⟩)

/-- What a step of a session does: the receiver takes the next byte, or there is none and nothing changes. -/
theorem State.sessionStep_cases (s : State) :
    (∃ b rest, nextReceived s.chanIn = some (b, rest) ∧ s.sessionStep = { s with chanIn := rest }.receiveByte b) ∨
    (nextReceived s.chanIn = none ∧ s.sessionStep = s) := by
  unfold State.sessionStep
  split
  · rename_i b rest h
    exact .inl ⟨b, rest, h, rfl⟩
  · rename_i h
    exact .inr ⟨h, rfl⟩

/-! ### Numbers and data in commands -/

/-- Hex digits before something that starts with none are the longest run. -/
theorem hexPrefix_append (digits : List Byte) (h : ∀ b ∈ digits, (hexValue b).isSome) (rest : List Byte)
    (hr : ∀ b ∈ rest.head?, hexValue b = none) :
    hexPrefix (digits ++ rest) = (digits.map fun b => (hexValue b).getD 0, rest) := by
  induction digits with
  | nil =>
    cases rest with
    | nil => rfl
    | cons b bs => simp [hexPrefix, hr b rfl]
  | cons a digits ih =>
    obtain ⟨d, hd⟩ := Option.isSome_iff_exists.mp (h a (by simp))
    simp [hexPrefix, hd, ih fun b hb => h b (by simp [hb])]

/-- Any bytes are hex digits and then something that starts with none. -/
theorem exists_hexDigits_append (bytes : List Byte) :
    ∃ digits rest, bytes = digits ++ rest ∧ (∀ b ∈ digits, (hexValue b).isSome) ∧
      ∀ b ∈ rest.head?, hexValue b = none := by
  induction bytes with
  | nil => exact ⟨[], [], by simp⟩
  | cons b bs ih =>
    cases hb : hexValue b with
    | none => exact ⟨[], b :: bs, by simp [hb]⟩
    | some d =>
      obtain ⟨digits, rest, h1, h2, h3⟩ := ih
      exact ⟨b :: digits, rest, by simp [h1], by simpa [hb] using h2, h3⟩

/-- A number before something that starts with no hex digit is read whole. -/
theorem hexNat_append {digits : List Byte} {n : Nat} (h : WritesNumber digits n) {rest : List Byte}
    (hr : ∀ b ∈ rest.head?, hexValue b = none) : hexNat (digits ++ rest) = some (n, rest) := by
  obtain ⟨h0, h1, h2⟩ := h
  unfold hexNat
  rw [hexPrefix_append digits h1 rest hr]
  cases digits with
  | nil => exact absurd rfl h0
  | cons b bs => simp [h2, List.foldl_map]

/-- What `hexNat` reads is a number. -/
theorem hexNat_eq_some {bytes rest : List Byte} {n : Nat} (h : hexNat bytes = some (n, rest)) :
    ∃ digits, bytes = digits ++ rest ∧ WritesNumber digits n := by
  obtain ⟨digits, r, rfl, h2, h3⟩ := exists_hexDigits_append bytes
  cases digits with
  | nil =>
    unfold hexNat at h
    rw [hexPrefix_append _ h2 _ h3] at h
    simp at h
  | cons b bs =>
    rw [hexNat_append ⟨by simp, h2, rfl⟩ h3] at h
    cases h
    exact ⟨_, rfl, by simp, h2, rfl⟩

/-- Data that is read has two hex digits for each byte. -/
theorem length_of_hexBytes {digits : List Byte} : ∀ {data : List Byte}, hexBytes digits = some data →
    digits.length = 2 * data.length ∧ ∀ d ∈ digits, (hexValue d).isSome := by
  induction digits using hexBytes.induct with
  | case1 => rintro _ ⟨⟩; simp
  | case2 => intro _ h; simp [hexBytes] at h
  | case3 x y rest a b bs h3 h1 h2 ih =>
    intro data h
    simp only [hexBytes, h1, h2, h3, Option.some.injEq] at h
    subst h
    obtain ⟨hl, hd⟩ := ih h3
    refine ⟨by simp [hl]; omega, ?_⟩
    simp [h1, h2]
    exact hd
  | case4 => intro _ h; simp_all [hexBytes]

/-- Two hex digits for each byte are read as these bytes. -/
theorem exists_hexBytes (n : Nat) : ∀ digits : List Byte, digits.length = 2 * n → (∀ d ∈ digits, (hexValue d).isSome) →
    ∃ data, hexBytes digits = some data ∧ data.length = n ∧
      ∀ i h1 h2, i < n → digits[2 * i]? = some h1 → digits[2 * i + 1]? = some h2 →
        data[i]? = some (BitVec.ofNat 8 ((hexValue h1).getD 0 * 16 + (hexValue h2).getD 0)) := by
  induction n with
  | zero =>
    intro digits h _
    obtain rfl : digits = [] := by simpa using h
    exact ⟨[], rfl, rfl, by simp⟩
  | succ n ih =>
    intro digits h hd
    match digits, h, hd with
    | a :: b :: rest, h, hd =>
      obtain ⟨data, e1, e2, e3⟩ := ih rest (by simp at h; omega) fun d hm => hd d (by simp [hm])
      obtain ⟨x, hx⟩ := Option.isSome_iff_exists.mp (hd a (by simp))
      obtain ⟨y, hy⟩ := Option.isSome_iff_exists.mp (hd b (by simp))
      refine ⟨_, by simp [hexBytes, hx, hy, e1]; rfl, by simp [e2], ?_⟩
      intro i h1 h2 hi g1 g2
      cases i with
      | zero =>
        simp at g1 g2
        subst g1 g2
        simp [hx, hy]
        congr 1
        omega
      | succ i =>
        simp only [Nat.mul_add, Nat.mul_one, List.getElem?_cons_succ] at g1 g2 ⊢
        exact e3 i h1 h2 (by omega) g1 g2

end Sys2Proof.Machine
end

