-- ==== Sys2Proof/Laws/Step.lean ====
section
/-! SUPPORT. What a step can do: the cases of the execute engine and of the run controller. -/

namespace Sys2Proof.Machine

@[simp] theorem Answer.mapNext_next (f : State → State) (s : State) : Answer.mapNext f (.next s) = .next (f s) := rfl

/-- A step of the engine raises the fetch fault, raises the illegal-instruction exception, or runs the decoded instruction (`runInstruction_cases` says
what that does); slot 0 is then forced to zero. -/
theorem engineStep_cases (s : State) :
    (¬ s.pc.toNat + 3 < s.cfg.memSize ∧ engineStep s = .next (s.takeTrap (.access ⟨.fetch, s.pc⟩)).forceX0) ∨
    (s.pc.toNat + 3 < s.cfg.memSize ∧
      ((∃ why, decode (ofBytesLE (s.mem.readBytes s.pc.toNat 4)) = .illegal why ∧
        engineStep s =
          .next (s.takeTrap (.illegalInstruction (ofBytesLE (s.mem.readBytes s.pc.toNat 4)))).forceX0) ∨
      (∃ i u, decode (ofBytesLE (s.mem.readBytes s.pc.toNat 4)) = .instr i ∧ runInstruction i s = .next u ∧
        engineStep s = .next u.forceX0))) := by
  rcases s.memRead_cases .fetch s.pc 4 with ⟨hv, h⟩ | ⟨hv, h⟩
  · refine .inr ⟨hv, ?_⟩
    cases hd : decode (ofBytesLE (s.mem.readBytes s.pc.toNat 4)) with
    | illegal why => exact .inl ⟨why, rfl, by simp [engineStep, fetchDecodeExecute, h, hd]⟩
    | instr i =>
      obtain ⟨u, hu⟩ := runInstruction_next i s
      exact .inr ⟨i, u, rfl, hu, by simp [engineStep, fetchDecodeExecute, h, hd, hu]⟩
  · exact .inl ⟨hv, by simp [engineStep, fetchDecodeExecute, h]⟩

/-- A step of the engine always answers a next state. -/
theorem engineStep_next (s : State) : ∃ t, engineStep s = .next t := by
  rcases engineStep_cases s with ⟨_, h⟩ | ⟨_, ⟨_, _, h⟩ | ⟨_, _, _, _, h⟩⟩ <;> exact ⟨_, h⟩

/-- What a step of the controller does. -/
theorem step_cases (s : State) :
    (s.mode = .debug ∧ step s = .next s.sessionStep) ∨
    (s.mode = .run ∧ s.cfg.channelAttached = false ∧ step s = engineStep s) ∨
    (s.mode = .run ∧ s.cfg.channelAttached = true ∧ s.poll.1 = some s.cfg.attn ∧
      step s = .next (s.poll.2.enterSession .attention)) ∨
    (s.mode = .run ∧ s.cfg.channelAttached = true ∧ s.poll.1 ≠ some s.cfg.attn ∧
      ∃ u, engineStep s.poll.2 = .next u ∧ step s = .next u.afterStep) := by
  cases hm : s.mode with
  | debug => exact .inl ⟨rfl, by simp [step, controllerStep, hm]⟩
  | run =>
    cases hc : s.cfg.channelAttached with
    | false => exact .inr (.inl ⟨rfl, rfl, by simp [step, controllerStep, hm, runIteration, hc]⟩)
    | true =>
      by_cases hp : s.poll.1 = some s.cfg.attn
      · exact .inr (.inr (.inl ⟨rfl, rfl, hp, by simp only [step, controllerStep, hm, runIteration, hc, hp]; rfl⟩))
      · obtain ⟨u, hu⟩ := engineStep_next s.poll.2
        exact .inr (.inr (.inr ⟨rfl, rfl, hp, u, hu, by
          simp only [step, controllerStep, hm, runIteration, hc, hp, hu]; rfl⟩))

/-- A run of one step more. -/
theorem run_succ_of_step {M : Host.Core} {k : Nat} {s t : M.State} (h : M.step s = .next t) :
    M.run (k + 1) s = M.run k t := by
  rw [Host.Core.run.eq_def]
  simp only [h]

end Sys2Proof.Machine
end

