-- ==== Sys2Proof/Tests/Slice0.lean ====
section
/-! SUPPORT. Tests: words written out from the spec's encodings, single steps with the results of spec/95_test_vectors.md, and a
witness for each statement that has hypotheses. -/

namespace Sys2Proof.Tests

open Sys2Proof.Machine

/-! ### Well-formedness: each check refuses an ill-formed term, an odd offset (30_encoding.md R116, R118) -/

theorem test_wf_beq : (Instr.beq 1 2 3).wf = false ∧ (Instr.beq 1 2 4).wf = true := by decide
theorem test_wf_bne : (Instr.bne 1 2 (-3)).wf = false ∧ (Instr.bne 1 2 (-4)).wf = true := by decide
theorem test_wf_blt : (Instr.blt 1 2 1).wf = false ∧ (Instr.blt 1 2 0).wf = true := by decide
theorem test_wf_bge : (Instr.bge 1 2 4095).wf = false ∧ (Instr.bge 1 2 4094).wf = true := by decide
theorem test_wf_bltu : (Instr.bltu 0 0 2049).wf = false ∧ (Instr.bltu 0 0 2048).wf = true := by decide
theorem test_wf_bgeu : (Instr.bgeu 0 0 (-4095)).wf = false ∧ (Instr.bgeu 0 0 (-4096)).wf = true := by decide
theorem test_wf_jal : (Instr.jal 1 1048573).wf = false ∧ (Instr.jal 1 1048574).wf = true := by decide

/-! ### Decoding -/

/-- One word of each format written bit by bit from the tables of 30_encoding.md sections 1 and 3. -/
theorem test_decode_bits :
    decode 0b00010010001101000101_00001_0110111 = .instr (.lui 1 0x12345) ∧
    decode 0b1_1111111100_1_11111111_00001_1101111 = .instr (.jal 1 (-8)) ∧
    decode 0b111111111111_00010_000_00011_1100111 = .instr (.jalr 3 2 (-1)) ∧
    decode 0b0_000001_00010_00001_100_0100_1_1100011 = .instr (.blt 1 2 2088) ∧
    decode 0b100000000001_00100_101_00110_0000011 = .instr (.lhu 6 4 (-2047)) ∧
    decode 0b0000001_00101_00111_010_11110_0100011 = .instr (.sw 5 7 62) ∧
    decode 0b011111111111_01000_011_01001_0010011 = .instr (.sltiu 9 8 2047) ∧
    decode 0b0100000_10001_01010_101_01011_0010011 = .instr (.srai 11 10 17) ∧
    decode 0b0100000_00011_00010_101_00001_0110011 = .instr (.sra 1 2 3) ∧
    decode 0b0000001_00011_00010_111_00001_0110011 = .instr (.remu 1 2 3) ∧
    decode 0b001101000000_00010_011_00001_1110011 = .instr (.csrrc 1 0x340 2) ∧
    decode 0b001100000010_00000_000_00000_1110011 = .instr .mret := by
  decide

/-- UpperImmediate: the words of 95_test_vectors.md sections 2.1 to 2.8. -/
theorem test_decode_UpperImmediate :
    decode 0x123450B7 = .instr (.lui 1 0x12345) ∧
    decode 0xFFFFF0B7 = .instr (.lui 1 0xFFFFF) ∧
    decode 0x12345037 = .instr (.lui 0 0x12345) ∧
    decode 0x00001297 = .instr (.auipc 5 1) ∧
    decode 0xFFFFF297 = .instr (.auipc 5 0xFFFFF) ∧
    decode 0x00000297 = .instr (.auipc 5 0) ∧
    decode 0x800000B7 = .instr (.lui 1 0x80000) ∧
    decode 0x80000097 = .instr (.auipc 1 0x80000) := by
  decide

/-- ControlTransfer: the words of 95_test_vectors.md sections 2.1 to 2.8. -/
theorem test_decode_ControlTransfer :
    decode 0x008000EF = .instr (.jal 1 8) ∧
    decode 0xF01FF06F = .instr (.jal 0 (-256)) ∧
    decode 0x002000EF = .instr (.jal 1 2) ∧
    decode 0x004100E7 = .instr (.jalr 1 2 4) ∧
    decode 0x000080E7 = .instr (.jalr 1 1 0) ∧
    decode 0xFFF10067 = .instr (.jalr 0 2 (-1)) ∧
    decode 0x00208863 = .instr (.beq 1 2 16) ∧
    decode 0xFE209EE3 = .instr (.bne 1 2 (-4)) ∧
    decode 0x0020C463 = .instr (.blt 1 2 8) ∧
    decode 0x0020E463 = .instr (.bltu 1 2 8) ∧
    decode 0x0020D463 = .instr (.bge 1 2 8) ∧
    decode 0x0020F463 = .instr (.bgeu 1 2 8) ∧
    decode 0x0010C463 = .instr (.blt 1 1 8) ∧
    decode 0xEE20DFE3 = .instr (.bge 1 2 (-258)) ∧
    decode 0x80000063 = .instr (.beq 0 0 (-4096)) ∧
    decode 0x7E000FE3 = .instr (.beq 0 0 4094) ∧
    decode 0x000000E3 = .instr (.beq 0 0 2048) ∧
    decode 0x8000006F = .instr (.jal 0 (-1048576)) ∧
    decode 0x7FFFF06F = .instr (.jal 0 1048574) ∧
    decode 0x0010006F = .instr (.jal 0 2048) ∧
    decode 0x0000106F = .instr (.jal 0 4096) := by
  decide

/-- LoadStore: the words of 95_test_vectors.md sections 2.1 to 2.8. -/
theorem test_decode_LoadStore :
    decode 0x00008283 = .instr (.lb 5 1 0) ∧
    decode 0x00208283 = .instr (.lb 5 1 2) ∧
    decode 0x0030C283 = .instr (.lbu 5 1 3) ∧
    decode 0x00209283 = .instr (.lh 5 1 2) ∧
    decode 0x0020D283 = .instr (.lhu 5 1 2) ∧
    decode 0x00109283 = .instr (.lh 5 1 1) ∧
    decode 0x0000A283 = .instr (.lw 5 1 0) ∧
    decode 0x0010A283 = .instr (.lw 5 1 1) ∧
    decode 0xFFC0A283 = .instr (.lw 5 1 (-4)) ∧
    decode 0x0000C283 = .instr (.lbu 5 1 0) ∧
    decode 0x00108283 = .instr (.lb 5 1 1) ∧
    decode 0x00009003 = .instr (.lh 0 1 0) ∧
    decode 0x0000A083 = .instr (.lw 1 1 0) ∧
    decode 0x00508023 = .instr (.sb 5 1 0) ∧
    decode 0x005090A3 = .instr (.sh 5 1 1) ∧
    decode 0x0050A1A3 = .instr (.sw 5 1 3) ∧
    decode 0x0050A023 = .instr (.sw 5 1 0) ∧
    decode 0xFE501F23 = .instr (.sh 5 0 (-2)) ∧
    decode 0x80002023 = .instr (.sw 0 0 (-2048)) ∧
    decode 0x7E002FA3 = .instr (.sw 0 0 2047) := by
  decide

/-- IntegerImmediate: the words of 95_test_vectors.md sections 2.1 to 2.8. -/
theorem test_decode_IntegerImmediate :
    decode 0xFFF08093 = .instr (.addi 1 1 (-1)) ∧
    decode 0x7FF08093 = .instr (.addi 1 1 2047) ∧
    decode 0x00000013 = .instr (.addi 0 0 0) ∧
    decode 0xFFF12093 = .instr (.slti 1 2 (-1)) ∧
    decode 0xFFF13093 = .instr (.sltiu 1 2 (-1)) ∧
    decode 0x00113093 = .instr (.sltiu 1 2 1) ∧
    decode 0xFFF14093 = .instr (.xori 1 2 (-1)) ∧
    decode 0x0F016093 = .instr (.ori 1 2 240) ∧
    decode 0xFF017093 = .instr (.andi 1 2 (-16)) ∧
    decode 0x01F11093 = .instr (.slli 1 2 31) ∧
    decode 0x01F15093 = .instr (.srli 1 2 31) ∧
    decode 0x41F15093 = .instr (.srai 1 2 31) ∧
    decode 0x40015093 = .instr (.srai 1 2 0) ∧
    decode 0x00409093 = .instr (.slli 1 1 4) ∧
    decode 0x80000093 = .instr (.addi 1 0 (-2048)) ∧
    decode 0x7FF00093 = .instr (.addi 1 0 2047) ∧
    decode 0x00009093 = .instr (.slli 1 1 0) := by
  decide

/-- IntegerRegister: the words of 95_test_vectors.md sections 2.1 to 2.8. -/
theorem test_decode_IntegerRegister :
    decode 0x002081B3 = .instr (.add 3 1 2) ∧
    decode 0x402081B3 = .instr (.sub 3 1 2) ∧
    decode 0x401080B3 = .instr (.sub 1 1 1) ∧
    decode 0x002091B3 = .instr (.sll 3 1 2) ∧
    decode 0x0020D1B3 = .instr (.srl 3 1 2) ∧
    decode 0x4020D1B3 = .instr (.sra 3 1 2) ∧
    decode 0x0020A1B3 = .instr (.slt 3 1 2) ∧
    decode 0x0020B1B3 = .instr (.sltu 3 1 2) ∧
    decode 0x002031B3 = .instr (.sltu 3 0 2) ∧
    decode 0x0010C1B3 = .instr (.xor 3 1 1) ∧
    decode 0x0020E1B3 = .instr (.or 3 1 2) ∧
    decode 0x0020F1B3 = .instr (.and 3 1 2) ∧
    decode 0x00208033 = .instr (.add 0 1 2) := by
  decide

/-- MultiplyDivide: the words of 95_test_vectors.md sections 2.1 to 2.8. -/
theorem test_decode_MultiplyDivide :
    decode 0x022081B3 = .instr (.mul 3 1 2) ∧
    decode 0x022091B3 = .instr (.mulh 3 1 2) ∧
    decode 0x0220A1B3 = .instr (.mulhsu 3 1 2) ∧
    decode 0x0220B1B3 = .instr (.mulhu 3 1 2) ∧
    decode 0x0220C1B3 = .instr (.div 3 1 2) ∧
    decode 0x0220D1B3 = .instr (.divu 3 1 2) ∧
    decode 0x0220E1B3 = .instr (.rem 3 1 2) ∧
    decode 0x0220F1B3 = .instr (.remu 3 1 2) ∧
    decode 0x0210C0B3 = .instr (.div 1 1 1) := by
  decide

/-- System: the words of 95_test_vectors.md sections 2.1 to 2.8. -/
theorem test_decode_System :
    decode 0x00000073 = .instr (.ecall) ∧
    decode 0x00100073 = .instr (.ebreak) ∧
    decode 0x30200073 = .instr (.mret) ∧
    decode 0x10500073 = .instr (.wfi) ∧
    decode 0x340110F3 = .instr (.csrrw 1 0x340 2) ∧
    decode 0x34429073 = .instr (.csrrw 0 0x344 5) ∧
    decode 0x305090F3 = .instr (.csrrw 1 0x305 1) ∧
    decode 0x300120F3 = .instr (.csrrs 1 0x300 2) ∧
    decode 0x300020F3 = .instr (.csrrs 1 0x300 0) ∧
    decode 0x300130F3 = .instr (.csrrc 1 0x300 2) ∧
    decode 0x304120F3 = .instr (.csrrs 1 0x304 2) ∧
    decode 0x342110F3 = .instr (.csrrw 1 0x342 2) ∧
    decode 0xF14020F3 = .instr (.csrrs 1 0xF14 0) ∧
    decode 0xC00020F3 = .instr (.csrrs 1 0xC00 0) ∧
    decode 0x7B0110F3 = .instr (.csrrw 1 0x7B0 2) := by
  decide

/-- 2.9: words outside the opcode table. -/
theorem test_decode_illegal :
    ∀ w ∈ [0x0000000F, 0x0000100F, 0x00000000, 0xFFFFFFFF, 0x00005073, 0x00106073, 0x00200073, 0x10200073, 0x00001067, 0x40001093, 0x02005013, 0x80000033, 0x00002063, 0x00003003, 0x00003023, 0x0000000B],
      decodeTableWord 32 w = none := by
  decide

/-- Every row's pattern decodes to the instruction that has this row. -/
theorem test_decode_rows :
    opcodeTable.length = 52 ∧
      ∀ r ∈ opcodeTable, (match decode r.pattern with | .instr i => decide (i.row = r) | .illegal _ => false) = true := by
  decide

/-- No two rows of the table select the same word: they differ in a bit that both masks name. -/
theorem test_rows_disjoint :
    opcodeTable.Pairwise fun r r' => r.pattern &&& r'.mask ≠ r'.pattern &&& r.mask := by
  decide

/-- The catalogue of CSR numbers (10_state.md R40); the neighbours of each and 2.8's unknown numbers name none. -/
theorem test_csr_catalogue :
    [0x300, 0x304, 0x305, 0x340, 0x341, 0x342, 0x343, 0x344].map csrOfNumber =
      [some .mstatus, some .mie, some .mtvec, some .mscratch, some .mepc, some .mcause, some .mtval, some .mip] ∧
    ∀ n ∈ [0x2FF, 0x301, 0x303, 0x306, 0x33F, 0x345, 0xF14, 0xC00, 0x7B0], csrOfNumber n = none := by
  decide

/-! ### Single steps -/

/-- The common start state of 95_test_vectors.md part 2 with these registers. -/
def start (regs : List (Reg × Word)) : State :=
  regs.foldl (fun s r => s.writeReg r.1 r.2) { State.initial Config.atReset with pc := 0x100 }

/-- The state after a step, if that is its answer. -/
def after (s : State) : Option State :=
  match step s with
  | .next t => some t
  | .fault _ => none
  | .refused _ => none

/-- The state after one step that fetches `w`. -/
def stepWith (s : State) (w : Nat) : Option State := after (s.withFetchWord 32 w)

/-- 1.1, from reset. -/
theorem test_reset_addi :
    (stepWith State.reset 0x00500093).map (fun t => (t.readReg 1, t.pc, t.outcome)) = some (5, 4, .continued) := by
  decide

/-- 2.2: `lui x1, 0xFFFFF`. -/
theorem test_lui :
    (stepWith (start []) 0xFFFFF0B7).map (fun t => (t.readReg 1, t.pc, t.outcome)) =
      some (0xFFFFF000, 0x104, .continued) := by
  decide

/-- 2.2: `auipc x5, 0xFFFFF`. -/
theorem test_auipc :
    (stepWith (start []) 0xFFFFF297).map (fun t => (t.readReg 5, t.pc, t.outcome)) =
      some (0xFFFFF100, 0x104, .continued) := by
  decide

/-- 2.3: `jal x1, 2`. -/
theorem test_jal :
    (stepWith (start []) 0x002000EF).map (fun t => (t.readReg 1, t.pc, t.outcome)) =
      some (0x00000104, 0x102, .continued) := by
  decide

/-- 2.3: `jalr x1, 0(x1)`. -/
theorem test_jalr :
    (stepWith (start [(1, 0x301)]) 0x000080E7).map (fun t => (t.readReg 1, t.pc, t.outcome)) =
      some (0x00000104, 0x300, .continued) := by
  decide

/-- 2.3: `jalr x0, -1(x2)`. -/
theorem test_jalr_2 :
    (stepWith (start [(2, 0x0)]) 0xFFF10067).map (fun t => (t.readReg 0, t.pc, t.outcome)) =
      some (0x00000000, 0xFFFFFFFE, .continued) := by
  decide

/-- 2.3: `beq x1, x2, 16`. -/
theorem test_beq :
    (stepWith (start [(1, 0x5), (2, 0x5)]) 0x00208863).map (fun t => (t.pc, t.outcome)) =
      some (0x110, .continued) := by
  decide

/-- 2.3: `beq x1, x2, 16`. -/
theorem test_beq_2 :
    (stepWith (start [(1, 0x5), (2, 0x6)]) 0x00208863).map (fun t => (t.pc, t.outcome)) =
      some (0x104, .continued) := by
  decide

/-- 2.3: `bne x1, x2, -4`. -/
theorem test_bne :
    (stepWith (start [(1, 0x5), (2, 0x6)]) 0xFE209EE3).map (fun t => (t.pc, t.outcome)) =
      some (0xFC, .continued) := by
  decide

/-- 2.3: `blt x1, x2, 8`. -/
theorem test_blt :
    (stepWith (start [(1, 0xFFFFFFFF), (2, 0x1)]) 0x0020C463).map (fun t => (t.pc, t.outcome)) =
      some (0x108, .continued) := by
  decide

/-- 2.3: `bltu x1, x2, 8`. -/
theorem test_bltu :
    (stepWith (start [(1, 0xFFFFFFFF), (2, 0x1)]) 0x0020E463).map (fun t => (t.pc, t.outcome)) =
      some (0x104, .continued) := by
  decide

/-- 2.3: `bge x1, x2, 8`. -/
theorem test_bge :
    (stepWith (start [(1, 0xFFFFFFFF), (2, 0xFFFFFFFF)]) 0x0020D463).map (fun t => (t.pc, t.outcome)) =
      some (0x108, .continued) := by
  decide

/-- 2.3: `bgeu x1, x2, 8`. -/
theorem test_bgeu :
    (stepWith (start [(1, 0x0), (2, 0xFFFFFFFF)]) 0x0020F463).map (fun t => (t.pc, t.outcome)) =
      some (0x104, .continued) := by
  decide

/-- 2.3: `bge x1, x2, -258`. -/
theorem test_bge_2 :
    (stepWith (start [(1, 0x1), (2, 0xFFFFFFFB)]) 0xEE20DFE3).map (fun t => (t.pc, t.outcome)) =
      some (0xFFFFFFFE, .continued) := by
  decide

/-- 2.4: `lb x5, 2(x1)`. -/
theorem test_lb :
    (stepWith ({ start [(1, 0x200)] with mem := Memory.writeBytes [] 0x200 (bytesLE 4 0x81807FFF) }) 0x00208283).map (fun t => (t.readReg 5, t.pc, t.outcome)) =
      some (0xFFFFFF80, 0x104, .continued) := by
  decide

/-- 2.4: `lbu x5, 3(x1)`. -/
theorem test_lbu :
    (stepWith ({ start [(1, 0x200)] with mem := Memory.writeBytes [] 0x200 (bytesLE 4 0x81807FFF) }) 0x0030C283).map (fun t => (t.readReg 5, t.pc, t.outcome)) =
      some (0x00000081, 0x104, .continued) := by
  decide

/-- 2.4: `lhu x5, 2(x1)`. -/
theorem test_lhu :
    (stepWith ({ start [(1, 0x200)] with mem := Memory.writeBytes [] 0x200 (bytesLE 4 0x81807FFF) }) 0x0020D283).map (fun t => (t.readReg 5, t.pc, t.outcome)) =
      some (0x00008180, 0x104, .continued) := by
  decide

/-- 2.4: `lh x5, 1(x1)`. -/
theorem test_lh :
    (stepWith ({ start [(1, 0x200)] with mem := Memory.writeBytes [] 0x200 (bytesLE 4 0x81807FFF) }) 0x00109283).map (fun t => (t.readReg 5, t.pc, t.outcome)) =
      some (0xFFFF807F, 0x104, .continued) := by
  decide

/-- 2.4: `lw x5, 1(x1)`. -/
theorem test_lw :
    (stepWith ({ start [(1, 0x200)] with mem := Memory.writeBytes [] 0x200 (bytesLE 4 0x81807FFF) }) 0x0010A283).map (fun t => (t.readReg 5, t.pc, t.outcome)) =
      some (0x0081807F, 0x104, .continued) := by
  decide

/-- 2.4: `lb x5, 1(x1)`. -/
theorem test_lb_2 :
    (stepWith ({ start [(1, 0xFFFFFFFF)] with mem := Memory.writeBytes [] 0x0 (bytesLE 1 0x80) }) 0x00108283).map (fun t => (t.readReg 5, t.pc, t.outcome)) =
      some (0xFFFFFF80, 0x104, .continued) := by
  decide

/-- 2.4: `lh x0, 0(x1)`. -/
theorem test_lh_2 :
    (stepWith ({ start [(1, 0xFFFF)] with csrs := { Csrs.all 0 with mtvec := 0x400 } }) 0x00009003).map (fun t => (t.csrs.mepc, t.csrs.mcause, t.csrs.mtval, t.pc, t.outcome)) =
      some (0x00000100, 0x0000000D, 0x0000FFFF, 0x400, .trapped) := by
  decide

/-- 2.4: `lw x1, 0(x1)`. -/
theorem test_lw_2 :
    (stepWith ({ start [(1, 0x200)] with mem := Memory.writeBytes [] 0x200 (bytesLE 4 0x81807FFF) }) 0x0000A083).map (fun t => (t.readReg 1, t.pc, t.outcome)) =
      some (0x81807FFF, 0x104, .continued) := by
  decide

/-- 2.4: `sb x5, 0(x1)`. -/
theorem test_sb :
    (stepWith (start [(1, 0x200), (5, 0x12345678)]) 0x00508023).map (fun t => (t.mem.readBytes 0x200 1, t.pc, t.outcome)) =
      some ([0x78], 0x104, .continued) := by
  decide

/-- 2.4: `sh x5, 1(x1)`. -/
theorem test_sh :
    (stepWith (start [(1, 0x200), (5, 0x12345678)]) 0x005090A3).map (fun t => (t.mem.readBytes 0x201 2, t.pc, t.outcome)) =
      some ([0x78, 0x56], 0x104, .continued) := by
  decide

/-- 2.4: `sw x5, 3(x1)`. -/
theorem test_sw :
    (stepWith (start [(1, 0x200), (5, 0x12345678)]) 0x0050A1A3).map (fun t => (t.mem.readBytes 0x203 4, t.pc, t.outcome)) =
      some ([0x78, 0x56, 0x34, 0x12], 0x104, .continued) := by
  decide

/-- 2.4: `sw x5, 0(x1)`. -/
theorem test_sw_2 :
    (stepWith ({ start [(1, 0xFFFD), (5, 0xCAFEBABE)] with csrs := { Csrs.all 0 with mtvec := 0x400 } }) 0x0050A023).map (fun t => (t.csrs.mepc, t.csrs.mcause, t.csrs.mtval, t.pc, t.outcome)) =
      some (0x00000100, 0x0000000F, 0x0000FFFD, 0x400, .trapped) := by
  decide

/-- 2.4: `sh x5, -2(x0)`. -/
theorem test_sh_2 :
    (stepWith ({ start [(5, 0x1)] with csrs := { Csrs.all 0 with mtvec := 0x400 } }) 0xFE501F23).map (fun t => (t.csrs.mepc, t.csrs.mcause, t.csrs.mtval, t.pc, t.outcome)) =
      some (0x00000100, 0x0000000F, 0xFFFFFFFE, 0x400, .trapped) := by
  decide

/-- 2.5: `addi x1, x1, 2047`. -/
theorem test_addi :
    (stepWith (start [(1, 0x7FFFFFFF)]) 0x7FF08093).map (fun t => (t.readReg 1, t.pc, t.outcome)) =
      some (0x800007FE, 0x104, .continued) := by
  decide

/-- 2.5: `slti x1, x2, -1`. -/
theorem test_slti :
    (stepWith (start [(2, 0xFFFFFFFE)]) 0xFFF12093).map (fun t => (t.readReg 1, t.pc, t.outcome)) =
      some (0x00000001, 0x104, .continued) := by
  decide

/-- 2.5: `slti x1, x2, -1`. -/
theorem test_slti_2 :
    (stepWith (start [(2, 0xFFFFFFFF)]) 0xFFF12093).map (fun t => (t.readReg 1, t.pc, t.outcome)) =
      some (0x00000000, 0x104, .continued) := by
  decide

/-- 2.5: `sltiu x1, x2, -1`. -/
theorem test_sltiu :
    (stepWith (start [(2, 0xFFFFFFFE)]) 0xFFF13093).map (fun t => (t.readReg 1, t.pc, t.outcome)) =
      some (0x00000001, 0x104, .continued) := by
  decide

/-- 2.5: `xori x1, x2, -1`. -/
theorem test_xori :
    (stepWith (start [(2, 0xF0F0F0F)]) 0xFFF14093).map (fun t => (t.readReg 1, t.pc, t.outcome)) =
      some (0xF0F0F0F0, 0x104, .continued) := by
  decide

/-- 2.5: `ori x1, x2, 0x0F0`. -/
theorem test_ori :
    (stepWith (start [(2, 0xF00000)]) 0x0F016093).map (fun t => (t.readReg 1, t.pc, t.outcome)) =
      some (0x00F000F0, 0x104, .continued) := by
  decide

/-- 2.5: `andi x1, x2, -16`. -/
theorem test_andi :
    (stepWith (start [(2, 0xFFFFFFFF)]) 0xFF017093).map (fun t => (t.readReg 1, t.pc, t.outcome)) =
      some (0xFFFFFFF0, 0x104, .continued) := by
  decide

/-- 2.5: `slli x1, x2, 31`. -/
theorem test_slli :
    (stepWith (start [(2, 0x3)]) 0x01F11093).map (fun t => (t.readReg 1, t.pc, t.outcome)) =
      some (0x80000000, 0x104, .continued) := by
  decide

/-- 2.5: `srli x1, x2, 31`. -/
theorem test_srli :
    (stepWith (start [(2, 0x80000000)]) 0x01F15093).map (fun t => (t.readReg 1, t.pc, t.outcome)) =
      some (0x00000001, 0x104, .continued) := by
  decide

/-- 2.5: `srai x1, x2, 31`. -/
theorem test_srai :
    (stepWith (start [(2, 0x80000000)]) 0x41F15093).map (fun t => (t.readReg 1, t.pc, t.outcome)) =
      some (0xFFFFFFFF, 0x104, .continued) := by
  decide

/-- 2.6: `add x3, x1, x2`. -/
theorem test_add :
    (stepWith (start [(1, 0xFFFFFFFF), (2, 0x1)]) 0x002081B3).map (fun t => (t.readReg 3, t.pc, t.outcome)) =
      some (0x00000000, 0x104, .continued) := by
  decide

/-- 2.6: `sub x3, x1, x2`. -/
theorem test_sub :
    (stepWith (start [(1, 0x80000000), (2, 0x1)]) 0x402081B3).map (fun t => (t.readReg 3, t.pc, t.outcome)) =
      some (0x7FFFFFFF, 0x104, .continued) := by
  decide

/-- 2.6: `sll x3, x1, x2`. -/
theorem test_sll :
    (stepWith (start [(1, 0x1), (2, 0x20)]) 0x002091B3).map (fun t => (t.readReg 3, t.pc, t.outcome)) =
      some (0x00000001, 0x104, .continued) := by
  decide

/-- 2.6: `srl x3, x1, x2`. -/
theorem test_srl :
    (stepWith (start [(1, 0x80000000), (2, 0x20)]) 0x0020D1B3).map (fun t => (t.readReg 3, t.pc, t.outcome)) =
      some (0x80000000, 0x104, .continued) := by
  decide

/-- 2.6: `sra x3, x1, x2`. -/
theorem test_sra :
    (stepWith (start [(1, 0x80000000), (2, 0x4)]) 0x4020D1B3).map (fun t => (t.readReg 3, t.pc, t.outcome)) =
      some (0xF8000000, 0x104, .continued) := by
  decide

/-- 2.6: `slt x3, x1, x2`. -/
theorem test_slt :
    (stepWith (start [(1, 0x80000000), (2, 0x7FFFFFFF)]) 0x0020A1B3).map (fun t => (t.readReg 3, t.pc, t.outcome)) =
      some (0x00000001, 0x104, .continued) := by
  decide

/-- 2.6: `sltu x3, x1, x2`. -/
theorem test_sltu :
    (stepWith (start [(1, 0x80000000), (2, 0x7FFFFFFF)]) 0x0020B1B3).map (fun t => (t.readReg 3, t.pc, t.outcome)) =
      some (0x00000000, 0x104, .continued) := by
  decide

/-- 2.6: `xor x3, x1, x1`. -/
theorem test_xor :
    (stepWith (start [(1, 0xDEADBEEF)]) 0x0010C1B3).map (fun t => (t.readReg 3, t.pc, t.outcome)) =
      some (0x00000000, 0x104, .continued) := by
  decide

/-- 2.6: `or x3, x1, x2`. -/
theorem test_or :
    (stepWith (start [(1, 0xF0000000), (2, 0xF)]) 0x0020E1B3).map (fun t => (t.readReg 3, t.pc, t.outcome)) =
      some (0xF000000F, 0x104, .continued) := by
  decide

/-- 2.6: `and x3, x1, x2`. -/
theorem test_and :
    (stepWith (start [(1, 0xFFFF0000), (2, 0xFFFF00)]) 0x0020F1B3).map (fun t => (t.readReg 3, t.pc, t.outcome)) =
      some (0x00FF0000, 0x104, .continued) := by
  decide

/-- 2.6: `add x0, x1, x2`. -/
theorem test_add_2 :
    (stepWith (start [(1, 0x1), (2, 0x2)]) 0x00208033).map (fun t => (t.readReg 0, t.pc, t.outcome)) =
      some (0x00000000, 0x104, .continued) := by
  decide

/-- 2.7: `mul x3, x1, x2`. -/
theorem test_mul :
    (stepWith (start [(1, 0xFFFFFFFF), (2, 0xFFFFFFFF)]) 0x022081B3).map (fun t => (t.readReg 3, t.pc, t.outcome)) =
      some (0x00000001, 0x104, .continued) := by
  decide

/-- 2.7: `mulh x3, x1, x2`. -/
theorem test_mulh :
    (stepWith (start [(1, 0x80000000), (2, 0x80000000)]) 0x022091B3).map (fun t => (t.readReg 3, t.pc, t.outcome)) =
      some (0x40000000, 0x104, .continued) := by
  decide

/-- 2.7: `mulh x3, x1, x2`. -/
theorem test_mulh_2 :
    (stepWith (start [(1, 0xFFFFFFFF), (2, 0x1)]) 0x022091B3).map (fun t => (t.readReg 3, t.pc, t.outcome)) =
      some (0xFFFFFFFF, 0x104, .continued) := by
  decide

/-- 2.7: `mulhsu x3, x1, x2`. -/
theorem test_mulhsu :
    (stepWith (start [(1, 0x80000000), (2, 0xFFFFFFFF)]) 0x0220A1B3).map (fun t => (t.readReg 3, t.pc, t.outcome)) =
      some (0x80000000, 0x104, .continued) := by
  decide

/-- 2.7: `mulhsu x3, x1, x2`. -/
theorem test_mulhsu_2 :
    (stepWith (start [(1, 0x1), (2, 0xFFFFFFFF)]) 0x0220A1B3).map (fun t => (t.readReg 3, t.pc, t.outcome)) =
      some (0x00000000, 0x104, .continued) := by
  decide

/-- 2.7: `mulhu x3, x1, x2`. -/
theorem test_mulhu :
    (stepWith (start [(1, 0x80000000), (2, 0x80000000)]) 0x0220B1B3).map (fun t => (t.readReg 3, t.pc, t.outcome)) =
      some (0x40000000, 0x104, .continued) := by
  decide

/-- 2.7: `div x3, x1, x2`. -/
theorem test_div :
    (stepWith (start [(1, 0x80000000), (2, 0xFFFFFFFF)]) 0x0220C1B3).map (fun t => (t.readReg 3, t.pc, t.outcome)) =
      some (0x80000000, 0x104, .continued) := by
  decide

/-- 2.7: `div x3, x1, x2`. -/
theorem test_div_2 :
    (stepWith (start [(1, 0x7), (2, 0xFFFFFFFE)]) 0x0220C1B3).map (fun t => (t.readReg 3, t.pc, t.outcome)) =
      some (0xFFFFFFFD, 0x104, .continued) := by
  decide

/-- 2.7: `divu x3, x1, x2`. -/
theorem test_divu :
    (stepWith (start [(1, 0x7), (2, 0x0)]) 0x0220D1B3).map (fun t => (t.readReg 3, t.pc, t.outcome)) =
      some (0xFFFFFFFF, 0x104, .continued) := by
  decide

/-- 2.7: `divu x3, x1, x2`. -/
theorem test_divu_2 :
    (stepWith (start [(1, 0x80000000), (2, 0xFFFFFFFF)]) 0x0220D1B3).map (fun t => (t.readReg 3, t.pc, t.outcome)) =
      some (0x00000000, 0x104, .continued) := by
  decide

/-- 2.7: `rem x3, x1, x2`. -/
theorem test_rem :
    (stepWith (start [(1, 0x80000000), (2, 0xFFFFFFFF)]) 0x0220E1B3).map (fun t => (t.readReg 3, t.pc, t.outcome)) =
      some (0x00000000, 0x104, .continued) := by
  decide

/-- 2.7: `rem x3, x1, x2`. -/
theorem test_rem_2 :
    (stepWith (start [(1, 0xFFFFFFF9), (2, 0x2)]) 0x0220E1B3).map (fun t => (t.readReg 3, t.pc, t.outcome)) =
      some (0xFFFFFFFF, 0x104, .continued) := by
  decide

/-- 2.7: `remu x3, x1, x2`. -/
theorem test_remu :
    (stepWith (start [(1, 0x7), (2, 0x0)]) 0x0220F1B3).map (fun t => (t.readReg 3, t.pc, t.outcome)) =
      some (0x00000007, 0x104, .continued) := by
  decide

/-- 2.7: `remu x3, x1, x2`. -/
theorem test_remu_2 :
    (stepWith (start [(1, 0xFFFFFFFF), (2, 0xA)]) 0x0220F1B3).map (fun t => (t.readReg 3, t.pc, t.outcome)) =
      some (0x00000005, 0x104, .continued) := by
  decide

/-- 2.8: `ecall`. -/
theorem test_ecall :
    (stepWith ({ start [] with csrs := { Csrs.all 0 with mtvec := 0x400, mstatus := 0x88 } }) 0x00000073).map (fun t => (t.csrs.mstatus, t.csrs.mepc, t.csrs.mcause, t.csrs.mtval, t.pc, t.outcome)) =
      some (0x00000080, 0x00000100, 0x0000000B, 0x00000000, 0x400, .trapped) := by
  decide

/-- 2.8: `ebreak`. -/
theorem test_ebreak :
    (stepWith ({ start [] with csrs := { Csrs.all 0 with mtvec := 0x400, mstatus := 0x1888 } }) 0x00100073).map (fun t => (t.csrs.mstatus, t.csrs.mepc, t.csrs.mcause, t.csrs.mtval, t.pc, t.outcome)) =
      some (0x00001880, 0x00000100, 0x00000003, 0x00000000, 0x400, .trapped) := by
  decide

/-- 2.8: `mret`. -/
theorem test_mret :
    (stepWith ({ start [] with csrs := { Csrs.all 0 with mepc := 0x104, mstatus := 0x1880 } }) 0x30200073).map (fun t => (t.csrs.mstatus, t.pc, t.outcome)) =
      some (0x00000088, 0x104, .continued) := by
  decide

/-- 2.8: `mret`. -/
theorem test_mret_2 :
    (stepWith ({ start [] with csrs := { Csrs.all 0 with mepc := 0x104, mstatus := 0x8 } }) 0x30200073).map (fun t => (t.csrs.mstatus, t.pc, t.outcome)) =
      some (0x00000080, 0x104, .continued) := by
  decide

/-- 2.8: `wfi`. -/
theorem test_wfi :
    (stepWith (start []) 0x10500073).map (fun t => (t.pc, t.outcome)) =
      some (0x104, .continued) := by
  decide

/-- 2.8: `csrrw x1, mtvec, x1`. -/
theorem test_csrrw :
    (stepWith ({ start [(1, 0x403)] with csrs := { Csrs.all 0 with mtvec := 0x800 } }) 0x305090F3).map (fun t => (t.readReg 1, t.csrs.mtvec, t.pc, t.outcome)) =
      some (0x00000800, 0x00000400, 0x104, .continued) := by
  decide

/-- 2.8: `csrrs x1, mstatus, x2`. -/
theorem test_csrrs :
    (stepWith (start [(2, 0xFFFFFFFF)]) 0x300120F3).map (fun t => (t.readReg 1, t.csrs.mstatus, t.pc, t.outcome)) =
      some (0x00000000, 0x00001888, 0x104, .continued) := by
  decide

/-- 2.8: `csrrc x1, mstatus, x2`. -/
theorem test_csrrc :
    (stepWith ({ start [(2, 0x8)] with csrs := { Csrs.all 0 with mstatus := 0x1888 } }) 0x300130F3).map (fun t => (t.readReg 1, t.csrs.mstatus, t.pc, t.outcome)) =
      some (0x00001888, 0x00001880, 0x104, .continued) := by
  decide

/-- 2.8: `csrrs x1, 0xF14, x0`. -/
theorem test_csrrs_2 :
    (stepWith ({ start [] with csrs := { Csrs.all 0 with mtvec := 0x400 } }) 0xF14020F3).map (fun t => (t.csrs.mepc, t.csrs.mcause, t.csrs.mtval, t.pc, t.outcome)) =
      some (0x00000100, 0x00000002, 0xF14020F3, 0x400, .trapped) := by
  decide

/-- 2.8: `csrrw x1, 0x7B0, x2`. -/
theorem test_csrrw_2 :
    (stepWith ({ start [] with csrs := { Csrs.all 0 with mtvec := 0x400 } }) 0x7B0110F3).map (fun t => (t.csrs.mepc, t.csrs.mcause, t.csrs.mtval, t.pc, t.outcome)) =
      some (0x00000100, 0x00000002, 0x7B0110F3, 0x400, .trapped) := by
  decide

/-- 2.9: all ones. -/
theorem test_illegal_word :
    (stepWith { start [] with csrs := { Csrs.all 0 with mtvec := 0x400 } } 0xFFFFFFFF).map
        (fun t => (t.csrs.mcause, t.csrs.mepc, t.csrs.mtval, t.pc, t.outcome)) =
      some (2, 0x100, 0xFFFFFFFF, 0x400, .trapped) := by
  decide

/-- 2.10: the fetch at 0xFFFE faults. -/
theorem test_fetch_fault :
    (stepWith { start [] with pc := 0xFFFE, csrs := { Csrs.all 0 with mtvec := 0x400 } } 0x00100093).map
        (fun t => (t.csrs.mcause, t.csrs.mepc, t.csrs.mtval, t.pc, t.outcome)) =
      some (12, 0xFFFE, 0xFFFE, 0x400, .trapped) := by
  decide

/-- 2.10: the fetch at 0xFFFC does not. -/
theorem test_fetch_last_word :
    (stepWith { start [] with pc := 0xFFFC } 0x00100093).map (fun t => (t.readReg 1, t.pc, t.outcome)) =
      some (1, 0x10000, .continued) := by
  decide

/-! ### The debug stub: the step that takes the last byte of a packet -/

/-- Characters as bytes. -/
def bytes (cs : List Char) : List Byte := cs.map ascii

/-- The parameters of section 2.12. -/
def stubConfig : Config := { Config.atReset with channelAttached := true }

/-- The start state of section 2.12 in its session. -/
def inSession : State :=
  { (((State.initial stubConfig).writeReg 1 0x104).writeReg 2 0x8000).writeReg 8 0x7FF0 with
    pc := 0x400
    csrs := { Csrs.all 0 with mtvec := 0x400, mepc := 0x100, mcause := 3 }
    mem := Memory.writeBytes [] 0x100 [0x73, 0x00, 0x10, 0x00, 0xFF]
    mode := .debug }

/-- The session before the last byte `h2` of a packet whose first digit was `h1`. -/
def beforeLast (payload : List Char) (h1 h2 : Char) : State :=
  { inSession with
    mem := Memory.writeBytes [] 0x200 [0xFF, 0x7F, 0x80, 0x81]
    rx := .checksumLow (checksum (bytes payload)) (ascii h1)
    inbuf := bytes payload
    chanIn := [some (ascii h2)] }

/-- What the stub sends on the last byte. -/
def answer (payload : List Char) (h1 h2 : Char) : Option (List Byte) :=
  match step (beforeLast payload h1 h2) with
  | .next t => some t.chanOut
  | .fault _ => none
  | .refused _ => none

/-- 2.12, `$?#3f`. -/
theorem test_stub_signal :
    answer ['?'] '3' 'f' = some (bytes ['+', '$', 'S', '0', '5', '#', 'b', '8']) := by decide

/-- 2.12, `$qSupported#37`. -/
theorem test_stub_packet_size :
    answer ['q', 'S', 'u', 'p', 'p', 'o', 'r', 't', 'e', 'd'] '3' '7' =
      some (bytes ['+', '$', 'P', 'a', 'c', 'k', 'e', 't', 'S', 'i', 'z', 'e', '=', '4', '0', '0', '#', 'c', '4']) := by
  decide

/-- 2.12, `$m200,4#5f`. -/
theorem test_stub_read :
    answer ['m', '2', '0', '0', ',', '4'] '5' 'f' =
      some (bytes ['+', '$', 'f', 'f', '7', 'f', '8', '0', '8', '1', '#', '3', 'a']) := by decide

/-- 2.12, `$mFFFE,3#e3`: past the end. -/
theorem test_stub_read_past_end :
    answer ['m', 'F', 'F', 'F', 'E', ',', '3'] 'e' '3' =
      some (bytes ['+', '$', 'E', '0', '3', '#', 'a', '8']) := by decide

/-- 2.12, `$m10000,0#ba`: nothing at the very end. -/
theorem test_stub_read_at_end :
    answer ['m', '1', '0', '0', '0', '0', ',', '0'] 'b' 'a' = some (bytes ['+', '$', '#', '0', '0']) := by decide

/-- 2.12, `$m200#ff`: no comma. -/
theorem test_stub_read_malformed :
    answer ['m', '2', '0', '0'] 'f' 'f' = some (bytes ['+', '$', 'E', '0', '1', '#', 'a', '6']) := by decide

/-- 2.12, `$M200,2:abcd#01`. -/
theorem test_stub_write :
    answer ['M', '2', '0', '0', ',', '2', ':', 'a', 'b', 'c', 'd'] '0' '1' =
      some (bytes ['+', '$', 'O', 'K', '#', '9', 'a']) ∧
    (beforeLast ['M', '2', '0', '0', ',', '2', ':', 'a', 'b', 'c', 'd'] '0' '1').sessionStep.mem.readBytes 0x200 4 =
      [0xAB, 0xCD, 0x80, 0x81] := by decide

/-- 2.12, `$M200,2:abc#9d`: three digits. -/
theorem test_stub_write_malformed :
    answer ['M', '2', '0', '0', ',', '2', ':', 'a', 'b', 'c'] '9' 'd' =
      some (bytes ['+', '$', 'E', '0', '1', '#', 'a', '6']) := by decide

/-- 2.12, `$M200,1:00#00`: a wrong checksum. -/
theorem test_stub_bad_checksum :
    answer ['M', '2', '0', '0', ',', '1', ':', '0', '0'] '0' '0' = some (bytes ['-']) := by decide

/-- 2.12, `$c#63`. -/
theorem test_stub_resume :
    answer ['c'] '6' '3' = some (bytes ['+']) ∧ (beforeLast ['c'] '6' '3').sessionStep.mode = .run := by decide

/-- 2.12, the stop report of the section's start. -/
theorem test_stop_report :
    inSession.stopReport =
      bytes ['T', '0', '5', '0', '8', ':', 'f', '0', '7', 'f', '0', '0', '0', '0', ';',
        '0', '2', ':', '0', '0', '8', '0', '0', '0', '0', '0', ';',
        '2', '0', ':', '0', '0', '0', '1', '0', '0', '0', '0', ';'] ∧
    hex2 (checksum inSession.stopReport) = bytes ['4', '0'] := by decide

/-- 2.12, `$M200,4:11223344#0d` with PKT_IN_CAP = 8: the command sees the first eight bytes only. -/
theorem test_stub_truncated :
    parseCommand (bytes ['M', '2', '0', '0', ',', '4', ':', '1']) = .malformed := by decide

/-! ### Witnesses: for each statement with hypotheses, a state and operands that meet them all -/

theorem atReset_wf : Config.atReset.Wf := by
  constructor <;> decide

theorem stubConfig_wf : stubConfig.Wf := by
  constructor <;> decide

/-- The start state with one word at the pc. -/
def placed (w : Word) : State := (start []).placeWord w

/-- A start state with a trap vector and a channel whose next poll finds nothing. -/
def onChannel (w : Word) : State :=
  { placed w with cfg := stubConfig, csrs := { Csrs.all 0 with mtvec := 0x400 }, chanIn := [none, some 0x78] }

/-- A start state at an ECALL with a hook: selector 63, arguments 1 and 0x200, and these answers of the host. -/
def withHost (answers : List (Option HostAnswer)) : State :=
  { (start [(17, 63), (10, 1), (11, 0x200)]).placeWord 0x00000073 with
    cfg := { Config.atReset with hostCall := true }, hostIn := answers }

/-- D24: a0 takes the result, the bytes are in memory, and the step completes at pc + 4; the host has seen the call. -/
theorem test_hook_serves_ecall :
    let t := after (withHost [some ⟨[(0x100, 2)], [(0xFFFE, [0xAB, 0xCD])], 2, 0xFFFFFFFF⟩])
    t.map (fun t => (t.readReg 10, t.pc, t.outcome, t.mem.readBytes 0xFFFE 2)) =
      some (2, 0x104, .continued, [0xAB, 0xCD]) ∧
    t.map (fun t => t.hostOut) = some [⟨63, [1, 0x200, 0, 0, 0, 0, 0], [[0x73, 0x00]]⟩] := by decide

/-- D24: a view past the end is the hook's failure and no trap, and nothing is written. -/
theorem test_hook_view_fails :
    (after (withHost [some ⟨[], [(0x300, [1]), (0xFFFF, [0xAB, 0xCD])], 2, 0xFFFFFFFF⟩])).map
        (fun t => (t.readReg 10, t.pc, t.outcome, t.mem.readBytes 0x300 1)) =
      some (0xFFFFFFFF, 0x104, .continued, [0]) := by decide

theorem witness_DecodeOfEncodeIsTheInstruction :
    (Instr.beq 1 2 (-4096)).wf = true ∧ (Instr.jal 0 1048574).wf = true := by decide

theorem witness_EncodeOfDecodedIsTheWord : decode 0xEE20DFE3 = .instr (.bge 1 2 (-258)) := by decide

theorem witness_DecodeFollowsOpcodeTable :
    decode 0x00B50533 = .instr (.add 10 10 11) ∧ decode 0x00002063 = .illegal .functionField := by decide

theorem witness_ReservedSpacesAreIllegal :
    opcodeOf 0x0000000F = 0x0F ∧ (opcodeOf 0x00005073 = 0x73 ∧ 4 ≤ (funct3Of 0x00005073).toNat) ∧
      (opcodeOf 0x00004073 = 0x73 ∧ 4 ≤ (funct3Of 0x00004073).toNat) ∧ ¬ 4 ≤ (funct3Of 0x34002073).toNat ∧
      opcodeOf 0x0000000B = 0x0B ∧ opcodeOf 0x0000002B = 0x2B ∧ opcodeOf 0x0000005B = 0x5B ∧
      opcodeOf 0x0000007B = 0x7B ∧ (0x00000001 : Word).extractLsb' 0 2 ≠ 0b11 := by decide

/-- Both clauses at the end of memory, for each width. -/
theorem witness_MemReadIsLittleEndian :
    (∀ c ∈ [(0xFFFF, 1), (0xFFFE, 2), (0xFFFC, 4)], (c.1 : Word).toNat + (c.2 - 1) < (start []).cfg.memSize) ∧
    (∀ c ∈ [(0x10000, 1), (0xFFFF, 2), (0xFFFD, 4), (0xFFFFFFFE, 4)],
      ¬ (c.1 : Word).toNat + (c.2 - 1) < (start []).cfg.memSize) := by decide

/-- The same accesses as for reading. -/
theorem witness_MemWriteWritesAllBytesOrNone :
    (0xFFFC : Word).toNat + (4 - 1) < (start []).cfg.memSize ∧
      ¬ (0xFFFD : Word).toNat + (4 - 1) < (start []).cfg.memSize := by decide

/-- 1.6, an unaligned address. -/
theorem witness_StoredWordIsReadBack :
    let s := start [(1, 0x201), (5, 0xCAFEBABE)]
    (s.effectiveAddress 1 0).toNat + 3 < s.cfg.memSize ∧ (∃ t, exec (.sw 5 1 0) s = .next t) ∧
      s.effectiveAddress 0 0x201 = s.effectiveAddress 1 0 :=
  ⟨by decide, exec_next _ _, by decide⟩

theorem witness_CanonicalMemoriesAreEqualData :
    let m : Memory := [(3, 1), (7, 2)]
    m.wf ∧ ∀ a, m.get a = m.get a := ⟨by decide, fun _ => rfl⟩

/-- A step without a channel, and one with a channel whose poll brings another byte; each of the three reasons why no hook is
asked. -/
theorem witness_StepRunsTheDecodedInstruction :
    (let s := placed 0x00100073
     s.mode = .run ∧ s.pc.toNat + 3 < s.cfg.memSize ∧
      decode (ofBytesLE (s.mem.readBytes s.pc.toNat 4)) = .instr .ebreak ∧ s.cfg.channelAttached = false) ∧
    (let s := onChannel 0x00100073
     s.mode = .run ∧ s.pc.toNat + 3 < s.cfg.memSize ∧
      decode (ofBytesLE (s.mem.readBytes s.pc.toNat 4)) = .instr .ebreak ∧ s.cfg.channelAttached = true ∧
      s.chanIn.head? ≠ some (some s.cfg.attn)) ∧
    Instr.ebreak ≠ .ecall ∧ (placed 0x00000073).cfg.hostCall = false ∧ (withHost []).hostIn = [] := by decide

theorem witness_FetchOutsideMemoryTraps :
    let s := { start [] with pc := 0xFFFD }
    s.regs[0] = 0 ∧ ¬ s.pc.toNat + 3 < s.cfg.memSize := by decide

/-- A word that is no instruction, and a CSR instruction on an unknown number and on one in the read-only range. -/
theorem witness_IllegalInstructionsTrapWithTheWord :
    ((placed 0xFFFFFFFF).regs[0] = 0 ∧ (placed 0xFFFFFFFF).memRead .fetch (placed 0xFFFFFFFF).pc 4 = .ok 0xFFFFFFFF ∧
      decode 0xFFFFFFFF = .illegal .opcode) ∧
    (decode 0x7B0110F3 = .instr (.csrrw 1 0x7B0 2) ∧ (Instr.csrrw 1 0x7B0 2).csrNumber = some 0x7B0 ∧
      csrOfNumber 0x7B0 = none ∧ csrReadOnly 0x7B0 = false) ∧
    (decode 0xC00020F3 = .instr (.csrrs 1 0xC00 0) ∧ csrOfNumber 0xC00 = none ∧ csrReadOnly 0xC00 = true) :=
  ⟨⟨by decide, by rfl, by decide⟩, by decide, by decide⟩

theorem witness_SlotZeroReadsZero :
    (∃ t, engineStep (placed 0x00500013) = .next t) ∧ (Instr.addi 0 0 5).destination = some 0 ∧
      ∃ t, exec (.addi 0 0 5) (placed 0x00500013) = .next t :=
  ⟨engineStep_next _, rfl, exec_next _ _⟩

/-- A taken and an untaken branch of each condition. -/
theorem witness_BranchResults :
    let s := start [(1, 0xFFFFFFFF), (2, 1)]
    s.readReg 1 = s.readReg 1 ∧ s.readReg 1 ≠ s.readReg 2 ∧ (s.readReg 1).toInt < (s.readReg 2).toInt ∧
      ¬ (s.readReg 1).toNat < (s.readReg 2).toNat := by decide

/-- A load at the last valid address and one past it, for each width. -/
theorem witness_LoadResults :
    let s := start [(1, 0xFFFF), (2, 0xFFFE), (3, 0xFFFC)]
    (s.effectiveAddress 1 0).toNat + (1 - 1) < s.cfg.memSize ∧ ¬ (s.effectiveAddress 1 1).toNat + (1 - 1) < s.cfg.memSize ∧
      (s.effectiveAddress 2 0).toNat + (2 - 1) < s.cfg.memSize ∧ ¬ (s.effectiveAddress 2 1).toNat + (2 - 1) < s.cfg.memSize ∧
      (s.effectiveAddress 3 0).toNat + (4 - 1) < s.cfg.memSize ∧ ¬ (s.effectiveAddress 3 1).toNat + (4 - 1) < s.cfg.memSize := by
  decide

/-- A store at the last valid address, and one past it through a base that wraps. -/
theorem witness_StoreResults :
    let s := start [(1, 0xFFFC)]
    (s.effectiveAddress 1 0).toNat + (4 - 1) < s.cfg.memSize ∧ ¬ (s.effectiveAddress 1 1).toNat + (4 - 1) < s.cfg.memSize ∧
      ¬ (s.effectiveAddress 0 (-2)).toNat + (2 - 1) < s.cfg.memSize := by decide

theorem witness_ImmediateShiftResults :
    ((placed 0x40001093).memRead .fetch (placed 0x40001093).pc 4 = .ok 0x40001093 ∧ opcodeOf 0x40001093 = 0b0010011 ∧
      funct3Of 0x40001093 = 0b001 ∧ funct7Of 0x40001093 ≠ 0b0000000) ∧
    ((placed 0x02005013).memRead .fetch (placed 0x02005013).pc 4 = .ok 0x02005013 ∧ opcodeOf 0x02005013 = 0b0010011 ∧
      funct3Of 0x02005013 = 0b101 ∧ funct7Of 0x02005013 ≠ 0b0000000 ∧ funct7Of 0x02005013 ≠ 0b0100000) :=
  ⟨⟨by rfl, by decide, by decide, by decide⟩, by rfl, by decide, by decide, by decide, by decide⟩

/-- A zero divisor, the overflow, and an ordinary pair. -/
theorem witness_DivisionEdgeCases :
    (3 : Reg) ≠ 0 ∧ (start [(1, 7)]).readReg 2 = 0 ∧
    (start [(1, 0x80000000), (2, 0xFFFFFFFF)]).readReg 1 = 0x80000000 ∧
    (start [(1, 0x80000000), (2, 0xFFFFFFFF)]).readReg 2 = 0xFFFFFFFF ∧
    (let s := start [(1, 0xFFFFFFF9), (2, 2)]
     s.readReg 2 ≠ 0 ∧ ¬ (s.readReg 1 = 0x80000000 ∧ s.readReg 2 = 0xFFFFFFFF)) := by decide

theorem witness_CsrInstructionResults : csrOfNumber 0x300 = some .mstatus ∧ csrOfNumber 0x344 = some .mip := by decide

theorem witness_CsrFaultIsIllegalInstruction :
    decode 0xF14020F3 = .instr (.csrrs 1 0xF14 0) ∧ (Instr.csrrs 1 0xF14 0).csrNumber = some 0xF14 ∧
      csrOfNumber 0xF14 = none ∧ csrReadOnly 0xF14 = true := by decide

theorem witness_CsrWriteIsMasked :
    (csrOfNumber 0x305 = some .mtvec ∧ csrReadOnly 0x305 = false) ∧ csrOfNumber 0x7B0 = none ∧
      csrReadOnly 0xC00 = true := by decide

/-- An instruction that completes, one that has no destination, and one that traps. -/
theorem witness_OnlyTheDestinationRegisterChanges :
    (∃ t, exec (.add 3 1 2) (start []) = .next t) ∧ (Instr.add 3 1 2).destination ≠ some 4 ∧
      (∃ t, exec (.beq 1 2 8) (start []) = .next t ∧ (Instr.beq 1 2 8).destination = none) ∧
      (∃ t, exec (.lw 1 2 (-4)) (start []) = .next t ∧ t.outcome = .trapped) :=
  ⟨exec_next _ _, by decide, ⟨_, rfl, rfl⟩, ⟨_, rfl, by decide⟩⟩

/-- An instruction that stores nothing, a store that completes with an address outside it, and one that traps. -/
theorem witness_OnlyStoredBytesChange :
    (∃ t, exec (.lw 1 2 0) (start []) = .next t ∧ storesAt (start []) (.lw 1 2 0) = none) ∧
      (∃ t, exec (.sh 5 1 0x200) (start []) = .next t ∧ storesAt (start []) (.sh 5 1 0x200) = some (0x200, 2) ∧
        Outside (0x200 : Word).toNat 2 0x202 ∧ Outside (0x200 : Word).toNat 2 0x1FF) ∧
      (∃ t, exec (.sw 1 2 (-4)) (start []) = .next t ∧ t.outcome = .trapped) :=
  ⟨⟨_, rfl, rfl⟩, ⟨_, rfl, by decide, by unfold Outside; decide, by unfold Outside; decide⟩, ⟨_, rfl, by decide⟩⟩

/-- A trap, an instruction that is no CSR form, MRET, and a CSR form that completes, with a CSR it does not name. -/
theorem witness_OnlyListedCsrsChange :
    (∃ t, exec .ecall (start []) = .next t ∧ t.outcome = .trapped ∧ Csr.mie ∉ [Csr.mcause, .mepc, .mtval, .mstatus]) ∧
      (∃ t, exec (.addi 1 0 5) (start []) = .next t ∧ t.outcome = .continued ∧ (Instr.addi 1 0 5).csrNumber = none) ∧
      (∃ t, exec .mret (start []) = .next t) ∧
      (∃ t, exec (.csrrw 1 0x340 2) (start []) = .next t ∧ t.outcome = .continued ∧
        (Instr.csrrw 1 0x340 2).csrNumber = some 0x340 ∧ csrOfNumber 0x340 ≠ some Csr.mepc) :=
  ⟨⟨_, rfl, rfl, by decide⟩, ⟨_, rfl, rfl, rfl⟩, ⟨_, rfl⟩, ⟨_, rfl, by decide, rfl, by decide⟩⟩

theorem witness_InstructionsLeaveSessionAlone : ∃ t, exec (.sb 1 2 0) inSession = .next t := exec_next _ _

theorem witness_TrapsArePrecise : ∃ t, exec .ebreak (start []) = .next t ∧ t.outcome = .trapped := ⟨_, rfl, rfl⟩

theorem witness_OnlySixCausesAreRecorded :
    (∃ t, engineStep (placed 0x00000073) = .next t ∧ t.outcome = .trapped) ∧ (placed 0x00000073).cfg.Wf :=
  ⟨⟨_, rfl, by decide⟩, atReset_wf⟩

/-- A trap, and each of the five ways to complete. -/
theorem witness_NextPcIsOneOfFour :
    (∃ t, exec .ecall (start []) = .next t ∧ t.outcome = .trapped) ∧
    (∃ t, exec .mret (start []) = .next t ∧ t.outcome = .continued) ∧
    (∃ t, exec (.jal 1 8) (start []) = .next t ∧ t.outcome = .continued) ∧
    (∃ t, exec (.jalr 1 1 0) (start [(1, 0x301)]) = .next t ∧ t.outcome = .continued) ∧
    (∃ t, exec (.bne 1 2 8) (start []) = .next t ∧ t.outcome = .continued) ∧
    ∃ t, exec .wfi (start []) = .next t ∧ t.outcome = .continued :=
  ⟨⟨_, rfl, rfl⟩, ⟨_, rfl, rfl⟩, ⟨_, rfl, rfl⟩, ⟨_, rfl, rfl⟩, ⟨_, rfl, rfl⟩, ⟨_, rfl, rfl⟩⟩

theorem witness_EveryStepAnswersNext : inSession.mode = .debug ∧ nextReceived inSession.chanIn = none := by decide

theorem witness_StepsKeepTheParameters : ∃ t, step (placed 0x00000073) = .next t := ⟨_, rfl⟩

/-- A state with the invariant, in a session, and its step. -/
theorem witness_StepKeepsTheInvariant :
    (beforeLast ['c'] '6' '3').Inv ∧ ∃ t, step (beforeLast ['c'] '6' '3') = .next t := by
  refine ⟨?_, _, rfl⟩
  constructor <;> first | exact stubConfig_wf | decide

theorem witness_CreatedInstancesMeetTheInvariant :
    stubConfig.Wf ∧ ∃ s, State.create stubConfig 0x100 [0x13, 0x05, 0x50, 0x05] [none, some 0x03] [none] = some s :=
  ⟨stubConfig_wf, _, rfl⟩

theorem witness_EveryRunIsSafe : stubConfig.Wf ∧ ∃ s, State.create stubConfig 0xFFFF [0x13] [none, some 0x03] [] = some s :=
  ⟨stubConfig_wf, _, rfl⟩

/-- An image that reaches exactly the end of memory, and one that goes past it. -/
theorem witness_CreatedState :
    0xFFFE + [0x13, 0x05].length ≤ stubConfig.memSize ∧ ¬ 0xFFFF + [0x13, 0x05].length ≤ stubConfig.memSize ∧
      Outside 0xFFFE 2 0xFFFD ∧ Outside 0xFFFE 2 0x10000 := by unfold Outside; decide

theorem witness_AttentionByteEntersSession :
    let s := { onChannel 0x00100073 with chanIn := [some 0x03, none] }
    s.mode = .run ∧ s.cfg.channelAttached = true ∧ 39 ≤ s.cfg.pktOutCap ∧ s.chanIn = some s.cfg.attn :: [none] := by decide

/-- A step that traps and one that does not. -/
theorem witness_TrappedStepEntersSession :
    (let s := onChannel 0x00100073
     s.mode = .run ∧ s.cfg.channelAttached = true ∧ 39 ≤ s.cfg.pktOutCap ∧ s.chanIn.head? ≠ some (some s.cfg.attn) ∧
      ∃ u, engineStep { s with chanIn := s.chanIn.tail } = .next u ∧ u.outcome = .trapped) ∧
    (∃ u, engineStep { onChannel 0x00500093 with chanIn := (onChannel 0x00500093).chanIn.tail } = .next u ∧
      u.outcome = .continued) :=
  ⟨⟨rfl, rfl, by decide, by decide, _, rfl, by decide⟩, _, rfl, by decide⟩

theorem witness_NoChannelNoSession :
    let s := { placed 0x00100073 with chanIn := [some 0x03] }
    s.cfg.channelAttached = false ∧ s.mode = .run ∧ ∃ t, step s = .next t := ⟨rfl, rfl, _, rfl⟩

/-- A step of a session that changes memory. -/
theorem witness_SessionsChangeOnlyMemory :
    let s := beforeLast ['M', '2', '0', '0', ',', '1', ':', 'a', 'b'] '3' '9'
    s.mode = .debug ∧ ∃ t, step s = .next t ∧ t.mem ≠ s.mem := ⟨rfl, _, rfl, by decide⟩

theorem witness_SessionsEndOnlyByResume :
    let s := beforeLast ['c'] '6' '3'
    s.mode = .debug ∧ ∃ t, step s = .next t ∧ t.mode = .run := ⟨rfl, _, rfl, by decide⟩

theorem witness_BadChecksumOnlyAnswersMinus :
    let s := beforeLast ['?'] '0' '0'
    s.mode = .debug ∧ s.rx = .checksumLow (checksum (bytes ['?'])) (ascii '0') ∧
      nextReceived s.chanIn = some (ascii '0', []) ∧
      checksumMatches (checksum (bytes ['?'])) (ascii '0') (ascii '0') = false := by decide

/-- A packet that matches, with empty polls between its bytes; one that does not match; and one with eleven payload bytes for an
inbound buffer of eight. -/
theorem witness_ReceivedPacketRunsItsCommand :
    (let input := [some (ascii '$'), none, some (ascii '?'), none, none, some (ascii '#'), some (ascii '3'), some (ascii 'f')]
     let s := { inSession with chanIn := input ++ [none] }
     s.mode = .debug ∧ s.rx = .waitStart ∧ (∀ b ∈ [ascii '?'], b ≠ ascii '#') ∧
      input.filterMap id = ascii '$' :: [ascii '?'] ++ [ascii '#', ascii '3', ascii 'f'] ∧
      input.getLast? = some (some (ascii 'f')) ∧ s.chanIn = input ++ [none] ∧
      checksumMatches (checksum [ascii '?']) (ascii '3') (ascii 'f') = true ∧
      checksumMatches (checksum [ascii '?']) (ascii '0') (ascii 'f') = false) ∧
    (let payload := bytes ['M', '2', '0', '0', ',', '1', ':', '0', '0', '0', '0']
     let input := (ascii '$' :: payload ++ [ascii '#', ascii '0', ascii '0']).map some
     let s := { inSession with cfg := { stubConfig with pktInCap := 8 }, chanIn := input }
     s.mode = .debug ∧ s.rx = .waitStart ∧ (∀ b ∈ payload, b ≠ ascii '#') ∧
      input.filterMap id = ascii '$' :: payload ++ [ascii '#', ascii '0', ascii '0'] ∧
      input.getLast? = some (some (ascii '0')) ∧ s.chanIn = input ++ [] ∧
      payload.take s.cfg.pktInCap = bytes ['M', '2', '0', '0', ',', '1', ':', '0']) := by decide

theorem witness_AcknowledgedCommandsChangeNothing :
    (bytes ['H', 'g', '0']).head? = some (ascii 'H') ∧ (bytes ['G']).head? = some (ascii 'G') ∧
      (∀ b ∈ (bytes ['s']), b ∉ bytes ['?', 'q', 'H', 'g', 'G', 'm', 'M', 'c', 'k']) ∧ ([] : List Byte).head? = none := by
  decide

theorem witness_SignalKillResumeAndQueries :
    let s := { inSession with cfg := { stubConfig with qAck := some (ascii 'C', bytes ['O', 'K']) } }
    (bytes ['S']).head? = some (ascii 'S') ∧ s.cfg.qAck = some (ascii 'C', bytes ['O', 'K']) ∧ ascii 'C' ≠ ascii 'S' ∧
      (bytes ['C']).head? = some (ascii 'C') ∧ (bytes ['D']).head? ≠ some (ascii 'S') ∧
      (bytes ['D']).head? ≠ some (ascii 'C') := by decide

theorem witness_RegistersReplyIsWhole : inSession.cfg.Wf := stubConfig_wf

/-- A range that ends at the end of memory and one that ends past it; arguments with no comma are of another syntax. -/
theorem witness_ReadMemoryCommand :
    bytes ['F', 'F', 'F', 'E', ',', '2'] = bytes ['F', 'F', 'F', 'E'] ++ ascii ',' :: bytes ['2'] ∧
      WritesNumber (bytes ['F', 'F', 'F', 'E']) 0xFFFE ∧ WritesNumber (bytes ['2']) 2 ∧ WritesNumber (bytes ['3']) 3 ∧
      0xFFFE + 2 ≤ inSession.cfg.memSize ∧ ¬ 0xFFFE + 3 ≤ inSession.cfg.memSize ∧
      ¬ ∃ as ls, bytes ['2', '0', '0'] = as ++ ascii ',' :: ls :=
  ⟨by decide, ⟨by decide, by decide, by decide⟩, ⟨by decide, by decide, by decide⟩, ⟨by decide, by decide, by decide⟩,
    by decide, by decide, by
      rintro ⟨as, ls, h⟩
      have : ascii ',' ∈ bytes ['2', '0', '0'] := by rw [h]; simp
      revert this
      decide⟩

/-- A well-formed write that fits and one that does not; arguments with no comma are not well-formed. -/
theorem witness_WriteMemoryCommand :
    bytes ['F', 'F', 'F', 'F', ',', '1', ':', '0', 'a'] =
        bytes ['F', 'F', 'F', 'F'] ++ ascii ',' :: (bytes ['1'] ++ ascii ':' :: bytes ['0', 'a']) ∧
      WritesNumber (bytes ['F', 'F', 'F', 'F']) 0xFFFF ∧ WritesNumber (bytes ['1']) 1 ∧ WritesNumber (bytes ['2']) 2 ∧
      (bytes ['0', 'a']).length = 2 * 1 ∧ (∀ d ∈ bytes ['0', 'a'], (hexValue d).isSome) ∧
      0xFFFF + 1 ≤ inSession.cfg.memSize ∧ ¬ 0xFFFF + 2 ≤ inSession.cfg.memSize ∧
      ¬ ∃ as ls, bytes ['2', '0', '0'] = as ++ ascii ',' :: ls :=
  ⟨by decide, ⟨by decide, by decide, by decide⟩, ⟨by decide, by decide, by decide⟩, ⟨by decide, by decide, by decide⟩,
    by decide, by decide, by decide, by decide, by
      rintro ⟨as, ls, h⟩
      have : ascii ',' ∈ bytes ['2', '0', '0'] := by rw [h]; simp
      revert this
      decide⟩

/-- An ECALL with HOSTCALL none; one with no answer left; one the host declines; one it serves, with valid views and with one that
is not. -/
theorem witness_HostHookServesEcalls :
    let answer : HostAnswer := ⟨[(0xFFFF, 1)], [(0x300, [1, 2]), (0x301, [3])], 7, 8⟩
    let bad : HostAnswer := ⟨[(0xFFFF, 2)], [], 7, 8⟩
    let s := withHost [none, some answer]
    (placed 0x00000073).cfg.hostCall = false ∧ (withHost []).hostIn = [] ∧ s.pc.toNat + 3 < s.cfg.memSize ∧
      decode (ofBytesLE (s.mem.readBytes s.pc.toNat 4)) = .instr .ecall ∧ s.cfg.hostCall = true ∧
      s.hostIn = none :: [some answer] ∧ (withHost [some answer]).hostIn = some answer :: [] ∧
      (∀ v ∈ answer.reads, v.1 + v.2 ≤ s.cfg.memSize) ∧ (∀ v ∈ answer.writes, v.1 + v.2.length ≤ s.cfg.memSize) ∧
      ¬ ∀ v ∈ bad.reads, v.1 + v.2 ≤ s.cfg.memSize := by decide

end Sys2Proof.Tests
end

section
/-! The parameters of an instance (00_scope.md R8, R9): every part of a step leaves them as they are, so the step does. -/

namespace Sys2Proof.Machine

/-! ### The engine -/

/-- None of the effects of an instruction touches the parameters. -/
theorem Effect.cfg_eq {i : Instr} {s t : State} (h : Effect i s t) : t.cfg = s.cfg := by
  cases h <;> simp

@[simp] theorem State.hookReturns_cfg (s : State) (call : HostCall) (result : Word) :
    (s.hookReturns call result).cfg = s.cfg := by
  simp [State.hookReturns]

@[simp] theorem State.serveHook_cfg (s : State) (a : HostAnswer) : (s.serveHook a).cfg = s.cfg := by
  rcases s.serveHook_cases a with ⟨_, h⟩ | ⟨_, h⟩ <;> simp [h]

/-- An instruction keeps the parameters, whether its meaning runs or the host serves it. -/
theorem runInstruction_cfg {i : Instr} {s t : State} (h : runInstruction i s = .next t) : t.cfg = s.cfg := by
  rcases runInstruction_cases i s with ⟨answers, _, he⟩ | ⟨a, answers, _, _, _, he⟩
  · exact (exec_effect (he.symm.trans h)).cfg_eq
  · cases he.symm.trans h
    simp

/-- A step of the engine keeps the parameters, whether it traps before an instruction runs or runs one. -/
theorem engineStep_cfg {s t : State} (h : engineStep s = .next t) : t.cfg = s.cfg := by
  rcases engineStep_cases s with ⟨_, he⟩ | ⟨_, ⟨_, _, he⟩ | ⟨i, u, _, hu, he⟩⟩ <;> cases he.symm.trans h
  · simp
  · simp
  · simpa using runInstruction_cfg hu

/-! ### The controller and the stub -/

@[simp] theorem State.afterStep_cfg (s : State) : s.afterStep.cfg = s.cfg := by
  unfold State.afterStep
  split <;> simp

@[simp] theorem State.receiveByte_cfg (s : State) (b : Byte) : (s.receiveByte b).cfg = s.cfg := by
  rcases s.receiveByte_cases b with ⟨_, _, _, _, h⟩ | ⟨_, _, _, _, h⟩ | ⟨_, _, _, h, _⟩ <;> simp [h]

@[simp] theorem State.sessionStep_cfg (s : State) : s.sessionStep.cfg = s.cfg := by
  rcases s.sessionStep_cases with ⟨_, _, _, h⟩ | ⟨_, h⟩ <;> simp [h]

/-- Settles O41: a step is one received byte of a session, a step of the engine, or the entry of a session, and each keeps the
parameters. -/
theorem stepsKeepTheParameters : Obligations.StepsKeepTheParameters := by
  unfold Obligations.StepsKeepTheParameters
  intro s t h
  rcases step_cases s with ⟨_, hs⟩ | ⟨_, _, hs⟩ | ⟨_, _, _, hs⟩ | ⟨_, _, _, u, hu, hs⟩
  · cases hs.symm.trans h
    simp
  · exact engineStep_cfg (hs.symm.trans h)
  · cases hs.symm.trans h
    simp
  · cases hs.symm.trans h
    simpa using engineStep_cfg hu

end Sys2Proof.Machine
end

section
/-! The CSR bank (10_state.md R43, R45): what `CsrWrite` answers, case by case. -/

namespace Sys2Proof.Machine

/-- A number that names no CSR, or one in the read-only range, is a CSR fault. -/
theorem State.csrWrite_eq_none {s : State} {n : BitVec 12} {v : Word}
    (hn : csrOfNumber n = none ∨ csrReadOnly n = true) : s.csrWrite n v = none := by
  rcases s.csrWrite_cases n v with ⟨c, hc, hro, _⟩ | ⟨_, h⟩
  · simp [hc, hro] at hn
  · exact h

/-- On a number of the catalogue only the CSR it names is replaced, by the masked write. -/
theorem State.csrWrite_eq_some {s : State} {n : BitVec 12} {v : Word} {c : Csr} (hn : csrOfNumber n = some c) :
    s.csrWrite n v =
      some { s with csrs := updateCsr s.csrs (maskedWrite (readCsr s.cfg.writeMask c) (readCsr s.csrs c) v) c } := by
  rcases s.csrWrite_cases n v with ⟨d, hd, _, h⟩ | ⟨hd, _⟩
  · cases hn.symm.trans hd
    exact h
  · cases hn.symm.trans hd

/-- Settles O32: a fault on the numbers `CsrWrite` rejects, else a masked write of the one register, read back bit by
bit. -/
theorem csrWriteIsMasked : Obligations.CsrWriteIsMasked := by
  unfold Obligations.CsrWriteIsMasked
  intro s n v
  refine ⟨State.csrWrite_eq_none, fun c hn _ =>
    ⟨_, State.csrWrite_eq_some hn, ?bits, ?others, rfl, rfl, rfl, SameSession.refl s⟩⟩
  case bits => simp [getLsbD_maskedWrite]
  case others => exact fun d hd => readCsr_updateCsr_ne _ _ hd

end Sys2Proof.Machine
end

section
/-! The access primitives (20_memory.md R80 to R83): the bytes of the word `MemRead` gives, and the bytes `MemWrite` stores. -/

namespace Sys2Proof.Machine

/-! ### Reading -/

/-- Byte `i` of the value of the bytes at `a` is the byte at `a + i`. -/
theorem Memory.extractLsb'_ofBytesLE_readBytes (m : Memory) (a : Nat) {width i : Nat} (hw : width ≤ 4) (hi : i < width) :
    (ofBytesLE (m.readBytes a width)).extractLsb' (8 * i) 8 = m.get (a + i) := by
  rw [extractLsb'_ofBytesLE _ i (by omega), List.getD_eq_getElem _ _ (by simpa using hi), Memory.getElem_readBytes]

/-- The value of bytes is zero-extended: no bit past the last byte is set. -/
theorem getLsbD_ofBytesLE_of_ge {bytes : List Byte} {j : Nat} (hj : 8 * bytes.length ≤ j) :
    (ofBytesLE bytes).getLsbD j = false := by
  by_cases h : j < 32
  · rw [getLsbD_ofBytesLE _ _ h, List.getD_eq_default _ _ (by omega)]
    exact BitVec.getLsbD_zero
  · exact BitVec.getLsbD_of_ge _ _ (by omega)

/-- Settles O7: the two answers of `MemRead`, the value read byte by byte. -/
theorem memReadIsLittleEndian : Obligations.MemReadIsLittleEndian := by
  unfold Obligations.MemReadIsLittleEndian
  intro s kind a width hw
  have hw4 : width ≤ 4 := by omega
  rcases s.memRead_cases kind a width with ⟨hv, h⟩ | ⟨hv, h⟩
  · exact ⟨fun hn => absurd hv hn, fun _ =>
      ⟨_, h, fun _ hi => s.mem.extractLsb'_ofBytesLE_readBytes _ hw4 hi,
        fun _ hj => getLsbD_ofBytesLE_of_ge (by simpa using hj)⟩⟩
  · exact ⟨fun _ => h, fun hn => absurd hn hv⟩

/-! ### Writing -/

/-- Writing the low bytes of a word to memory stores them and nothing else. -/
theorem stores_writeBytes_bytesLE (s : State) (a width : Nat) (v : Word) :
    Stores a width v s { s with mem := s.mem.writeBytes a (bytesLE width v) } := by
  refine ⟨fun i hi => ?inside, fun x hx => ?outside, rfl, rfl, SameSession.refl s⟩
  case inside => rw [Memory.get_writeBytes_inside _ _ _ _ (by simpa using hi), getElem_bytesLE]
  case outside => exact Memory.get_writeBytes_outside _ _ _ _ (by simpa [Outside] using hx)

/-- Settles O8: the two answers of `MemWrite`, the written memory read byte by byte. The bound on the width is not
needed: past the fourth byte both sides are zero. -/
theorem memWriteWritesAllBytesOrNone : Obligations.MemWriteWritesAllBytesOrNone := by
  unfold Obligations.MemWriteWritesAllBytesOrNone
  intro s a width v _
  rcases s.memWrite_cases a width v with ⟨hv, h⟩ | ⟨hv, h⟩
  · exact ⟨fun hn => absurd hv hn, fun _ => ⟨_, h, rfl, rfl, stores_writeBytes_bytesLE s a.toNat width v⟩⟩
  · exact ⟨fun _ => h, fun hn => absurd hn hv⟩

end Sys2Proof.Machine
end

section
/-! The immediates as integers (30_encoding.md R120 to R124): each format is a sign bit above fields read as naturals. -/

namespace Sys2Proof.Machine

/-! ### Numbers of concatenations -/

/-- The upper part of a concatenation counts above the width of the lower part. -/
theorem toNat_append_eq_add {n m : Nat} (a : BitVec n) (b : BitVec m) : (a ++ b).toNat = 2 ^ m * a.toNat + b.toNat := by
  rw [BitVec.toNat_append, ← Nat.shiftLeft_add_eq_or_of_lt b.isLt, Nat.shiftLeft_eq, Nat.mul_comm]

/-- The sign bit above `m` bits counts `-2 ^ m`. -/
theorem toInt_signBit_append {m : Nat} (b : BitVec 1) (x : BitVec m) : (b ++ x).toInt = x.toNat - 2 ^ m * b.toNat := by
  have hb : b.toInt = -(b.toNat : Int) := by
    rw [BitVec.toInt_eq_toNat_cond]
    have := b.isLt
    split <;> omega
  rw [BitVec.toInt_append, if_neg (by decide), hb]
  ring

/-! ### Sign extension -/

theorem toInt_immediate12 (imm : BitVec 12) : (immediate12 imm).toInt = imm.toInt :=
  BitVec.toInt_signExtend_of_le (by decide)

theorem toInt_branchOffset (offset : BitVec 13) : (branchOffset offset).toInt = offset.toInt :=
  BitVec.toInt_signExtend_of_le (by decide)

theorem toInt_jumpOffset (offset : BitVec 21) : (jumpOffset offset).toInt = offset.toInt :=
  BitVec.toInt_signExtend_of_le (by decide)

theorem toInt_immediate12_range (imm : BitVec 12) :
    -2048 ≤ (immediate12 imm).toInt ∧ (immediate12 imm).toInt ≤ 2047 := by
  rw [toInt_immediate12]
  exact ⟨imm.le_toInt, Int.le_of_lt_add_one imm.toInt_lt⟩

/-! ### The fields of a word under each format -/

/-- R120: the field of imm_I, cut below its sign bit. -/
theorem immIOf_eq_signBit_append (w : Word) : immIOf w = w.extractLsb' 31 1 ++ w.extractLsb' 20 11 :=
  (extractLsb'_join (k := 1) (l := 11) w 31 rfl).symm

/-- R121: the upper field of imm_S, cut below its sign bit. -/
theorem immSOf_eq_signBit_append (w : Word) :
    immSOf w = w.extractLsb' 31 1 ++ (w.extractLsb' 25 6 ++ w.extractLsb' 7 5) := by
  rw [immSOf, ← extractLsb'_join w (k := 1) (l := 6) 31 rfl]
  exact BitVec.append_assoc

theorem toInt_immediate12_immIOf (w : Word) :
    (immediate12 (immIOf w)).toInt = (w.extractLsb' 20 11).toNat - 2048 * (w.extractLsb' 31 1).toNat := by
  rw [toInt_immediate12, immIOf_eq_signBit_append, toInt_signBit_append]
  rfl

theorem toInt_immediate12_immSOf (w : Word) :
    (immediate12 (immSOf w)).toInt =
      (w.extractLsb' 7 5).toNat + 32 * (w.extractLsb' 25 6).toNat - 2048 * (w.extractLsb' 31 1).toNat := by
  rw [toInt_immediate12, immSOf_eq_signBit_append, toInt_signBit_append, toNat_append_eq_add]
  omega

theorem toInt_branchOffset_immBOf (w : Word) :
    (branchOffset (immBOf w)).toInt =
      2 * (w.extractLsb' 8 4).toNat + 32 * (w.extractLsb' 25 6).toNat + 2048 * (w.extractLsb' 7 1).toNat -
        4096 * (w.extractLsb' 31 1).toNat := by
  rw [toInt_branchOffset, immBOf, toInt_signBit_append]
  simp only [toNat_append_eq_add, BitVec.toNat_zero]
  omega

theorem toNat_immediateU_immUOf (w : Word) : (immediateU (immUOf w)).toNat = 4096 * (w.extractLsb' 12 20).toNat :=
  toNat_append_eq_add _ 0#12

theorem toInt_jumpOffset_immJOf (w : Word) :
    (jumpOffset (immJOf w)).toInt =
      2 * (w.extractLsb' 21 10).toNat + 2048 * (w.extractLsb' 20 1).toNat + 4096 * (w.extractLsb' 12 8).toNat -
        1048576 * (w.extractLsb' 31 1).toNat := by
  rw [toInt_jumpOffset, immJOf, toInt_signBit_append]
  simp only [toNat_append_eq_add, BitVec.toNat_zero]
  omega

/-! ### The ranges of the offsets: those of their widths, but even -/

theorem toInt_branchOffset_immBOf_range (w : Word) :
    -4096 ≤ (branchOffset (immBOf w)).toInt ∧ (branchOffset (immBOf w)).toInt ≤ 4094 := by
  have hlow : -4096 ≤ (branchOffset (immBOf w)).toInt := toInt_branchOffset _ ▸ (immBOf w).le_toInt
  have hhigh : (branchOffset (immBOf w)).toInt < 4096 := toInt_branchOffset _ ▸ (immBOf w).toInt_lt
  have hfields := toInt_branchOffset_immBOf w
  omega

theorem toInt_jumpOffset_immJOf_range (w : Word) :
    -1048576 ≤ (jumpOffset (immJOf w)).toInt ∧ (jumpOffset (immJOf w)).toInt ≤ 1048574 := by
  have hlow : -1048576 ≤ (jumpOffset (immJOf w)).toInt := toInt_jumpOffset _ ▸ (immJOf w).le_toInt
  have hhigh : (jumpOffset (immJOf w)).toInt < 1048576 := toInt_jumpOffset _ ▸ (immJOf w).toInt_lt
  have hfields := toInt_jumpOffset_immJOf w
  omega

/-- Settles O6: per format, the integer its fields make and its range. -/
theorem immediatesReadTheWordsBits : Obligations.ImmediatesReadTheWordsBits := by
  unfold Obligations.ImmediatesReadTheWordsBits
  intro w
  exact ⟨⟨toInt_immediate12_immIOf w, toInt_immediate12_range _⟩, ⟨toInt_immediate12_immSOf w, toInt_immediate12_range _⟩,
    ⟨toInt_branchOffset_immBOf w, toInt_branchOffset_immBOf_range w⟩, toNat_immediateU_immUOf w,
    ⟨toInt_jumpOffset_immJOf w, toInt_jumpOffset_immJOf_range w⟩⟩

end Sys2Proof.Machine
end

section
/-! LUI and AUIPC (40_upper_immediate.md R200, R201): the immediate as a number, the two meanings, and their encodings. -/

namespace Sys2Proof.Machine

/-! ### The value -/

/-- R123: the twelve zeros below the field multiply it by 4096, and nothing is lost. -/
theorem toNat_immediateU (imm : BitVec 20) : (immediateU imm).toNat = imm.toNat * 4096 :=
  (toNat_append_eq_add imm 0#12).trans (Nat.mul_comm _ _)

theorem immediateU_eq_ofNat (imm : BitVec 20) : immediateU imm = BitVec.ofNat 32 (imm.toNat * 4096) := by
  rw [← toNat_immediateU, BitVec.ofNat_toNat, BitVec.setWidth_eq]

/-- A word plus the immediate is the sum of their numbers modulo 2^32. -/
theorem add_immediateU_eq_ofNat (w : Word) (imm : BitVec 20) :
    w + immediateU imm = BitVec.ofNat 32 (w.toNat + imm.toNat * 4096) := by
  rw [BitVec.ofNat_add, ← immediateU_eq_ofNat, BitVec.ofNat_toNat, BitVec.setWidth_eq]

/-! ### The meanings -/

theorem exec_lui (rd : Reg) (imm : BitVec 20) (s : State) :
    exec (.lui rd imm) s = .next (s.writeNext rd (immediateU imm)) := rfl

theorem exec_auipc (rd : Reg) (imm : BitVec 20) (s : State) :
    exec (.auipc rd imm) s = .next (s.writeNext rd (s.pc + immediateU imm)) := rfl

theorem gives_lui (rd : Reg) (imm : BitVec 20) :
    Gives (.lui rd imm) rd (fun _ => BitVec.ofNat 32 (imm.toNat * 4096)) :=
  gives_of_exec fun s => by rw [exec_lui, immediateU_eq_ofNat]

theorem gives_auipc (rd : Reg) (imm : BitVec 20) :
    Gives (.auipc rd imm) rd (fun s => BitVec.ofNat 32 (s.pc.toNat + imm.toNat * 4096)) :=
  gives_of_exec fun s => by rw [exec_auipc, add_immediateU_eq_ofNat]

/-! ### The encodings -/

theorem decode_encode_lui (rd : Reg) (imm : BitVec 20) : decode (encode (.lui rd imm)) = .instr (.lui rd imm) := by
  simp [decode, encode]

theorem decode_encode_auipc (rd : Reg) (imm : BitVec 20) :
    decode (encode (.auipc rd imm)) = .instr (.auipc rd imm) := by
  simp [decode, encode]

/-- Settles O15: each meaning is one register write of a sum without sign, and the word of each is its row's and decodes to
it. -/
theorem upperImmediateResults : Obligations.UpperImmediateResults := by
  unfold Obligations.UpperImmediateResults
  intro rd imm
  exact ⟨gives_lui rd imm, gives_auipc rd imm,
    fun _ => ⟨Laws.TableMatch.lui rd imm, decode_encode_lui rd imm⟩,
    fun _ => ⟨Laws.TableMatch.auipc rd imm, decode_encode_auipc rd imm⟩⟩

end Sys2Proof.Machine
end

section
/-! JAL and the six branches (41_control_transfer.md R210, R212 to R217, R220): the targets as sums modulo 2^32, what a jump
that links does, what a conditional branch does, and their encodings. -/

namespace Sys2Proof.Machine

/-! ### The targets -/

/-- A word plus a signed word is the sum of their numbers modulo 2^32. -/
theorem add_eq_ofInt (w v : Word) : w + v = BitVec.ofInt 32 (w.toNat + v.toInt) := by
  rw [BitVec.ofInt_add, BitVec.ofInt_natCast, BitVec.ofNat_toNat, BitVec.setWidth_eq, BitVec.ofInt_toInt]

theorem add_branchOffset_eq_ofInt (w : Word) (offset : BitVec 13) :
    w + branchOffset offset = BitVec.ofInt 32 (w.toNat + offset.toInt) := by
  rw [add_eq_ofInt, toInt_branchOffset]

theorem add_jumpOffset_eq_ofInt (w : Word) (offset : BitVec 21) :
    w + jumpOffset offset = BitVec.ofInt 32 (w.toNat + offset.toInt) := by
  rw [add_eq_ofInt, toInt_jumpOffset]

theorem add_four_eq_ofNat (w : Word) : w + 4 = BitVec.ofNat 32 (w.toNat + 4) := by
  rw [BitVec.ofNat_add, BitVec.ofNat_toNat, BitVec.setWidth_eq]
  rfl

/-! ### A jump that links (R219) -/

/-- Executing `i` writes `pc + 4` to x[rd], if rd is not x0, and continues at `target s` in every state `s`; nothing else
changes. -/
def LinksAndGoesTo (i : Instr) (rd : Reg) (target : State → Word) : Prop :=
  ∀ s, ∃ t, exec i s = .next t ∧ t.readReg rd = (if rd = 0 then 0 else BitVec.ofNat 32 (s.pc.toNat + 4)) ∧
    t.pc = target s ∧ t.outcome = .continued ∧ SameRegsBut rd s t ∧ t.csrs = s.csrs ∧ t.mem = s.mem ∧ SameSession s t

/-- A meaning that writes the link register and moves the pc. -/
theorem linksAndGoesTo_of_exec {i : Instr} {rd : Reg} {target : State → Word}
    (h : ∀ s, exec i s = .next ((s.writeReg rd s.link).retire (target s))) : LinksAndGoesTo i rd target := by
  intro s
  refine ⟨_, h s, ?link, rfl, rfl, ?regs, by simp, by simp, by simp [SameSession]⟩
  case link => rw [State.readReg_retire, State.readReg_writeReg_same, State.link, add_four_eq_ofNat]
  case regs => exact fun r hr => s.readReg_writeReg_ne s.link hr

theorem exec_jal (rd : Reg) (offset : BitVec 21) (s : State) :
    exec (.jal rd offset) s = .next ((s.writeReg rd s.link).retire (s.pc + jumpOffset offset)) := rfl

theorem linksAndGoesTo_jal (rd : Reg) (offset : BitVec 21) :
    LinksAndGoesTo (.jal rd offset) rd (fun s => BitVec.ofInt 32 (s.pc.toNat + offset.toInt)) :=
  linksAndGoesTo_of_exec fun s => by rw [exec_jal, add_jumpOffset_eq_ofInt]

theorem decode_encodeJ (rd : Reg) {offset : BitVec 21} (h : evenOffset offset = true) :
    decode (encodeJ rd offset) = .instr (.jal rd offset) := by
  simp [decode, h]

/-- Settles O16: the meaning writes the link register and moves the pc by the signed offset; the word is its row's and
decodes to it. -/
theorem jalResult : Obligations.JalResult := by
  unfold Obligations.JalResult
  intro rd offset
  exact ⟨fun hwf => ⟨Laws.TableMatch.jal rd offset, decode_encodeJ rd hwf⟩, linksAndGoesTo_jal rd offset⟩

/-! ### The conditions -/

theorem lessSigned_iff (a b : Word) : lessSigned a b = true ↔ a.toInt < b.toInt :=
  BitVec.slt_iff_toInt_lt

theorem lessUnsigned_iff (a b : Word) : lessUnsigned a b = true ↔ a.toNat < b.toNat :=
  BitVec.ult_iff_lt

theorem not_lessSigned_iff (a b : Word) : (!lessSigned a b) = true ↔ a.toInt ≥ b.toInt := by
  rw [Bool.not_eq_true', ← Bool.not_eq_true, lessSigned_iff, not_lt]

theorem not_lessUnsigned_iff (a b : Word) : (!lessUnsigned a b) = true ↔ a.toNat ≥ b.toNat := by
  rw [Bool.not_eq_true', ← Bool.not_eq_true, lessUnsigned_iff, not_lt]

/-! ### A conditional branch (R220) -/

/-- Executing `i` continues at `pc` plus the offset in the states that meet the condition and at `pc + 4` in the others; nothing
else changes. -/
def BranchesWhen (i : Instr) (offset : BitVec 13) (taken : State → Prop) : Prop :=
  ∀ s, ∃ t, exec i s = .next t ∧
    ((taken s → t.pc = BitVec.ofInt 32 (s.pc.toNat + offset.toInt)) ∧
      (¬ taken s → t.pc = BitVec.ofNat 32 (s.pc.toNat + 4))) ∧
    OnlyMovesPc t.pc s t

theorem State.branchIf_true (s : State) (offset : BitVec 13) :
    s.branchIf true offset = s.retire (s.pc + branchOffset offset) := rfl

theorem State.branchIf_false (s : State) (offset : BitVec 13) : s.branchIf false offset = s.retire (s.pc + 4) := rfl

/-- A meaning that branches on a test of the condition. -/
theorem branchesWhen_of_exec {i : Instr} {offset : BitVec 13} {test : State → Bool} {taken : State → Prop}
    (hexec : ∀ s, exec i s = .next (s.branchIf (test s) offset)) (htest : ∀ s, test s = true ↔ taken s) :
    BranchesWhen i offset taken := by
  intro s
  refine ⟨_, hexec s, ⟨fun h => ?taken, fun h => ?fallsThrough⟩, onlyMovesPc_retire s _⟩
  case taken => rw [(htest s).mpr h, State.branchIf_true, State.retire_pc, add_branchOffset_eq_ofInt]
  case fallsThrough =>
    rw [Bool.eq_false_iff.mpr (mt (htest s).mp h), State.branchIf_false, State.retire_pc, add_four_eq_ofNat]

/-- Only the states that meet the condition matter. -/
theorem BranchesWhen.congr {i : Instr} {offset : BitVec 13} {taken taken' : State → Prop}
    (h : BranchesWhen i offset taken) (hiff : ∀ s, taken s ↔ taken' s) : BranchesWhen i offset taken' :=
  (funext fun s => propext (hiff s) : taken = taken') ▸ h

section
variable (rs1 rs2 : Reg) (offset : BitVec 13)

theorem branchesWhen_beq : BranchesWhen (.beq rs1 rs2 offset) offset (fun s => s.readReg rs1 = s.readReg rs2) :=
  branchesWhen_of_exec (fun _ => rfl) fun _ => beq_iff_eq

theorem branchesWhen_bne : BranchesWhen (.bne rs1 rs2 offset) offset (fun s => s.readReg rs1 ≠ s.readReg rs2) :=
  branchesWhen_of_exec (fun _ => rfl) fun _ => bne_iff_ne

theorem branchesWhen_blt :
    BranchesWhen (.blt rs1 rs2 offset) offset (fun s => (s.readReg rs1).toInt < (s.readReg rs2).toInt) :=
  branchesWhen_of_exec (fun _ => rfl) fun _ => lessSigned_iff _ _

theorem branchesWhen_bge :
    BranchesWhen (.bge rs1 rs2 offset) offset (fun s => (s.readReg rs1).toInt ≥ (s.readReg rs2).toInt) :=
  branchesWhen_of_exec (fun _ => rfl) fun _ => not_lessSigned_iff _ _

theorem branchesWhen_bltu :
    BranchesWhen (.bltu rs1 rs2 offset) offset (fun s => (s.readReg rs1).toNat < (s.readReg rs2).toNat) :=
  branchesWhen_of_exec (fun _ => rfl) fun _ => lessUnsigned_iff _ _

theorem branchesWhen_bgeu :
    BranchesWhen (.bgeu rs1 rs2 offset) offset (fun s => (s.readReg rs1).toNat ≥ (s.readReg rs2).toNat) :=
  branchesWhen_of_exec (fun _ => rfl) fun _ => not_lessUnsigned_iff _ _

end

/-- The word of a branch decodes by its function code alone. -/
theorem decode_encodeB (f3 : BitVec 3) (rs1 rs2 : Reg) {offset : BitVec 13} (h : evenOffset offset = true) :
    decode (encodeB f3 rs1 rs2 offset) = decodeBranch f3 rs1 rs2 offset := by
  simp [decode, h]

/-- The comparisons of a register with itself: the reflexive conditions always hold and the others never. -/
theorem branchesWhen_self (r : Reg) (offset : BitVec 13) :
    BranchesWhen (.beq r r offset) offset (fun _ => True) ∧ BranchesWhen (.bge r r offset) offset (fun _ => True) ∧
      BranchesWhen (.bgeu r r offset) offset (fun _ => True) ∧ BranchesWhen (.bne r r offset) offset (fun _ => False) ∧
      BranchesWhen (.blt r r offset) offset (fun _ => False) ∧ BranchesWhen (.bltu r r offset) offset (fun _ => False) :=
  ⟨(branchesWhen_beq r r offset).congr fun _ => iff_true_intro rfl,
    (branchesWhen_bge r r offset).congr fun _ => iff_true_intro le_rfl,
    (branchesWhen_bgeu r r offset).congr fun _ => iff_true_intro le_rfl,
    (branchesWhen_bne r r offset).congr fun _ => iff_false_intro (not_not_intro rfl),
    (branchesWhen_blt r r offset).congr fun _ => iff_false_intro (lt_irrefl _),
    (branchesWhen_bltu r r offset).congr fun _ => iff_false_intro (lt_irrefl _)⟩

/-- Settles O18: each branch tests its condition on the two registers, and its word is its row's and decodes to it. -/
theorem branchResults : Obligations.BranchResults := by
  unfold Obligations.BranchResults
  intro rs1 rs2 offset target branches
  refine ⟨branchesWhen_beq rs1 rs2 offset, branchesWhen_bne rs1 rs2 offset, branchesWhen_blt rs1 rs2 offset,
    branchesWhen_bge rs1 rs2 offset, branchesWhen_bltu rs1 rs2 offset, branchesWhen_bgeu rs1 rs2 offset,
    fun hwf => ⟨Laws.TableMatch.beq rs1 rs2 offset, decode_encodeB _ rs1 rs2 hwf⟩,
    fun hwf => ⟨Laws.TableMatch.bne rs1 rs2 offset, decode_encodeB _ rs1 rs2 hwf⟩,
    fun hwf => ⟨Laws.TableMatch.blt rs1 rs2 offset, decode_encodeB _ rs1 rs2 hwf⟩,
    fun hwf => ⟨Laws.TableMatch.bge rs1 rs2 offset, decode_encodeB _ rs1 rs2 hwf⟩,
    fun hwf => ⟨Laws.TableMatch.bltu rs1 rs2 offset, decode_encodeB _ rs1 rs2 hwf⟩,
    fun hwf => ⟨Laws.TableMatch.bgeu rs1 rs2 offset, decode_encodeB _ rs1 rs2 hwf⟩, ?self⟩
  case self =>
    rintro rfl
    exact branchesWhen_self rs1 offset

end Sys2Proof.Machine
end

section
/-! Register-immediate arithmetic, logic and shifts (43_integer_immediate.md R250 to R259): the results as numbers and as bits,
the meanings, their encodings, and the shift words that are no instruction. -/

namespace Sys2Proof.Machine

/-! ### Sums and comparisons -/

/-- Addition is the same for any signedness: here both operands are signed. -/
theorem add_eq_ofInt_toInt (w v : Word) : w + v = BitVec.ofInt 32 (w.toInt + v.toInt) := by
  rw [BitVec.ofInt_add, BitVec.ofInt_toInt, BitVec.ofInt_toInt]

theorem oneIf_lessSigned (a b : Word) : oneIf (lessSigned a b) = if a.toInt < b.toInt then 1 else 0 :=
  if_congr (lessSigned_iff a b) rfl rfl

theorem oneIf_lessUnsigned (a b : Word) : oneIf (lessUnsigned a b) = if a.toNat < b.toNat then 1 else 0 :=
  if_congr (lessUnsigned_iff a b) rfl rfl

/-! ### Bits -/

/-- R120: above its lowest 11 bits the extended immediate repeats the sign bit. -/
theorem getLsbD_immediate12 (imm : BitVec 12) {j : Nat} (hj : j < 32) :
    (immediate12 imm).getLsbD j = imm.getLsbD (min j 11) := by
  rw [immediate12, BitVec.getLsbD_signExtend, decide_eq_true hj, Bool.true_and]
  split
  case isTrue h => rw [Nat.min_eq_left (by omega)]
  case isFalse h => rw [Nat.min_eq_right (by omega), BitVec.msb_eq_getLsbD_last]

section
variable (w : Word) (imm : BitVec 12) {j : Nat} (hj : j < 32)
include hj

theorem getLsbD_xor_immediate12 :
    (w ^^^ immediate12 imm).getLsbD j = Bool.xor (w.getLsbD j) (imm.getLsbD (min j 11)) := by
  rw [BitVec.getLsbD_xor, getLsbD_immediate12 imm hj]

theorem getLsbD_or_immediate12 :
    (w ||| immediate12 imm).getLsbD j = Bool.or (w.getLsbD j) (imm.getLsbD (min j 11)) := by
  rw [BitVec.getLsbD_or, getLsbD_immediate12 imm hj]

theorem getLsbD_and_immediate12 :
    (w &&& immediate12 imm).getLsbD j = Bool.and (w.getLsbD j) (imm.getLsbD (min j 11)) := by
  rw [BitVec.getLsbD_and, getLsbD_immediate12 imm hj]

end

/-! ### Shifts by a number -/

theorem shiftLeft_eq_ofNat (w : Word) (n : Nat) : w <<< n = BitVec.ofNat 32 (w.toNat * 2 ^ n) :=
  BitVec.eq_of_toNat_eq (by rw [BitVec.toNat_shiftLeft, Nat.shiftLeft_eq, BitVec.toNat_ofNat])

theorem ushiftRight_eq_ofNat (w : Word) (n : Nat) : w >>> n = BitVec.ofNat 32 (w.toNat / 2 ^ n) := by
  rw [← Nat.shiftRight_eq_div_pow, ← BitVec.toNat_ushiftRight, BitVec.ofNat_toNat, BitVec.setWidth_eq]

/-- The division rounds down, as the copies of the sign bit do. -/
theorem sshiftRight_eq_ofInt (w : Word) (n : Nat) : w.sshiftRight n = BitVec.ofInt 32 (w.toInt / 2 ^ n) := by
  rw [← BitVec.ofInt_toInt (x := w.sshiftRight n), BitVec.toInt_sshiftRight, Int.shiftRight_eq_div_pow,
    Nat.cast_pow, Nat.cast_ofNat]

/-! ### The meanings -/

section
variable (rd rs1 : Reg) (imm : BitVec 12) (shamt : BitVec 5)

theorem gives_addi :
    Gives (.addi rd rs1 imm) rd (fun s => BitVec.ofInt 32 ((s.readReg rs1).toInt + imm.toInt)) :=
  gives_of_exec fun s => by rw [← toInt_immediate12, ← add_eq_ofInt_toInt]; rfl

theorem gives_slti :
    Gives (.slti rd rs1 imm) rd (fun s => if (s.readReg rs1).toInt < imm.toInt then 1 else 0) :=
  gives_of_exec fun s => by rw [← toInt_immediate12, ← oneIf_lessSigned]; rfl

theorem gives_sltiu :
    Gives (.sltiu rd rs1 imm) rd (fun s => if (s.readReg rs1).toNat < (imm.signExtend 32).toNat then 1 else 0) :=
  gives_of_exec fun s => by rw [← oneIf_lessUnsigned]; rfl

theorem gives_xori : Gives (.xori rd rs1 imm) rd (fun s => s.readReg rs1 ^^^ immediate12 imm) :=
  gives_of_exec fun _ => rfl

theorem gives_ori : Gives (.ori rd rs1 imm) rd (fun s => s.readReg rs1 ||| immediate12 imm) :=
  gives_of_exec fun _ => rfl

theorem gives_andi : Gives (.andi rd rs1 imm) rd (fun s => s.readReg rs1 &&& immediate12 imm) :=
  gives_of_exec fun _ => rfl

theorem gives_slli :
    Gives (.slli rd rs1 shamt) rd (fun s => BitVec.ofNat 32 ((s.readReg rs1).toNat * 2 ^ shamt.toNat)) :=
  gives_of_exec fun s => by rw [← shiftLeft_eq_ofNat]; rfl

theorem gives_srli :
    Gives (.srli rd rs1 shamt) rd (fun s => BitVec.ofNat 32 ((s.readReg rs1).toNat / 2 ^ shamt.toNat)) :=
  gives_of_exec fun s => by rw [← ushiftRight_eq_ofNat]; rfl

theorem gives_srai :
    Gives (.srai rd rs1 shamt) rd (fun s => BitVec.ofInt 32 ((s.readReg rs1).toInt / 2 ^ shamt.toNat)) :=
  gives_of_exec fun s => by rw [← sshiftRight_eq_ofInt]; rfl

end

/-! ### The encodings -/

/-- R127: the major opcode OP-IMM selects the table of R129. -/
theorem decode_of_opcodeOf_opImm {w : Word} (h : opcodeOf w = 0b0010011) :
    decode w = decodeOpImm (funct3Of w) (funct7Of w) (rdOf w) (rs1Of w) (immIOf w) (shamtOf w) := by
  rw [decode, h]
  rfl

theorem decode_encodeI_opImm (f3 : BitVec 3) (rd rs1 : Reg) (imm : BitVec 12) :
    decode (encodeI f3 0b0010011 rd rs1 imm) =
      decodeOpImm f3 (funct7Of (encodeI f3 0b0010011 rd rs1 imm)) rd rs1 imm
        (shamtOf (encodeI f3 0b0010011 rd rs1 imm)) := by
  rw [decode_of_opcodeOf_opImm (opcodeOf_encodeI ..), funct3Of_encodeI, rdOf_encodeI, rs1Of_encodeI, immIOf_encodeI]

theorem decode_encodeShift (f7 : BitVec 7) (f3 : BitVec 3) (rd rs1 : Reg) (shamt : BitVec 5) :
    decode (encodeShift f7 f3 rd rs1 shamt) =
      decodeOpImm f3 f7 rd rs1 (immIOf (encodeShift f7 f3 rd rs1 shamt)) shamt := by
  rw [decode_of_opcodeOf_opImm (opcodeOf_encodeShift ..), funct3Of_encodeShift, funct7Of_encodeShift, rdOf_encodeShift,
    rs1Of_encodeShift, shamtOf_encodeShift]

/-- Settles O21: each meaning is one register write, its value read as numbers or bit by bit, and the word of each is its row's
and decodes to it by funct3 alone. -/
theorem immediateArithmeticResults : Obligations.ImmediateArithmeticResults := by
  unfold Obligations.ImmediateArithmeticResults
  intro rd rs1 imm x immBit bitwise
  exact ⟨gives_addi rd rs1 imm, gives_slti rd rs1 imm, gives_sltiu rd rs1 imm,
    ⟨_, gives_xori rd rs1 imm, fun s _ hj => getLsbD_xor_immediate12 (s.readReg rs1) imm hj⟩,
    ⟨_, gives_ori rd rs1 imm, fun s _ hj => getLsbD_or_immediate12 (s.readReg rs1) imm hj⟩,
    ⟨_, gives_andi rd rs1 imm, fun s _ hj => getLsbD_and_immediate12 (s.readReg rs1) imm hj⟩,
    fun _ => ⟨Laws.TableMatch.addi rd rs1 imm, decode_encodeI_opImm _ rd rs1 imm⟩,
    fun _ => ⟨Laws.TableMatch.slti rd rs1 imm, decode_encodeI_opImm _ rd rs1 imm⟩,
    fun _ => ⟨Laws.TableMatch.sltiu rd rs1 imm, decode_encodeI_opImm _ rd rs1 imm⟩,
    fun _ => ⟨Laws.TableMatch.xori rd rs1 imm, decode_encodeI_opImm _ rd rs1 imm⟩,
    fun _ => ⟨Laws.TableMatch.ori rd rs1 imm, decode_encodeI_opImm _ rd rs1 imm⟩,
    fun _ => ⟨Laws.TableMatch.andi rd rs1 imm, decode_encodeI_opImm _ rd rs1 imm⟩⟩

/-! ### Shift words with other function bits (R259) -/

theorem decodeShiftLeft_of_ne {f7 : BitVec 7} (h : f7 ≠ 0b0000000) (rd rs1 : Reg) (shamt : BitVec 5) :
    decodeShiftLeft f7 rd rs1 shamt = .illegal .reservedImmediate := by
  unfold decodeShiftLeft
  split
  · exact absurd rfl h
  · rfl

theorem decodeShiftRight_of_ne {f7 : BitVec 7} (h0 : f7 ≠ 0b0000000) (h1 : f7 ≠ 0b0100000) (rd rs1 : Reg)
    (shamt : BitVec 5) : decodeShiftRight f7 rd rs1 shamt = .illegal .reservedImmediate := by
  unfold decodeShiftRight
  split
  · exact absurd rfl h0
  · exact absurd rfl h1
  · rfl

theorem decode_eq_reservedImmediate {w : Word} (hop : opcodeOf w = 0b0010011)
    (h : (funct3Of w = 0b001 ∧ funct7Of w ≠ 0b0000000) ∨
      (funct3Of w = 0b101 ∧ funct7Of w ≠ 0b0000000 ∧ funct7Of w ≠ 0b0100000)) :
    decode w = .illegal .reservedImmediate := by
  rw [decode_of_opcodeOf_opImm hop]
  rcases h with ⟨h3, h7⟩ | ⟨h3, h7, h7'⟩ <;> rw [h3]
  · exact decodeShiftLeft_of_ne h7 _ _ _
  · exact decodeShiftRight_of_ne h7 h7' _ _ _

/-- R130: a fetched word that is no instruction raises the illegal-instruction exception with the word. -/
theorem fetchDecodeExecute_of_illegal {s : State} {w : Word} {why : Illegal} (hw : s.memRead .fetch s.pc 4 = .ok w)
    (hd : decode w = .illegal why) : fetchDecodeExecute s = .next (s.takeTrap (.illegalInstruction w)) := by
  simp only [fetchDecodeExecute, hw, hd]

/-- Settles O22: the reserved shift words decode as illegal, so their step traps; each meaning is one register write of a
multiple or a quotient by a power of two, and the word of each is its row's and decodes to it by funct3 and funct7. -/
theorem immediateShiftResults : Obligations.ImmediateShiftResults := by
  unfold Obligations.ImmediateShiftResults
  refine ⟨fun s w hw hop h => fetchDecodeExecute_of_illegal hw (decode_eq_reservedImmediate hop h),
    fun rd rs1 shamt => ?results⟩
  case results =>
    exact ⟨gives_slli rd rs1 shamt, gives_srli rd rs1 shamt, gives_srai rd rs1 shamt,
      fun _ => ⟨Laws.TableMatch.slli rd rs1 shamt, decode_encodeShift _ _ rd rs1 shamt⟩,
      fun _ => ⟨Laws.TableMatch.srli rd rs1 shamt, decode_encodeShift _ _ rd rs1 shamt⟩,
      fun _ => ⟨Laws.TableMatch.srai rd rs1 shamt, decode_encodeShift _ _ rd rs1 shamt⟩⟩

end Sys2Proof.Machine
end

section
/-! Register-register arithmetic, logic and shifts (44_integer_register.md R270 to R280): the difference and the shift amount as
numbers, the meanings, and their encodings. -/

namespace Sys2Proof.Machine

/-! ### The values -/

theorem sub_eq_ofInt_toInt (w v : Word) : w - v = BitVec.ofInt 32 (w.toInt - v.toInt) := by
  rw [sub_eq_add_neg, sub_eq_add_neg, BitVec.ofInt_add, BitVec.ofInt_neg, BitVec.ofInt_toInt, BitVec.ofInt_toInt]

/-- R280: the low five bits are the register's number modulo 32. -/
theorem shiftAmount_eq_mod (v : Word) : shiftAmount v = v.toNat % 32 :=
  BitVec.extractLsb'_toNat 0 5 v

/-! ### The meanings -/

section
variable (rd rs1 rs2 : Reg)

theorem gives_add :
    Gives (.add rd rs1 rs2) rd (fun s => BitVec.ofInt 32 ((s.readReg rs1).toInt + (s.readReg rs2).toInt)) :=
  gives_of_exec fun s => by rw [← add_eq_ofInt_toInt]; rfl

theorem gives_sub :
    Gives (.sub rd rs1 rs2) rd (fun s => BitVec.ofInt 32 ((s.readReg rs1).toInt - (s.readReg rs2).toInt)) :=
  gives_of_exec fun s => by rw [← sub_eq_ofInt_toInt]; rfl

theorem gives_sll :
    Gives (.sll rd rs1 rs2) rd
      (fun s => BitVec.ofNat 32 ((s.readReg rs1).toNat * 2 ^ ((s.readReg rs2).toNat % 32))) :=
  gives_of_exec fun s => by rw [← shiftAmount_eq_mod, ← shiftLeft_eq_ofNat]; rfl

theorem gives_slt :
    Gives (.slt rd rs1 rs2) rd (fun s => if (s.readReg rs1).toInt < (s.readReg rs2).toInt then 1 else 0) :=
  gives_of_exec fun s => by rw [← oneIf_lessSigned]; rfl

theorem gives_sltu :
    Gives (.sltu rd rs1 rs2) rd (fun s => if (s.readReg rs1).toNat < (s.readReg rs2).toNat then 1 else 0) :=
  gives_of_exec fun s => by rw [← oneIf_lessUnsigned]; rfl

theorem gives_xor : Gives (.xor rd rs1 rs2) rd (fun s => s.readReg rs1 ^^^ s.readReg rs2) :=
  gives_of_exec fun _ => rfl

theorem gives_srl :
    Gives (.srl rd rs1 rs2) rd
      (fun s => BitVec.ofNat 32 ((s.readReg rs1).toNat / 2 ^ ((s.readReg rs2).toNat % 32))) :=
  gives_of_exec fun s => by rw [← shiftAmount_eq_mod, ← ushiftRight_eq_ofNat]; rfl

theorem gives_sra :
    Gives (.sra rd rs1 rs2) rd
      (fun s => BitVec.ofInt 32 ((s.readReg rs1).toInt / 2 ^ ((s.readReg rs2).toNat % 32))) :=
  gives_of_exec fun s => by rw [← shiftAmount_eq_mod, ← sshiftRight_eq_ofInt]; rfl

theorem gives_or : Gives (.or rd rs1 rs2) rd (fun s => s.readReg rs1 ||| s.readReg rs2) :=
  gives_of_exec fun _ => rfl

theorem gives_and : Gives (.and rd rs1 rs2) rd (fun s => s.readReg rs1 &&& s.readReg rs2) :=
  gives_of_exec fun _ => rfl

end

/-! ### The encodings -/

/-- R127, R129: the word of a register-register instruction decodes by its two function codes. -/
theorem decode_encodeR_op (f7 : BitVec 7) (f3 : BitVec 3) (rd rs1 rs2 : Reg) :
    decode (encodeR f7 f3 0b0110011 rd rs1 rs2) = decodeOp f7 f3 rd rs1 rs2 := by
  simp [decode]

/-- Settles O23: each meaning is one register write, its value read as numbers or bit by bit with the shift amount modulo 32,
and the word of each is its row's and decodes to it by funct7 and funct3. -/
theorem registerArithmeticResults : Obligations.RegisterArithmeticResults := by
  unfold Obligations.RegisterArithmeticResults
  intro rd rs1 rs2 x y bitwise
  exact ⟨gives_add rd rs1 rs2, gives_sub rd rs1 rs2, gives_sll rd rs1 rs2, gives_slt rd rs1 rs2, gives_sltu rd rs1 rs2,
    ⟨_, gives_xor rd rs1 rs2, fun _ _ _ => BitVec.getLsbD_xor⟩, gives_srl rd rs1 rs2, gives_sra rd rs1 rs2,
    ⟨_, gives_or rd rs1 rs2, fun _ _ _ => BitVec.getLsbD_or⟩, ⟨_, gives_and rd rs1 rs2, fun _ _ _ => BitVec.getLsbD_and⟩,
    fun _ => ⟨Laws.TableMatch.add rd rs1 rs2, decode_encodeR_op _ _ rd rs1 rs2⟩,
    fun _ => ⟨Laws.TableMatch.sub rd rs1 rs2, decode_encodeR_op _ _ rd rs1 rs2⟩,
    fun _ => ⟨Laws.TableMatch.sll rd rs1 rs2, decode_encodeR_op _ _ rd rs1 rs2⟩,
    fun _ => ⟨Laws.TableMatch.slt rd rs1 rs2, decode_encodeR_op _ _ rd rs1 rs2⟩,
    fun _ => ⟨Laws.TableMatch.sltu rd rs1 rs2, decode_encodeR_op _ _ rd rs1 rs2⟩,
    fun _ => ⟨Laws.TableMatch.xor rd rs1 rs2, decode_encodeR_op _ _ rd rs1 rs2⟩,
    fun _ => ⟨Laws.TableMatch.srl rd rs1 rs2, decode_encodeR_op _ _ rd rs1 rs2⟩,
    fun _ => ⟨Laws.TableMatch.sra rd rs1 rs2, decode_encodeR_op _ _ rd rs1 rs2⟩,
    fun _ => ⟨Laws.TableMatch.or rd rs1 rs2, decode_encodeR_op _ _ rd rs1 rs2⟩,
    fun _ => ⟨Laws.TableMatch.and rd rs1 rs2, decode_encodeR_op _ _ rd rs1 rs2⟩⟩

end Sys2Proof.Machine
end

section
/-! Multiply, divide and remainder (45_multiply_divide.md R290 to R299): the halves of a product, the quotients and remainders as
numbers, the edge cases, the meanings, and their encodings. -/

namespace Sys2Proof.Machine

/-! ### Products -/

/-- R291: the low half does not depend on the operands' signedness, as both products narrow to the product of words. -/
theorem ofNat_mul_toNat_eq_ofInt (a b : Word) :
    BitVec.ofNat 32 (a.toNat * b.toNat) = BitVec.ofInt 32 (a.toInt * b.toInt) :=
  calc
    BitVec.ofNat 32 (a.toNat * b.toNat) = a * b := rfl
    _ = BitVec.ofInt 32 (a.toInt * b.toInt) := by rw [BitVec.ofInt_mul, BitVec.ofInt_toInt, BitVec.ofInt_toInt]

/-- The two roundings of the quotient agree, as the divisor is positive. -/
theorem highHalf_eq_ofInt (p : Int) : highHalf p = BitVec.ofInt 32 (p / 2 ^ 32) := by
  rw [highHalf, Int.fdiv_eq_ediv_of_nonneg p (by decide)]

theorem highHalf_natCast (n : Nat) : highHalf n = BitVec.ofNat 32 (n / 2 ^ 32) := by
  rw [highHalf_eq_ofInt, ← BitVec.ofInt_natCast, Int.natCast_ediv, Nat.cast_pow, Nat.cast_ofNat]

/-- R292 to R294: the high half is bits 63:32 of the product in 64 bits. -/
theorem highHalf_eq_extractLsb' (p : Int) : highHalf p = (BitVec.ofInt 64 p).extractLsb' 32 32 := by
  apply BitVec.eq_of_toNat_eq
  rw [highHalf_eq_ofInt, BitVec.toNat_ofInt, BitVec.extractLsb'_toNat, BitVec.toNat_ofInt, Nat.shiftRight_eq_div_pow]
  omega

theorem ofInt_toInt_eq_signExtend (a : Word) : BitVec.ofInt 64 a.toInt = a.signExtend 64 := rfl

theorem ofInt_toNat_eq_setWidth (a : Word) : BitVec.ofInt 64 a.toNat = a.setWidth 64 := by
  rw [BitVec.ofInt_natCast, BitVec.ofNat_toNat]

section
variable (a b : Word)

theorem highHalf_signed :
    highHalf (a.toInt * b.toInt) = (a.signExtend 64 * b.signExtend 64).extractLsb' 32 32 := by
  rw [highHalf_eq_extractLsb', BitVec.ofInt_mul, ofInt_toInt_eq_signExtend, ofInt_toInt_eq_signExtend]

theorem highHalf_signedUnsigned :
    highHalf (a.toInt * b.toNat) = (a.signExtend 64 * b.setWidth 64).extractLsb' 32 32 := by
  rw [highHalf_eq_extractLsb', BitVec.ofInt_mul, ofInt_toInt_eq_signExtend, ofInt_toNat_eq_setWidth]

theorem highHalf_unsigned :
    highHalf (a.toNat * b.toNat) = (a.setWidth 64 * b.setWidth 64).extractLsb' 32 32 := by
  rw [highHalf_eq_extractLsb', BitVec.ofInt_mul, ofInt_toNat_eq_setWidth, ofInt_toNat_eq_setWidth]

/-! ### Quotients and remainders -/

/-- The overflow needs no case of its own: its quotient 2^31 narrows to the word R299 gives. -/
theorem divSigned_eq_ofInt :
    divSigned a b = BitVec.ofInt 32 (if b.toInt = 0 then -1 else a.toInt.tdiv b.toInt) := by
  unfold divSigned
  split_ifs with hb hab
  · rfl
  · obtain ⟨ha, hb'⟩ := hab
    rw [ha, hb']
    rfl
  · rfl

/-- The overflow needs no case of its own: -2^31 is a multiple of -1, and R299 gives the remainder 0. -/
theorem remSigned_eq_ofInt :
    remSigned a b = BitVec.ofInt 32 (if b.toInt = 0 then a.toInt else a.toInt.tmod b.toInt) := by
  unfold remSigned
  split_ifs with hb hab
  · rw [BitVec.ofInt_toInt]
  · obtain ⟨ha, hb'⟩ := hab
    rw [ha, hb']
    rfl
  · rw [Int.tmod_def]

theorem divUnsigned_eq_ofNat :
    divUnsigned a b = if b.toNat = 0 then 0xFFFFFFFF else BitVec.ofNat 32 (a.toNat / b.toNat) :=
  if_congr BitVec.toNat_inj.symm rfl rfl

theorem remUnsigned_eq_ofNat :
    remUnsigned a b = BitVec.ofNat 32 (if b.toNat = 0 then a.toNat else a.toNat % b.toNat) := by
  rw [apply_ite (BitVec.ofNat 32), BitVec.ofNat_toNat, BitVec.setWidth_eq]
  exact if_congr BitVec.toNat_inj.symm rfl rfl

end

/-! ### The edge cases (R299) -/

section
variable {a b : Word}

theorem divSigned_of_zero (h : b = 0) : divSigned a b = 0xFFFFFFFF := by rw [h]; rfl

theorem divUnsigned_of_zero (h : b = 0) : divUnsigned a b = 0xFFFFFFFF := if_pos h

theorem remSigned_of_zero (h : b = 0) : remSigned a b = a := by rw [h]; rfl

theorem remUnsigned_of_zero (h : b = 0) : remUnsigned a b = a := if_pos h

theorem divSigned_of_overflow (h : a = 0x80000000 ∧ b = 0xFFFFFFFF) : divSigned a b = 0x80000000 := by
  rw [h.left, h.right]; decide

theorem remSigned_of_overflow (h : a = 0x80000000 ∧ b = 0xFFFFFFFF) : remSigned a b = 0 := by
  rw [h.left, h.right]; decide

/-! ### The division identity outside them -/

theorem toInt_ne_zero (h : b ≠ 0) : b.toInt ≠ 0 :=
  BitVec.toInt_ne.mpr h

/-- Without overflow the quotient toward zero is in range, so it narrows to itself. -/
theorem toInt_divSigned (hb : b ≠ 0) (h : ¬ (a = 0x80000000 ∧ b = 0xFFFFFFFF)) :
    (divSigned a b).toInt = a.toInt.tdiv b.toInt := by
  rw [divSigned_eq_ofInt, if_neg (toInt_ne_zero hb), BitVec.toInt_ofInt, ← BitVec.toInt_sdiv]
  exact BitVec.toInt_sdiv_of_ne_or_ne a b (not_and_or.mp h)

/-- A remainder is always in range. -/
theorem toInt_remSigned (hb : b ≠ 0) : (remSigned a b).toInt = a.toInt.tmod b.toInt := by
  rw [remSigned_eq_ofInt, if_neg (toInt_ne_zero hb), ← BitVec.toInt_srem, BitVec.ofInt_toInt]

end

theorem natAbs_tmod_lt (x : Int) {y : Int} (h : y ≠ 0) : (x.tmod y).natAbs < y.natAbs := by
  rw [Int.natAbs_tmod]
  exact Nat.mod_lt _ (Int.natAbs_pos.mpr h)

/-- A remainder that is not 0 has the sign of the dividend. -/
theorem tmod_neg_iff {x y : Int} (h : x.tmod y ≠ 0) : x.tmod y < 0 ↔ x < 0 := by
  have hdvd : ¬ y ∣ x := fun hd => h (Int.tmod_eq_zero_of_dvd hd)
  rw [← Int.sign_eq_neg_one_iff_neg, Int.sign_tmod, if_neg hdvd, Int.sign_eq_neg_one_iff_neg]

/-- R299: outside the edge cases, the quotient and the remainder of the machine are those of division toward zero. -/
theorem division_identity {a b : Word} (hb : b ≠ 0) (h : ¬ (a = 0x80000000 ∧ b = 0xFFFFFFFF)) :
    a.toInt = b.toInt * (divSigned a b).toInt + (remSigned a b).toInt ∧
    (remSigned a b).toInt.natAbs < b.toInt.natAbs ∧
    ((remSigned a b).toInt ≠ 0 → ((remSigned a b).toInt < 0 ↔ a.toInt < 0)) := by
  rw [toInt_divSigned hb h, toInt_remSigned hb]
  exact ⟨(Int.mul_tdiv_add_tmod _ _).symm, natAbs_tmod_lt _ (toInt_ne_zero hb), tmod_neg_iff⟩

/-! ### The meanings -/

section
variable (rd rs1 rs2 : Reg)

theorem gives_mul :
    Gives (.mul rd rs1 rs2) rd (fun s => BitVec.ofNat 32 ((s.readReg rs1).toNat * (s.readReg rs2).toNat)) :=
  gives_of_exec fun _ => rfl

theorem gives_mul_signed :
    Gives (.mul rd rs1 rs2) rd (fun s => BitVec.ofInt 32 ((s.readReg rs1).toInt * (s.readReg rs2).toInt)) :=
  gives_of_exec fun s => by rw [← ofNat_mul_toNat_eq_ofInt]; rfl

theorem gives_mulh :
    Gives (.mulh rd rs1 rs2) rd
      (fun s => BitVec.ofInt 32 ((s.readReg rs1).toInt * (s.readReg rs2).toInt / 2 ^ 32)) :=
  gives_of_exec fun s => by rw [← highHalf_eq_ofInt]; rfl

theorem gives_mulhsu :
    Gives (.mulhsu rd rs1 rs2) rd
      (fun s => BitVec.ofInt 32 ((s.readReg rs1).toInt * (s.readReg rs2).toNat / 2 ^ 32)) :=
  gives_of_exec fun s => by rw [← highHalf_eq_ofInt]; rfl

theorem gives_mulhu :
    Gives (.mulhu rd rs1 rs2) rd
      (fun s => BitVec.ofNat 32 ((s.readReg rs1).toNat * (s.readReg rs2).toNat / 2 ^ 32)) :=
  gives_of_exec fun s => by rw [← highHalf_natCast, Nat.cast_mul]; rfl

theorem gives_div :
    Gives (.div rd rs1 rs2) rd
      (fun s => BitVec.ofInt 32
        (if (s.readReg rs2).toInt = 0 then -1 else (s.readReg rs1).toInt.tdiv (s.readReg rs2).toInt)) :=
  gives_of_exec fun s => by rw [← divSigned_eq_ofInt]; rfl

theorem gives_divu :
    Gives (.divu rd rs1 rs2) rd
      (fun s => if (s.readReg rs2).toNat = 0 then 0xFFFFFFFF
        else BitVec.ofNat 32 ((s.readReg rs1).toNat / (s.readReg rs2).toNat)) :=
  gives_of_exec fun s => by rw [← divUnsigned_eq_ofNat]; rfl

theorem gives_rem :
    Gives (.rem rd rs1 rs2) rd
      (fun s => BitVec.ofInt 32
        (if (s.readReg rs2).toInt = 0 then (s.readReg rs1).toInt
          else (s.readReg rs1).toInt.tmod (s.readReg rs2).toInt)) :=
  gives_of_exec fun s => by rw [← remSigned_eq_ofInt]; rfl

theorem gives_remu :
    Gives (.remu rd rs1 rs2) rd
      (fun s => BitVec.ofNat 32
        (if (s.readReg rs2).toNat = 0 then (s.readReg rs1).toNat
          else (s.readReg rs1).toNat % (s.readReg rs2).toNat)) :=
  gives_of_exec fun s => by rw [← remUnsigned_eq_ofNat]; rfl

end

/-- Settles O24: each meaning is one register write of a half of the exact product, the low half read with either signedness,
and the word of each is its row's and decodes to it by funct7 and funct3. -/
theorem multiplyResults : Obligations.MultiplyResults := by
  unfold Obligations.MultiplyResults
  intro rd rs1 rs2 x y
  exact ⟨gives_mul rd rs1 rs2, gives_mul_signed rd rs1 rs2, gives_mulh rd rs1 rs2, gives_mulhsu rd rs1 rs2,
    gives_mulhu rd rs1 rs2,
    fun _ => ⟨Laws.TableMatch.mul rd rs1 rs2, decode_encodeR_op _ _ rd rs1 rs2⟩,
    fun _ => ⟨Laws.TableMatch.mulh rd rs1 rs2, decode_encodeR_op _ _ rd rs1 rs2⟩,
    fun _ => ⟨Laws.TableMatch.mulhsu rd rs1 rs2, decode_encodeR_op _ _ rd rs1 rs2⟩,
    fun _ => ⟨Laws.TableMatch.mulhu rd rs1 rs2, decode_encodeR_op _ _ rd rs1 rs2⟩⟩

/-- Settles O25: each meaning is one register write of a quotient or a remainder, where a signed overflow needs no case of its
own, and the word of each is its row's and decodes to it by funct7 and funct3. -/
theorem divideResults : Obligations.DivideResults := by
  unfold Obligations.DivideResults
  intro rd rs1 rs2 x y
  exact ⟨gives_div rd rs1 rs2, gives_divu rd rs1 rs2, gives_rem rd rs1 rs2, gives_remu rd rs1 rs2,
    fun _ => ⟨Laws.TableMatch.div rd rs1 rs2, decode_encodeR_op _ _ rd rs1 rs2⟩,
    fun _ => ⟨Laws.TableMatch.divu rd rs1 rs2, decode_encodeR_op _ _ rd rs1 rs2⟩,
    fun _ => ⟨Laws.TableMatch.rem rd rs1 rs2, decode_encodeR_op _ _ rd rs1 rs2⟩,
    fun _ => ⟨Laws.TableMatch.remu rd rs1 rs2, decode_encodeR_op _ _ rd rs1 rs2⟩⟩

/-- Settles O26: each result is the register the meaning wrote, so the clauses are facts about the words `divSigned`,
`remSigned` and `highHalf` give: the edge cases, the halves in 64 bits, and the division identity. -/
theorem divisionEdgeCases : Obligations.DivisionEdgeCases := by
  unfold Obligations.DivisionEdgeCases
  intro rd rs1 rs2 s hrd a b
  refine ⟨_, _, _, _, _, _, _, rfl, rfl, rfl, rfl, rfl, rfl, rfl, ?results⟩
  simp only [State.readReg_writeNext_same, if_neg hrd]
  exact ⟨fun h => ⟨divSigned_of_zero h, divUnsigned_of_zero h, remSigned_of_zero h, remUnsigned_of_zero h⟩,
    fun h => ⟨divSigned_of_overflow h, remSigned_of_overflow h⟩,
    highHalf_signed a b, highHalf_signedUnsigned a b, highHalf_unsigned a b, division_identity⟩

end Sys2Proof.Machine
end

section
/-! The return from a trap (60_exceptions.md R415), and how a session ends (R455, R508): what of the stub takes the run
controller from DEBUG back to RUN. -/

namespace Sys2Proof.Machine

/-! ### MRET (R415) -/

theorem exec_mret (s : State) : exec .mret s = .next s.returnFromTrap := rfl

/-- A return from a trap writes mstatus and no other CSR. -/
theorem readCsr_returnFromTrap_of_ne (s : State) {c : Csr} (hc : c ≠ .mstatus) :
    readCsr s.returnFromTrap.csrs c = readCsr s.csrs c :=
  readCsr_updateCsr_ne s.csrs (mstatusReturn s.csrs.mstatus) hc

/-- Settles O28: MRET is `returnFromTrap`, which writes the fields of mstatus bit by bit, the pc and the outcome, and no
more. -/
theorem mretRestoresAndReturns : Obligations.MretRestoresAndReturns := by
  unfold Obligations.MretRestoresAndReturns
  intro s
  exact ⟨s.returnFromTrap, exec_mret s, getLsbD_mstatusReturn s.csrs.mstatus, s.returnFromTrap_pc,
    s.returnFromTrap_outcome, fun _ => readCsr_returnFromTrap_of_ne s, s.returnFromTrap_regs, s.returnFromTrap_mem,
    SameSession.refl s⟩

/-! ### The command `c` (R508) -/

theorem parseReadMemory_ne_resume (bytes : List Byte) : parseReadMemory bytes ≠ .resume := by
  unfold parseReadMemory
  split <;> exact Command.noConfusion

theorem parseWriteMemory_ne_resume (bytes : List Byte) : parseWriteMemory bytes ≠ .resume := by
  unfold parseWriteMemory
  repeat' split
  all_goals exact Command.noConfusion

/-- Only a payload whose first byte is `c` is the command that ends a session. -/
theorem head?_of_parseCommand_eq_resume {p : List Byte} (h : parseCommand p = .resume) : p.head? = some (ascii 'c') := by
  cases p with
  | nil => exact absurd h Command.noConfusion
  | cons b bs =>
    by_cases hb : b = ascii 'c'
    · rw [hb, List.head?_cons]
    · have hne : parseCommand (b :: bs) ≠ .resume := by
        simp only [parseCommand, if_neg hb]
        repeat' split
        all_goals simp [parseReadMemory_ne_resume, parseWriteMemory_ne_resume]
      exact absurd h hne

/-! ### The end of a session (R455) -/

@[simp] theorem State.receiveByte_chanIn (s : State) (b : Byte) : (s.receiveByte b).chanIn = s.chanIn := by
  rcases s.receiveByte_cases b with ⟨_, _, _, _, h⟩ | ⟨_, _, _, _, h⟩ | ⟨_, _, _, h, _⟩ <;> simp [h]

/-- A byte that changes the mode is the last of a packet that is accepted and whose command is `c`. -/
theorem State.receiveByte_mode_ne {s : State} {b : Byte} (h : (s.receiveByte b).mode ≠ s.mode) :
    ∃ sum h1, s.rx = .checksumLow sum h1 ∧ checksumMatches sum h1 b = true ∧ s.inbuf.head? = some (ascii 'c') := by
  rcases s.receiveByte_cases b with ⟨sum, h1, hrx, hm, he⟩ | ⟨_, _, _, _, he⟩ | ⟨_, _, _, he, _⟩
  case inl =>
    by_cases hc : parseCommand s.inbuf = .resume
    · exact ⟨sum, h1, hrx, hm, head?_of_parseCommand_eq_resume hc⟩
    · exact absurd (by simp [he, State.runCommand_mode _ hc]) h
  case inr.inl => exact absurd (by simp [he]) h
  case inr.inr => exact absurd (by simp [he]) h

/-- In RUN a step is an iteration of the controller. -/
theorem step_of_run {s : State} (h : s.mode = .run) : step s = runIteration s := by
  simp only [step, controllerStep, h]

/-- In DEBUG a step is a step of the session. -/
theorem step_of_debug {s : State} (h : s.mode = .debug) : step s = .next s.sessionStep := by
  simp only [step, controllerStep, h]

/-- Settles O50: the step takes a byte of the session, and of the receiver's cases only the `c` of an accepted packet leaves
DEBUG; the mode it then stands in is RUN, where the next step is an iteration. -/
theorem sessionsEndOnlyByResume : Obligations.SessionsEndOnlyByResume := by
  unfold Obligations.SessionsEndOnlyByResume
  intro s t hs hstep ht
  refine ⟨?ended, step_of_run ht⟩
  cases (step_of_debug hs).symm.trans hstep
  rcases s.sessionStep_cases with ⟨h2, rest, hnext, he⟩ | ⟨_, he⟩
  · have hmode : ({ s with chanIn := rest }.receiveByte h2).mode ≠ s.mode := by
      rw [← he, ht, hs]
      exact Mode.noConfusion
    obtain ⟨sum, h1, hrx, hmatch, hcmd⟩ := State.receiveByte_mode_ne hmode
    exact ⟨sum, h1, h2, rest, hrx, hnext, hmatch, hcmd, by simp [he]⟩
  · simp [he, hs] at ht

end Sys2Proof.Machine
end

section
/-! The decoder and the encoder are inverse to each other (30_encoding.md R111 to R132), and the decoder follows the rows of the
opcode table (R130). -/

namespace Sys2Proof.Machine

/-! ### The word of an instruction decodes to it -/

/-- R128: the word of a load decodes by funct3 alone. -/
theorem decode_encodeI_load (f3 : BitVec 3) (rd rs1 : Reg) (imm : BitVec 12) :
    decode (encodeI f3 0b0000011 rd rs1 imm) = decodeLoad f3 rd rs1 imm := by
  simp [decode]

/-- R128: the word of a store decodes by funct3 alone. -/
theorem decode_encodeS (f3 : BitVec 3) (rs2 rs1 : Reg) (imm : BitVec 12) :
    decode (encodeS f3 rs2 rs1 imm) = decodeStore f3 rs2 rs1 imm := by
  simp [decode]

theorem decode_encodeI_jalr (f3 : BitVec 3) (rd rs1 : Reg) (imm : BitVec 12) :
    decode (encodeI f3 0b1100111 rd rs1 imm) = decodeJalr f3 rd rs1 imm := by
  simp [decode]

/-- R127: the major opcode SYSTEM selects the table of R132. -/
theorem decode_of_opcodeOf_system {w : Word} (h : opcodeOf w = 0b1110011) : decode w = decodeSystem w := by
  rw [decode, h]
  rfl

/-- The word of a CSR instruction decodes by funct3 alone, whatever the number (R132). -/
theorem decode_encode_csr (rd : Reg) (csr : BitVec 12) (rs1 : Reg) :
    decode (encode (.csrrw rd csr rs1)) = .instr (.csrrw rd csr rs1) ∧
    decode (encode (.csrrs rd csr rs1)) = .instr (.csrrs rd csr rs1) ∧
    decode (encode (.csrrc rd csr rs1)) = .instr (.csrrc rd csr rs1) := by
  simp [decode, decodeSystem, encode]

/-- Settles O2: each format's word decodes by its function codes, with the operands of its fields. -/
theorem decodeOfEncodeIsTheInstruction : Obligations.DecodeOfEncodeIsTheInstruction := by
  unfold Obligations.DecodeOfEncodeIsTheInstruction
  intro i hwf
  cases i
  case lui rd imm => exact decode_encode_lui rd imm
  case auipc rd imm => exact decode_encode_auipc rd imm
  case jal rd offset => exact decode_encodeJ rd hwf
  case jalr rd rs1 imm => exact decode_encodeI_jalr _ rd rs1 imm
  case beq | bne | blt | bge | bltu | bgeu => exact decode_encodeB _ _ _ hwf
  case lb | lh | lw | lbu | lhu => exact decode_encodeI_load _ _ _ _
  case sb | sh | sw => exact decode_encodeS _ _ _ _
  case addi | slti | sltiu | xori | ori | andi => exact decode_encodeI_opImm _ _ _ _
  case slli | srli | srai => exact decode_encodeShift _ _ _ _ _
  case ecall | ebreak | mret | wfi => decide
  case csrrw rd csr rs1 => exact (decode_encode_csr rd csr rs1).1
  case csrrs rd csr rs1 => exact (decode_encode_csr rd csr rs1).2.1
  case csrrc rd csr rs1 => exact (decode_encode_csr rd csr rs1).2.2
  all_goals exact decode_encodeR_op _ _ _ _ _

/-! ### A word that decodes is the word of its instruction -/

section
variable {w : Word} {i : Instr}

/-- LUI and AUIPC have no code but the major opcode. -/
theorem encodeU_of_opcodeOf {op : BitVec 7} (hop : opcodeOf w = op) : encodeU op (rdOf w) (immUOf w) = w := by
  rw [← hop]
  exact encodeU_fields w

theorem encode_of_decodeJalr (hop : opcodeOf w = 0b1100111)
    (h : decodeJalr (funct3Of w) (rdOf w) (rs1Of w) (immIOf w) = .instr i) : i.wf = true ∧ encode i = w := by
  have hw := encodeI_fields w
  rw [hop] at hw
  generalize funct3Of w = f3 at hw h
  unfold decodeJalr at h
  split at h <;> cases h
  exact ⟨rfl, hw⟩

theorem encode_of_decodeBranch (hop : opcodeOf w = 0b1100011)
    (h : decodeBranch (funct3Of w) (rs1Of w) (rs2Of w) (immBOf w) = .instr i) : i.wf = true ∧ encode i = w := by
  have hw := encodeB_fields w hop
  generalize funct3Of w = f3 at hw h
  unfold decodeBranch at h
  split at h <;> cases h
  all_goals exact ⟨evenOffset_immBOf w, hw⟩

theorem encode_of_decodeLoad (hop : opcodeOf w = 0b0000011)
    (h : decodeLoad (funct3Of w) (rdOf w) (rs1Of w) (immIOf w) = .instr i) : i.wf = true ∧ encode i = w := by
  have hw := encodeI_fields w
  rw [hop] at hw
  generalize funct3Of w = f3 at hw h
  unfold decodeLoad at h
  split at h <;> cases h
  all_goals exact ⟨rfl, hw⟩

theorem encode_of_decodeStore (hop : opcodeOf w = 0b0100011)
    (h : decodeStore (funct3Of w) (rs2Of w) (rs1Of w) (immSOf w) = .instr i) : i.wf = true ∧ encode i = w := by
  have hw := encodeS_fields w hop
  generalize funct3Of w = f3 at hw h
  unfold decodeStore at h
  split at h <;> cases h
  all_goals exact ⟨rfl, hw⟩

/-- The word's immediate is read by the six operations, its funct7 and shift amount by the shifts. -/
theorem encode_of_decodeOpImm (hop : opcodeOf w = 0b0010011)
    (h : decodeOpImm (funct3Of w) (funct7Of w) (rdOf w) (rs1Of w) (immIOf w) (shamtOf w) = .instr i) :
    i.wf = true ∧ encode i = w := by
  have hI := encodeI_fields w
  rw [hop] at hI
  have hShift := encodeShift_fields w hop
  generalize funct3Of w = f3 at hI hShift h
  generalize funct7Of w = f7 at hShift h
  unfold decodeOpImm at h
  split at h
  case h_7 =>
    unfold decodeShiftLeft at h
    split at h <;> cases h
    exact ⟨rfl, hShift⟩
  case h_8 =>
    unfold decodeShiftRight at h
    split at h <;> cases h
    all_goals exact ⟨rfl, hShift⟩
  all_goals cases h
  all_goals exact ⟨rfl, hI⟩

theorem encode_of_decodeOp (hop : opcodeOf w = 0b0110011)
    (h : decodeOp (funct7Of w) (funct3Of w) (rdOf w) (rs1Of w) (rs2Of w) = .instr i) : i.wf = true ∧ encode i = w := by
  have hw := encodeR_fields w
  rw [hop] at hw
  generalize funct3Of w = f3 at hw h
  generalize funct7Of w = f7 at hw h
  unfold decodeOp at h
  split at h
  case h_1 =>
    unfold decodeOpBase at h
    split at h <;> cases h
    all_goals exact ⟨rfl, hw⟩
  case h_2 =>
    unfold decodeOpAlternate at h
    split at h <;> cases h
    all_goals exact ⟨rfl, hw⟩
  case h_3 =>
    unfold decodeOpMulDiv at h
    split at h <;> cases h
    all_goals exact ⟨rfl, hw⟩
  case h_4 => cases h

theorem encode_of_decodeSystem (hop : opcodeOf w = 0b1110011) (h : decodeSystem w = .instr i) :
    i.wf = true ∧ encode i = w := by
  have hw := encodeI_fields w
  rw [hop] at hw
  unfold decodeSystem at h
  generalize funct3Of w = f3 at hw h
  split at h
  case h_1 =>
    unfold decodeSystemWord at h
    split at h <;> cases h
    all_goals exact ⟨rfl, rfl⟩
  all_goals cases h
  all_goals exact ⟨rfl, hw⟩

end

/-- Settles O3: under each major opcode, the instruction read from the fields of the word is encoded from the same fields. -/
theorem encodeOfDecodedIsTheWord : Obligations.EncodeOfDecodedIsTheWord := by
  unfold Obligations.EncodeOfDecodedIsTheWord
  intro w i h
  unfold decode at h
  split at h
  case h_1 hop => cases h; exact ⟨rfl, encodeU_of_opcodeOf hop⟩
  case h_2 hop => cases h; exact ⟨rfl, encodeU_of_opcodeOf hop⟩
  case h_3 hop => cases h; exact ⟨evenOffset_immJOf w, encodeJ_fields w hop⟩
  case h_4 hop => exact encode_of_decodeJalr hop h
  case h_5 hop => exact encode_of_decodeBranch hop h
  case h_6 hop => exact encode_of_decodeLoad hop h
  case h_7 hop => exact encode_of_decodeStore hop h
  case h_8 hop => exact encode_of_decodeOpImm hop h
  case h_9 hop => exact encode_of_decodeOp hop h
  case h_10 hop => exact encode_of_decodeSystem hop h
  case h_11 => cases h

/-! ### The rows of the opcode table -/

theorem row_mem_opcodeTable (i : Instr) : i.row ∈ opcodeTable := by
  cases i <;> exact of_decide_eq_true rfl

/-- The word of an instruction is selected by its own row. -/
theorem row_selects_encode (i : Instr) : i.row.selects (encode i) := by
  cases i
  case lui | auipc => exact encodeU_masked _ _ _
  case jal => exact encodeJ_masked _ _
  case beq | bne | blt | bge | bltu | bgeu => exact encodeB_masked _ _ _ _
  case sb | sh | sw => exact encodeS_masked _ _ _ _
  case slli | srli | srai => exact encodeShift_masked _ _ _ _ _
  case jalr | lb | lh | lw | lbu | lhu | addi | slti | sltiu | xori | ori | andi | csrrw | csrrs | csrrc =>
    exact encodeI_masked _ _ _ _ _
  case ecall => exact Laws.TableMatch.ecall
  case ebreak => exact Laws.TableMatch.ebreak
  case mret => exact Laws.TableMatch.mret
  case wfi => exact Laws.TableMatch.wfi
  all_goals exact encodeR_masked _ _ _ _ _ _

/-- The major opcodes of the rows that have no function code: LUI, AUIPC and JAL (R127). -/
abbrev SelectedByOpcode (op : BitVec 7) : Prop := op ∈ [0x37, 0x17, 0x6F]

/-- The major opcodes and function codes of the rows that funct3 completes (R128, R129, R132). -/
abbrev SelectedByFunct3 (op : BitVec 7) (f3 : BitVec 3) : Prop :=
  (op = 0x67 ∧ f3 = 0) ∨ (op = 0x63 ∧ f3 ∈ [0, 1, 4, 5, 6, 7]) ∨ (op = 0x03 ∧ f3 ∈ [0, 1, 2, 4, 5]) ∨
    (op = 0x23 ∧ f3 ∈ [0, 1, 2]) ∨ (op = 0x13 ∧ f3 ∈ [0, 2, 3, 4, 6, 7]) ∨ (op = 0x73 ∧ f3 ∈ [1, 2, 3])

/-- The major opcodes and function codes of the rows that funct7 completes: the shifts by an immediate and OP (R129). -/
abbrev SelectedByFunct7 (op : BitVec 7) (f3 : BitVec 3) (f7 : BitVec 7) : Prop :=
  (op = 0x13 ∧ ((f3 = 1 ∧ f7 = 0x00) ∨ (f3 = 5 ∧ f7 ∈ [0x00, 0x20]))) ∨
    (op = 0x33 ∧ (f7 = 0x00 ∨ f7 = 0x01 ∨ (f7 = 0x20 ∧ f3 ∈ [0, 5])))

/-- The words that are a row of their own: ECALL, EBREAK, MRET and WFI (R132). -/
abbrev SelectedByWord (w : Word) : Prop := w ∈ [0x00000073, 0x00100073, 0x30200073, 0x10500073]

/-- A row selects by one of four masks, and its pattern then has the codes that complete it. -/
theorem opcodeTable_cases : ∀ r ∈ opcodeTable,
    (r.mask = 0x0000007F ∧ SelectedByOpcode (opcodeOf r.pattern)) ∨
    (r.mask = 0x0000707F ∧ SelectedByFunct3 (opcodeOf r.pattern) (funct3Of r.pattern)) ∨
    (r.mask = 0xFE00707F ∧ SelectedByFunct7 (opcodeOf r.pattern) (funct3Of r.pattern) (funct7Of r.pattern)) ∨
    (r.mask = 0xFFFFFFFF ∧ SelectedByWord r.pattern) := by
  decide

section
variable {w : Word}

theorem decodes_of_selectedByOpcode (h : SelectedByOpcode (opcodeOf w)) : ∃ i, decode w = .instr i := by
  simp only [SelectedByOpcode, List.mem_cons, List.not_mem_nil, or_false] at h
  rcases h with h | h | h <;> simp [decode, h]

theorem decodes_of_selectedByFunct3 (h : SelectedByFunct3 (opcodeOf w) (funct3Of w)) : ∃ i, decode w = .instr i := by
  simp only [SelectedByFunct3, List.mem_cons, List.not_mem_nil, or_false] at h
  rcases h with ⟨hop, h⟩ | ⟨hop, h⟩ | ⟨hop, h⟩ | ⟨hop, h⟩ | ⟨hop, h⟩ | ⟨hop, h⟩
  · simp [decode, hop, h, decodeJalr]
  · rcases h with h | h | h | h | h | h <;> simp [decode, hop, h, decodeBranch]
  · rcases h with h | h | h | h | h <;> simp [decode, hop, h, decodeLoad]
  · rcases h with h | h | h <;> simp [decode, hop, h, decodeStore]
  · rcases h with h | h | h | h | h | h <;> simp [decode, hop, h, decodeOpImm]
  · rcases h with h | h | h <;> simp [decode, hop, h, decodeSystem]

/-- OP with funct7 = 0000000 or 0000001 has an instruction for every funct3. -/
theorem decodeOp_base_and_mulDiv (f3 : BitVec 3) (rd rs1 rs2 : Reg) :
    (∃ i, decodeOpBase f3 rd rs1 rs2 = .instr i) ∧ ∃ i, decodeOpMulDiv f3 rd rs1 rs2 = .instr i := by
  have hf3 : f3 = 0 ∨ f3 = 1 ∨ f3 = 2 ∨ f3 = 3 ∨ f3 = 4 ∨ f3 = 5 ∨ f3 = 6 ∨ f3 = 7 := by revert f3; decide
  rcases hf3 with rfl | rfl | rfl | rfl | rfl | rfl | rfl | rfl <;> exact ⟨⟨_, rfl⟩, _, rfl⟩

theorem decodes_of_selectedByFunct7 (h : SelectedByFunct7 (opcodeOf w) (funct3Of w) (funct7Of w)) :
    ∃ i, decode w = .instr i := by
  simp only [SelectedByFunct7, List.mem_cons, List.not_mem_nil, or_false] at h
  rcases h with ⟨hop, ⟨h3, h7⟩ | ⟨h3, h7 | h7⟩⟩ | ⟨hop, h7 | h7 | ⟨h7, h3 | h3⟩⟩
  · simp [decode, hop, h3, h7, decodeOpImm, decodeShiftLeft]
  · simp [decode, hop, h3, h7, decodeOpImm, decodeShiftRight]
  · simp [decode, hop, h3, h7, decodeOpImm, decodeShiftRight]
  · simpa [decode, hop, h7, decodeOp] using (decodeOp_base_and_mulDiv _ _ _ _).1
  · simpa [decode, hop, h7, decodeOp] using (decodeOp_base_and_mulDiv _ _ _ _).2
  · simp [decode, hop, h3, h7, decodeOp, decodeOpAlternate]
  · simp [decode, hop, h3, h7, decodeOp, decodeOpAlternate]

theorem decodes_of_selectedByWord (h : SelectedByWord w) : ∃ i, decode w = .instr i := by
  simp only [SelectedByWord, List.mem_cons, List.not_mem_nil, or_false] at h
  rcases h with rfl | rfl | rfl | rfl <;> exact ⟨_, rfl⟩

/-! A mask keeps a field of which it has every bit. -/

theorem opcodeOf_and {m : Word} (hm : opcodeOf m = BitVec.allOnes 7) : opcodeOf (w &&& m) = opcodeOf w := by
  rw [opcodeOf, BitVec.extractLsb'_and, ← opcodeOf, ← opcodeOf, hm, BitVec.and_allOnes]

theorem funct3Of_and {m : Word} (hm : funct3Of m = BitVec.allOnes 3) : funct3Of (w &&& m) = funct3Of w := by
  rw [funct3Of, BitVec.extractLsb'_and, ← funct3Of, ← funct3Of, hm, BitVec.and_allOnes]

theorem funct7Of_and {m : Word} (hm : funct7Of m = BitVec.allOnes 7) : funct7Of (w &&& m) = funct7Of w := by
  rw [funct7Of, BitVec.extractLsb'_and, ← funct7Of, ← funct7Of, hm, BitVec.and_allOnes]

/-- A word that a row selects has the codes of the row's pattern, which are an instruction's. -/
theorem decodes_of_selects {r : OpcodeRow} (hr : r ∈ opcodeTable) (hw : r.selects w) : ∃ i, decode w = .instr i := by
  rcases opcodeTable_cases r hr with ⟨hmask, h⟩ | ⟨hmask, h⟩ | ⟨hmask, h⟩ | ⟨hmask, h⟩ <;>
    rw [OpcodeRow.selects, hmask] at hw <;> rw [← hw] at h
  · rw [opcodeOf_and rfl] at h
    exact decodes_of_selectedByOpcode h
  · rw [opcodeOf_and rfl, funct3Of_and rfl] at h
    exact decodes_of_selectedByFunct3 h
  · rw [opcodeOf_and rfl, funct3Of_and rfl, funct7Of_and rfl] at h
    exact decodes_of_selectedByFunct7 h
  · rw [show w &&& 0xFFFFFFFF = w from BitVec.and_allOnes] at h
    exact decodes_of_selectedByWord h

/-- An instruction's own row selects the words that decode to it. -/
theorem row_selects_of_decode {i : Instr} (h : decode w = .instr i) : i.row.selects w := by
  have hsel := row_selects_encode i
  rwa [(encodeOfDecodedIsTheWord w i h).2] at hsel

end

/-- Settles O4: the words an instruction's row selects are its encodings, and a word with the codes of a row decodes. -/
theorem decodeFollowsOpcodeTable : Obligations.DecodeFollowsOpcodeTable := by
  unfold Obligations.DecodeFollowsOpcodeTable
  intro w
  refine ⟨fun i h => ⟨row_mem_opcodeTable i, row_selects_of_decode h⟩, fun ⟨why, h⟩ r hr hsel => ?selected, fun hno => ?none⟩
  case selected =>
    obtain ⟨i, hi⟩ := decodes_of_selects hr hsel
    cases h.symm.trans hi
  case none =>
    cases h : decode w with
    | instr i => exact absurd (row_selects_of_decode h) (hno _ (row_mem_opcodeTable i))
    | illegal why => exact ⟨why, rfl⟩

/-! ### The reserved spaces -/

/-- The ten major opcodes of R127. -/
abbrev majorOpcodes : List (BitVec 7) := [0x37, 0x17, 0x6F, 0x67, 0x63, 0x03, 0x23, 0x13, 0x33, 0x73]

/-- A word under another major opcode is no instruction (R130). -/
theorem decode_of_opcodeOf_not_mem {w : Word} (h : opcodeOf w ∉ majorOpcodes) : decode w = .illegal .opcode := by
  unfold decode
  split
  case h_11 => rfl
  all_goals next hop => exact absurd (hop ▸ by decide) h

/-- R131: SYSTEM has no instruction with funct3 = 100 to 111. -/
theorem decodeSystem_of_funct3_ge {w : Word} (h : 4 ≤ (funct3Of w).toNat) : decodeSystem w = .illegal .functionField := by
  unfold decodeSystem
  split
  case h_5 => rfl
  all_goals next h3 => exact absurd (h3 ▸ h) (by decide)

/-- The low two bits of a word are those of its major opcode. -/
theorem extractLsb'_opcodeOf (w : Word) : (opcodeOf w).extractLsb' 0 2 = w.extractLsb' 0 2 := by
  ext j hj
  simp [opcodeOf]

/-- Settles O5: each space but that of SYSTEM has a major opcode that is none of the ten, which all end in 11. -/
theorem reservedSpacesAreIllegal : Obligations.ReservedSpacesAreIllegal := by
  unfold Obligations.ReservedSpacesAreIllegal
  intro w h
  rcases h with h | ⟨h, h3⟩ | h | h | h | h | h
  case inr.inl => exact ⟨_, (decode_of_opcodeOf_system h).trans (decodeSystem_of_funct3_ge h3)⟩
  case inr.inr.inr.inr.inr.inr =>
    have hlow : ∀ op ∈ majorOpcodes, op.extractLsb' 0 2 = 0b11 := by decide
    exact ⟨_, decode_of_opcodeOf_not_mem fun hmem => h (extractLsb'_opcodeOf w ▸ hlow _ hmem)⟩
  all_goals exact ⟨_, decode_of_opcodeOf_not_mem (h ▸ by decide)⟩

/-- Settles O1: each word is run through the decoder. -/
theorem decodesWrittenOutWords : Obligations.DecodesWrittenOutWords := by
  unfold Obligations.DecodesWrittenOutWords
  decide

end Sys2Proof.Machine
end

section
/-! Loads, stores and JALR: the bytes of a loaded value, the effective address and the target as sums modulo 2^32
(42_loads_stores.md R230 to R239, 41_control_transfer.md R211), and what memory gives back (20_memory.md R86, 10_state.md R55). -/

namespace Sys2Proof.Machine

/-- An instruction's own row selects its word, which decodes to it. -/
theorem encodedAs_row (i : Instr) : EncodedAs i i.row.pattern i.row.mask :=
  fun hwf => ⟨row_selects_encode i, decodeOfEncodeIsTheInstruction i hwf⟩

/-! ### JALR (R211) -/

/-- Clearing bit 0 rounds down to an even number. -/
theorem toNat_and_clearBit0 (w : Word) : (w &&& 0xFFFFFFFE).toNat = 2 * (w.toNat / 2) := by
  have hw : w = w.extractLsb' 1 31 ++ w.extractLsb' 0 1 := by
    rw [extractLsb'_join _ 1 (by decide)]
    exact BitVec.extractLsb'_eq_self.symm
  have hand : w &&& 0xFFFFFFFE = w.extractLsb' 1 31 ++ 0#1 := by
    conv_lhs => rw [hw, show (0xFFFFFFFE : Word) = BitVec.allOnes 31 ++ 0#1 by decide, BitVec.and_append]
    simp only [BitVec.and_allOnes, BitVec.and_zero]
  rw [hand, toNat_append_eq_add, BitVec.extractLsb'_toNat, Nat.shiftRight_eq_div_pow, BitVec.toNat_zero]
  have := w.isLt
  omega

/-- The rounding can be done before the sum is narrowed, as 2^32 is even. -/
theorem ofInt_and_clearBit0 (n : Int) : BitVec.ofInt 32 n &&& 0xFFFFFFFE = BitVec.ofInt 32 (2 * (n / 2)) := by
  apply BitVec.eq_of_toNat_eq
  rw [toNat_and_clearBit0, BitVec.toNat_ofInt, BitVec.toNat_ofInt]
  omega

theorem State.jalrTarget_eq_ofInt (s : State) (rs1 : Reg) (imm : BitVec 12) :
    s.jalrTarget rs1 imm = BitVec.ofInt 32 (2 * (((s.readReg rs1).toInt + imm.toInt) / 2)) := by
  rw [State.jalrTarget, add_eq_ofInt_toInt, toInt_immediate12, ofInt_and_clearBit0]

theorem exec_jalr (rd rs1 : Reg) (imm : BitVec 12) (s : State) :
    exec (.jalr rd rs1 imm) s = .next ((s.writeReg rd s.link).retire (s.jalrTarget rs1 imm)) := rfl

theorem linksAndGoesTo_jalr (rd rs1 : Reg) (imm : BitVec 12) :
    LinksAndGoesTo (.jalr rd rs1 imm) rd
      (fun s => BitVec.ofInt 32 (2 * (((s.readReg rs1).toInt + imm.toInt) / 2))) :=
  linksAndGoesTo_of_exec fun s => by rw [exec_jalr, State.jalrTarget_eq_ofInt]

/-- Settles O17: the meaning writes the link register and moves the pc to the sum, rounded down to an even number. -/
theorem jalrResult : Obligations.JalrResult := by
  unfold Obligations.JalrResult
  intro rd rs1 imm
  exact ⟨encodedAs_row (.jalr rd rs1 imm), linksAndGoesTo_jalr rd rs1 imm⟩

/-! ### The value of loaded bytes -/

/-- The first byte is the lowest, and the value of the others is cut to the 24 bits above it. -/
theorem toNat_ofBytesLE_cons (b : Byte) (bs : List Byte) :
    (ofBytesLE (b :: bs)).toNat = b.toNat + 256 * ((ofBytesLE bs).toNat % 2 ^ 24) := by
  have hshift : (ofBytesLE bs <<< 8).toNat = ((ofBytesLE bs).toNat % 2 ^ 24) <<< 8 := by
    rw [BitVec.toNat_shiftLeft, Nat.shiftLeft_eq, Nat.shiftLeft_eq]
    omega
  rw [ofBytesLE, BitVec.toNat_or, hshift, BitVec.toNat_setWidth_of_le (by decide), Nat.or_comm,
    ← Nat.shiftLeft_add_eq_or_of_lt b.isLt, Nat.shiftLeft_eq]
  omega

theorem toNat_ofBytesLE_one (b : Byte) : (ofBytesLE [b]).toNat = b.toNat := by
  rw [toNat_ofBytesLE_cons]; rfl

theorem toNat_ofBytesLE_two (b0 b1 : Byte) : (ofBytesLE [b0, b1]).toNat = b0.toNat + 256 * b1.toNat := by
  rw [toNat_ofBytesLE_cons, toNat_ofBytesLE_one]
  omega

theorem ofBytesLE_four (b0 b1 b2 b3 : Byte) : ofBytesLE [b0, b1, b2, b3] = b3 ++ (b2 ++ (b1 ++ b0)) := by
  apply BitVec.eq_of_toNat_eq
  simp only [toNat_ofBytesLE_cons, toNat_append_eq_add]
  omega

theorem signExtend8_ofBytesLE (b : Byte) : signExtend8 (ofBytesLE [b]) = BitVec.ofInt 32 b.toInt := by
  have hb : (ofBytesLE [b]).setWidth 8 = b :=
    BitVec.eq_of_toNat_eq (by rw [BitVec.toNat_setWidth, toNat_ofBytesLE_one]; exact Nat.mod_eq_of_lt b.isLt)
  rw [signExtend8, hb]; rfl

theorem signExtend16_ofBytesLE (b0 b1 : Byte) :
    signExtend16 (ofBytesLE [b0, b1]) = BitVec.ofInt 32 (b1 ++ b0).toInt := by
  have hb : (ofBytesLE [b0, b1]).setWidth 16 = b1 ++ b0 := by
    apply BitVec.eq_of_toNat_eq
    rw [BitVec.toNat_setWidth, toNat_ofBytesLE_two, toNat_append_eq_add]
    omega
  rw [signExtend16, hb]; rfl

theorem zeroExtend8_ofBytesLE (b : Byte) : zeroExtend8 (ofBytesLE [b]) = BitVec.ofNat 32 b.toNat := by
  apply BitVec.eq_of_toNat_eq
  rw [zeroExtend8, BitVec.toNat_setWidth, BitVec.toNat_setWidth, toNat_ofBytesLE_one, BitVec.toNat_ofNat]
  omega

theorem zeroExtend16_ofBytesLE (b0 b1 : Byte) :
    zeroExtend16 (ofBytesLE [b0, b1]) = BitVec.ofNat 32 (b0.toNat + 256 * b1.toNat) := by
  apply BitVec.eq_of_toNat_eq
  rw [zeroExtend16, BitVec.toNat_setWidth, BitVec.toNat_setWidth, toNat_ofBytesLE_two, BitVec.toNat_ofNat]
  omega

/-! ### Loads (R230 to R235) -/

theorem State.effectiveAddress_eq_ofInt (s : State) (rs1 : Reg) (imm : BitVec 12) :
    s.effectiveAddress rs1 imm = BitVec.ofInt 32 ((s.readReg rs1).toNat + imm.toInt) := by
  rw [State.effectiveAddress, add_eq_ofInt, toInt_immediate12]

section
variable {s : State} {rs1 : Reg} {imm : BitVec 12} {width : Nat}

theorem State.load_of_valid (h : (s.effectiveAddress rs1 imm).toNat + (width - 1) < s.cfg.memSize) (rd : Reg)
    (widen : Word → Word) :
    s.load rd rs1 imm width widen =
      s.writeNext rd (widen (ofBytesLE (s.mem.readBytes (s.effectiveAddress rs1 imm).toNat width))) := by
  rcases s.load_cases rd rs1 imm width widen with ⟨_, hl⟩ | ⟨hn, _⟩
  · exact hl
  · exact absurd h hn

theorem State.load_of_invalid (h : ¬ (s.effectiveAddress rs1 imm).toNat + (width - 1) < s.cfg.memSize) (rd : Reg)
    (widen : Word → Word) :
    s.load rd rs1 imm width widen = s.takeTrap (.access ⟨.load, s.effectiveAddress rs1 imm⟩) := by
  rcases s.load_cases rd rs1 imm width widen with ⟨hv, _⟩ | ⟨_, hl⟩
  · exact absurd hv h
  · exact hl

theorem State.store_of_valid (h : (s.effectiveAddress rs1 imm).toNat + (width - 1) < s.cfg.memSize) (rs2 : Reg) :
    s.store rs2 rs1 imm width =
      { s with mem := s.mem.writeBytes (s.effectiveAddress rs1 imm).toNat (bytesLE width (s.readReg rs2)) }.retire
        (s.pc + 4) := by
  rcases s.store_cases rs2 rs1 imm width with ⟨_, hs⟩ | ⟨hn, _⟩
  · exact hs
  · exact absurd h hn

theorem State.store_of_invalid (h : ¬ (s.effectiveAddress rs1 imm).toNat + (width - 1) < s.cfg.memSize) (rs2 : Reg) :
    s.store rs2 rs1 imm width = s.takeTrap (.access ⟨.store, s.effectiveAddress rs1 imm⟩) := by
  rcases s.store_cases rs2 rs1 imm width with ⟨hv, _⟩ | ⟨_, hs⟩
  · exact absurd hv h
  · exact hs

end

/-- A meaning that is a load. -/
theorem loadsInto_of_exec {i : Instr} {rd rs1 : Reg} {imm : BitVec 12} {width : Nat} {widen : Word → Word}
    {v : State → Word} (hexec : ∀ s, exec i s = .next (s.load rd rs1 imm width widen))
    (hv : ∀ s, widen (ofBytesLE (s.mem.readBytes (s.effectiveAddress rs1 imm).toNat width)) = v s) :
    LoadsInto i rd width (fun s => s.effectiveAddress rs1 imm) v := by
  refine ⟨fun s hvalid => ⟨_, hexec s, ?read⟩, fun s hvalid => ⟨_, hexec s, ?fault⟩⟩
  case read =>
    rw [State.load_of_valid hvalid, hv]
    exact writesAndFallsThrough_writeNext s rd (v s)
  case fault =>
    rw [State.load_of_invalid hvalid]
    exact entersTrap_takeTrap s (.access ⟨.load, s.effectiveAddress rs1 imm⟩)

/-- Settles O19: each load reads the bytes at the effective address and extends their value, or takes the load fault. -/
theorem loadResults : Obligations.LoadResults := by
  unfold Obligations.LoadResults
  intro rd rs1 imm ea byte
  have hea : ea = fun s => s.effectiveAddress rs1 imm := funext fun s => (s.effectiveAddress_eq_ofInt rs1 imm).symm
  clear_value ea
  subst hea
  exact ⟨loadsInto_of_exec (fun _ => rfl) fun _ => signExtend8_ofBytesLE _,
    loadsInto_of_exec (fun _ => rfl) fun _ => signExtend16_ofBytesLE _ _,
    loadsInto_of_exec (fun _ => rfl) fun _ => ofBytesLE_four _ _ _ _,
    loadsInto_of_exec (fun _ => rfl) fun _ => zeroExtend8_ofBytesLE _,
    loadsInto_of_exec (fun _ => rfl) fun _ => zeroExtend16_ofBytesLE _ _,
    encodedAs_row (.lb rd rs1 imm), encodedAs_row (.lh rd rs1 imm), encodedAs_row (.lw rd rs1 imm),
    encodedAs_row (.lbu rd rs1 imm), encodedAs_row (.lhu rd rs1 imm)⟩

/-! ### Stores (R236 to R238) -/

/-- A meaning that is a store. -/
theorem storesTo_of_exec {i : Instr} {rs2 rs1 : Reg} {imm : BitVec 12} {width : Nat}
    (hexec : ∀ s, exec i s = .next (s.store rs2 rs1 imm width)) :
    StoresTo i width (fun s => s.effectiveAddress rs1 imm) (fun s => s.readReg rs2) := by
  refine ⟨fun s hvalid => ⟨_, hexec s, ?written⟩, fun s hvalid => ⟨_, hexec s, ?fault⟩⟩
  case written =>
    rw [State.store_of_valid hvalid]
    exact ⟨rfl, rfl, stores_writeBytes_bytesLE s (s.effectiveAddress rs1 imm).toNat width (s.readReg rs2)⟩
  case fault =>
    rw [State.store_of_invalid hvalid]
    exact entersTrap_takeTrap s (.access ⟨.store, s.effectiveAddress rs1 imm⟩)

/-- Settles O20: each store writes the low bytes of its register at the effective address, or takes the store fault. -/
theorem storeResults : Obligations.StoreResults := by
  unfold Obligations.StoreResults
  intro rs2 rs1 imm ea
  have hea : ea = fun s => s.effectiveAddress rs1 imm := funext fun s => (s.effectiveAddress_eq_ofInt rs1 imm).symm
  clear_value ea
  subst hea
  exact ⟨storesTo_of_exec fun _ => rfl, storesTo_of_exec fun _ => rfl, storesTo_of_exec fun _ => rfl,
    encodedAs_row (.sb rs2 rs1 imm), encodedAs_row (.sh rs2 rs1 imm), encodedAs_row (.sw rs2 rs1 imm)⟩

/-! ### What was stored is read back (20_memory.md R86, R97) -/

theorem State.memRead_of_valid {s : State} {a : Word} {width : Nat} (h : a.toNat + (width - 1) < s.cfg.memSize)
    (kind : AccessKind) : s.memRead kind a width = .ok (ofBytesLE (s.mem.readBytes a.toNat width)) := by
  rcases s.memRead_cases kind a width with ⟨_, hr⟩ | ⟨hn, _⟩
  · exact hr
  · exact absurd h hn

/-- The four bytes of a word, written and read at one address, have its value. -/
theorem Memory.ofBytesLE_readBytes_writeBytes (m : Memory) (a : Nat) (v : Word) :
    ofBytesLE ((m.writeBytes a (bytesLE 4 v)).readBytes a 4) = v := by
  have h := m.readBytes_writeBytes a (bytesLE 4 v)
  rw [length_bytesLE] at h
  rw [h, ofBytesLE_bytesLE_four]

/-- Settles O9: the load and the fetch read the four bytes that the store wrote at the same address. -/
theorem storedWordIsReadBack : Obligations.StoredWordIsReadBack := by
  unfold Obligations.StoredWordIsReadBack
  intro s rs2 rs1 rd base imm imm' t hvalid hexec hea
  have ht : t = _ := (Host.Outcome.next.inj hexec).symm.trans (State.store_of_valid hvalid rs2)
  have htea : t.effectiveAddress base imm' = s.effectiveAddress rs1 imm := by rw [ht]; exact hea
  have htvalid : (t.effectiveAddress base imm').toNat + (4 - 1) < t.cfg.memSize := by rw [htea, ht]; exact hvalid
  have hbytes : ofBytesLE (t.mem.readBytes (s.effectiveAddress rs1 imm).toNat 4) = s.readReg rs2 := by
    rw [ht]; exact Memory.ofBytesLE_readBytes_writeBytes _ _ _
  have hpc : t.pc = s.pc + 4 := by rw [ht]; rfl
  refine ⟨⟨t.writeNext rd (s.readReg rs2), ?load, by simp, by simp [hpc, add_assoc], by simp⟩, ?fetch⟩
  case load => rw [← hbytes, ← htea]; exact congrArg _ (State.load_of_valid htvalid rd id)
  case fetch => rw [← htea, State.memRead_of_valid htvalid, htea, hbytes]

/-! ### The canonical form (10_state.md R55) -/

/-- In canonical form the cells are the addresses that do not read 0, each with what it reads. -/
theorem Memory.mem_iff {m : Memory} (h : m.wf) (c : Host.Cell) : c ∈ m ↔ m.get c.1 = c.2 ∧ c.2 ≠ 0 := by
  induction m with
  | nil => exact iff_of_false List.not_mem_nil fun ⟨h0, hne⟩ => hne h0.symm
  | cons d m ih =>
    obtain ⟨⟨hlt, hsorted⟩, hd, hne⟩ := h.imp List.pairwise_cons.mp List.forall_mem_cons.mp
    have ih := ih ⟨hsorted, hne⟩
    by_cases hc : d.1 = c.1
    · have hcm : c ∉ m := fun hmem => absurd (hlt c hmem) (by omega)
      rw [Memory.get, if_pos hc, List.mem_cons, or_iff_left hcm]
      exact ⟨by rintro rfl; exact ⟨rfl, hd⟩, fun ⟨hv, _⟩ => Prod.ext hc.symm hv.symm⟩
    · have hcd : c ≠ d := fun e => hc (e ▸ rfl)
      rw [Memory.get, if_neg hc, ← ih, List.mem_cons, or_iff_right hcd]

/-- Settles O10: the cells of a canonical memory are what it reads, in the order of their addresses. -/
theorem canonicalMemoriesAreEqualData : Obligations.CanonicalMemoriesAreEqualData := by
  unfold Obligations.CanonicalMemoriesAreEqualData
  intro m n hm hn h
  have hirrefl : Std.Irrefl fun c d : Host.Cell => c.1 < d.1 := ⟨fun _ => lt_irrefl _⟩
  have hantisymm : Std.Antisymm fun c d : Host.Cell => c.1 < d.1 := ⟨fun _ _ hcd hdc => absurd hdc (lt_asymm hcd)⟩
  exact hm.1.eq_of_mem_iff hn.1 fun c => by rw [Memory.mem_iff hm, Memory.mem_iff hn, h]

end Sys2Proof.Machine
end

section
/-! System and CSR instructions, and the exceptions they take (46_system.md R311 to R319; 60_exceptions.md R400 to R411). -/

namespace Sys2Proof.Machine

/-! ### ECALL, EBREAK, WFI and the way back -/

theorem exec_ecall (s : State) : exec .ecall s = .next (s.takeTrap .environmentCall) := rfl

theorem exec_ebreak (s : State) : exec .ebreak s = .next (s.takeTrap .breakpoint) := rfl

theorem exec_wfi (s : State) : exec .wfi s = .next (s.retire (s.pc + 4)) := rfl

/-- Settles O27: two meanings are trap entry, and that of WFI moves the pc. -/
theorem ecallEbreakAndWfiResults : Obligations.EcallEbreakAndWfiResults := by
  unfold Obligations.EcallEbreakAndWfiResults
  exact ⟨fun s => ⟨_, exec_ecall s, entersTrap_takeTrap s .environmentCall⟩,
    fun s => ⟨_, exec_ebreak s, entersTrap_takeTrap s .breakpoint⟩,
    goesTo_of_exec fun s => by rw [exec_wfi, add_four_eq_ofNat],
    encodedAs_row .ecall, encodedAs_row .ebreak, encodedAs_row .wfi⟩

/-- Settles O29: trap entry clears MIE and keeps MPIE, which the return copies to MIE; mepc is the pc of the ECALL. -/
theorem ecallThenMretReturnsWithOldMpie : Obligations.EcallThenMretReturnsWithOldMpie := by
  unfold Obligations.EcallThenMretReturnsWithOldMpie
  intro s
  refine ⟨_, _, exec_ecall s, exec_mret _, ?mie, rfl, ?mieBack, ?mpieBack, rfl, rfl⟩
  case mie => rw [State.takeTrap_mstatus, getLsbD_setMie, if_pos rfl]
  case mieBack =>
    rw [State.returnFromTrap_mstatus, getLsbD_mstatusReturn, if_pos rfl, State.takeTrap_mstatus, getLsbD_setMie,
      if_neg (by decide)]
  case mpieBack => rw [State.returnFromTrap_mstatus, getLsbD_mstatusReturn, if_neg (by decide), if_pos rfl]

/-! ### CSR instructions on a catalogued number (R319) -/

/-- Executing `i` writes the old value of `c` through its read mask to x[rd], and to the bits of `c` inside its write mask the
value `new` makes of that and the old x[rs1]; nothing else changes but the pc. -/
def ReadsAndWritesCsr (i : Instr) (rd rs1 : Reg) (c : Csr) (new : Word → Word → Word) : Prop :=
  ∀ s, ∃ t, exec i s = .next t ∧
    t.readReg rd = (if rd = 0 then 0 else readCsr s.csrs c &&& readCsr s.cfg.readMask c) ∧
    (∀ j, (readCsr t.csrs c).getLsbD j =
      if (readCsr s.cfg.writeMask c).getLsbD j then
        (new (readCsr s.csrs c &&& readCsr s.cfg.readMask c) (s.readReg rs1)).getLsbD j
      else (readCsr s.csrs c).getLsbD j) ∧
    (∀ d, d ≠ c → readCsr t.csrs d = readCsr s.csrs d) ∧
    t.pc = s.pc + 4 ∧ t.outcome = .continued ∧ SameRegsBut rd s t ∧ t.mem = s.mem ∧ SameSession s t

/-- A meaning that is a CSR read and write, on a number of the catalogue. -/
theorem readsAndWritesCsr_of_exec {i : Instr} {rd rs1 : Reg} {n : BitVec 12} {c : Csr} {inst : Word}
    {new : Word → Word → Word} (hn : csrOfNumber n = some c)
    (hexec : ∀ s, exec i s = .next (s.csrReadModifyWrite rd n rs1 inst new)) : ReadsAndWritesCsr i rd rs1 c new := by
  intro s
  refine ⟨_, hexec s, ?_⟩
  rcases s.csrReadModifyWrite_cases rd n rs1 inst new with ⟨d, hd, h⟩ | ⟨hnone, _⟩
  case inr => cases hn.symm.trans hnone
  case inl =>
    cases hn.symm.trans hd
    rw [h]
    refine ⟨?old, ?bits, ?others, rfl, rfl, ?regs, by simp, by simp [SameSession]⟩
    case old => rw [State.readReg_retire, State.readReg_writeReg_same]
    case bits => simp [getLsbD_maskedWrite]
    case others =>
      intro d hdc
      simpa using readCsr_updateCsr_ne s.csrs _ hdc
    case regs =>
      intro r hr
      rw [State.readReg_retire, State.readReg_writeReg_ne _ _ hr]
      rfl

section
variable (rd rs1 : Reg) {n : BitVec 12} {c : Csr} (hn : csrOfNumber n = some c)
include hn

theorem readsAndWritesCsr_csrrw : ReadsAndWritesCsr (.csrrw rd n rs1) rd rs1 c (fun _ src => src) :=
  readsAndWritesCsr_of_exec (inst := encode (.csrrw rd n rs1)) hn fun _ => rfl

theorem readsAndWritesCsr_csrrs : ReadsAndWritesCsr (.csrrs rd n rs1) rd rs1 c (fun old src => old ||| src) :=
  readsAndWritesCsr_of_exec (inst := encode (.csrrs rd n rs1)) hn fun _ => rfl

theorem readsAndWritesCsr_csrrc : ReadsAndWritesCsr (.csrrc rd n rs1) rd rs1 c (fun old src => old &&& ~~~src) :=
  readsAndWritesCsr_of_exec (inst := encode (.csrrc rd n rs1)) hn fun _ => rfl

end

/-- Settles O30: the three meanings are the shared read and write, with their own new value. -/
theorem csrInstructionResults : Obligations.CsrInstructionResults := by
  unfold Obligations.CsrInstructionResults
  intro rd rs1 n c hn old does
  exact ⟨readsAndWritesCsr_csrrw rd rs1 hn, readsAndWritesCsr_csrrs rd rs1 hn, readsAndWritesCsr_csrrc rd rs1 hn,
    encodedAs_row (.csrrw rd n rs1), encodedAs_row (.csrrs rd n rs1), encodedAs_row (.csrrc rd n rs1)⟩

/-! ### CSR instructions on a number the bank rejects (R318) -/

/-- The bank rejects the numbers outside its catalogue only, as none of the catalogue is read-only. -/
theorem csrOfNumber_of_csrFault {n : BitVec 12} (h : csrOfNumber n = none ∨ csrReadOnly n = true) :
    csrOfNumber n = none := by
  cases hn : csrOfNumber n with
  | none => rfl
  | some c => simp [hn, csrReadOnly_of_csrOfNumber hn] at h

/-- A CSR fault is the illegal-instruction exception with the instruction's word. -/
theorem exec_of_csrFault {i : Instr} {n : BitVec 12} (hi : i.csrNumber = some n)
    (hn : csrOfNumber n = none ∨ csrReadOnly n = true) (s : State) :
    exec i s = .next (s.takeTrap (.illegalInstruction (encode i))) := by
  have hfault (rd rs1 : Reg) (inst : Word) (op : Word → Word → Word) :
      s.csrReadModifyWrite rd n rs1 inst op = s.takeTrap (.illegalInstruction inst) := by
    rcases s.csrReadModifyWrite_cases rd n rs1 inst op with ⟨c, hc, _⟩ | ⟨_, h⟩
    · cases (csrOfNumber_of_csrFault hn).symm.trans hc
    · exact h
  cases i <;> cases hi
  case csrrw rd rs1 => exact congrArg _ (hfault rd rs1 _ _)
  case csrrs rd rs1 => exact congrArg _ (hfault rd rs1 _ _)
  case csrrc rd rs1 => exact congrArg _ (hfault rd rs1 _ _)

/-- Settles O31: the meaning enters the trap with its own word, which is the one that decodes to it. -/
theorem csrFaultIsIllegalInstruction : Obligations.CsrFaultIsIllegalInstruction := by
  unfold Obligations.CsrFaultIsIllegalInstruction
  intro s w i n hd hi hn
  obtain ⟨_, hw⟩ := encodeOfDecodedIsTheWord w i hd
  exact ⟨_, exec_of_csrFault hi hn s, hw ▸ entersTrap_takeTrap s (.illegalInstruction (encode i))⟩

/-! ### A step of the engine: fetch, decode, execute -/

theorem fetchDecodeExecute_of_instr {s : State} {w : Word} {i : Instr} (hw : s.memRead .fetch s.pc 4 = .ok w)
    (hd : decode w = .instr i) : fetchDecodeExecute s = runInstruction i s := by
  simp only [fetchDecodeExecute, hw, hd]

/-- Where the host is not asked, running an instruction is its meaning (D24). -/
theorem runInstruction_of_not_asked {i : Instr} {s : State} (h : i ≠ .ecall ∨ s.cfg.hostCall = false ∨ s.hostIn = []) :
    runInstruction i s = exec i s := by
  simp only [runInstruction, s.askHook_not h]

theorem fetchDecodeExecute_of_fault {s : State} (h : ¬ s.pc.toNat + 3 < s.cfg.memSize) :
    fetchDecodeExecute s = .next (s.takeTrap (.access ⟨.fetch, s.pc⟩)) := by
  rcases s.memRead_cases .fetch s.pc 4 with ⟨hv, _⟩ | ⟨_, hr⟩
  · exact absurd hv h
  · simp only [fetchDecodeExecute, hr]

/-- Where slot 0 is zero and the engine takes an exception, the step is trap entry. -/
theorem engineStep_of_takeTrap {s : State} {e : Exception} (h0 : s.regs[0] = 0)
    (h : fetchDecodeExecute s = .next (s.takeTrap e)) :
    ∃ t, engineStep s = .next t ∧ EntersTrap (exceptionCause s.cfg e) (exceptionTval e) s t := by
  refine ⟨s.takeTrap e, ?step, entersTrap_takeTrap s e⟩
  rw [engineStep, h, Answer.mapNext_next, State.forceX0_eq_self (s := s.takeTrap e) h0]

/-- Settles O12: the fetch fault ends the step before anything is decoded. -/
theorem fetchOutsideMemoryTraps : Obligations.FetchOutsideMemoryTraps := by
  unfold Obligations.FetchOutsideMemoryTraps
  exact fun _ h0 h => engineStep_of_takeTrap h0 (fetchDecodeExecute_of_fault h)

/-- Settles O13: a word that is no instruction traps at decode, and a CSR instruction that faults traps with its own word. -/
theorem illegalInstructionsTrapWithTheWord : Obligations.IllegalInstructionsTrapWithTheWord := by
  unfold Obligations.IllegalInstructionsTrapWithTheWord
  rintro s w h0 hw (⟨why, hd⟩ | ⟨i, n, hd, hi, hn⟩)
  · exact engineStep_of_takeTrap (e := .illegalInstruction w) h0 (fetchDecodeExecute_of_illegal hw hd)
  · have hne : i ≠ .ecall := by rintro rfl; cases hi
    obtain ⟨_, henc⟩ := encodeOfDecodedIsTheWord w i hd
    refine engineStep_of_takeTrap (e := .illegalInstruction w) h0 ?_
    rw [fetchDecodeExecute_of_instr hw hd, runInstruction_of_not_asked (.inl hne), exec_of_csrFault hi hn, henc]

/-! ### A step in RUN (60_exceptions.md R452, R456) -/

theorem runIteration_of_detached {s : State} (h : s.cfg.channelAttached = false) : runIteration s = engineStep s := by
  simp [runIteration, h]

/-- A poll that does not give the attention byte is consumed, and the step is the engine's. -/
theorem runIteration_of_attached {s : State} (h : s.cfg.channelAttached = true)
    (hpoll : s.chanIn.head? ≠ some (some s.cfg.attn)) :
    runIteration s = Answer.mapNext State.afterStep (engineStep { s with chanIn := s.chanIn.tail }) := by
  have hjoin : s.chanIn.head?.join ≠ some s.cfg.attn := mt Option.join_eq_some_iff.mp hpoll
  simp [runIteration, h, hjoin]

theorem Answer.mapNext_mapNext (f g : State → State) (a : Answer) :
    Answer.mapNext f (Answer.mapNext g a) = Answer.mapNext (fun s => f (g s)) a := by
  cases a <;> rfl

/-- A step whose word decodes runs the instruction. -/
theorem engineStep_of_instr {s : State} {i : Instr} (hvalid : s.pc.toNat + 3 < s.cfg.memSize)
    (hd : decode (ofBytesLE (s.mem.readBytes s.pc.toNat 4)) = .instr i) :
    engineStep s = Answer.mapNext State.forceX0 (runInstruction i s) := by
  rw [engineStep, fetchDecodeExecute_of_instr (State.memRead_of_valid hvalid .fetch) hd]

theorem engineStep_of_not_asked {s : State} {i : Instr} (hvalid : s.pc.toNat + 3 < s.cfg.memSize)
    (hd : decode (ofBytesLE (s.mem.readBytes s.pc.toNat 4)) = .instr i)
    (hhook : i ≠ .ecall ∨ s.cfg.hostCall = false ∨ s.hostIn = []) :
    engineStep s = Answer.mapNext State.forceX0 (exec i s) := by
  rw [engineStep_of_instr hvalid hd, runInstruction_of_not_asked hhook]

/-- Settles O11: the engine runs the decoded instruction, whose meaning the host is not asked about. -/
theorem stepRunsTheDecodedInstruction : Obligations.StepRunsTheDecodedInstruction := by
  unfold Obligations.StepRunsTheDecodedInstruction
  intro s i hrun hvalid hd hhook
  refine ⟨fun hdet => ?detached, fun hatt hpoll => ?attached⟩
  case detached => rw [step_of_run hrun, runIteration_of_detached hdet]; exact engineStep_of_not_asked hvalid hd hhook
  case attached =>
    rw [step_of_run hrun, runIteration_of_attached hatt hpoll,
      engineStep_of_not_asked (s := { s with chanIn := s.chanIn.tail }) hvalid hd hhook, Answer.mapNext_mapNext]

end Sys2Proof.Machine
end

section
/-! What an instruction leaves unchanged, and where control goes: by cases on its effect (10_state.md R34, R36, R47;
60_exceptions.md R410 to R413, R420). -/

namespace Sys2Proof.Machine

/-! ### Traps (R410, R412) -/

/-- An instruction whose outcome is `trapped` took an exception, and did nothing else. -/
theorem Effect.eq_takeTrap {i : Instr} {s t : State} (h : Effect i s t) (ht : t.outcome = .trapped) :
    ∃ e, (∀ a, e ≠ .access ⟨.fetch, a⟩) ∧ t = s.takeTrap e := by
  cases h
  case traps e he _ => exact ⟨e, he, rfl⟩
  all_goals cases ht

theorem exec_trapped {i : Instr} {s t : State} (h : exec i s = .next t) (ht : t.outcome = .trapped) :
    ∃ e, (∀ a, e ≠ .access ⟨.fetch, a⟩) ∧ t = s.takeTrap e :=
  (exec_effect h).eq_takeTrap ht

/-- Settles O37: all that a trapped instruction did is trap entry. -/
theorem trapsArePrecise : Obligations.TrapsArePrecise := by
  unfold Obligations.TrapsArePrecise
  intro i s t h ht
  obtain ⟨e, _, rfl⟩ := exec_trapped h ht
  exact ⟨rfl, rfl, rfl, rfl, by rw [State.takeTrap_mstatus, getLsbD_setMie, if_pos rfl]⟩

/-! ### Frames -/

theorem Effect.sameSession {i : Instr} {s t : State} (h : Effect i s t) : SameSession s t := by
  cases h <;> simp [SameSession]

/-- Settles O36: no effect touches the session. -/
theorem instructionsLeaveSessionAlone : Obligations.InstructionsLeaveSessionAlone := by
  unfold Obligations.InstructionsLeaveSessionAlone
  exact fun _ _ _ h => (exec_effect h).sameSession

/-- A register that is not the destination reads as before. -/
theorem Effect.readReg_eq {i : Instr} {s t : State} (h : Effect i s t) {r : Reg} (hr : i.destination ≠ some r) :
    t.readReg r = s.readReg r := by
  cases h
  case writes rd v next hd _ _ _ =>
    exact s.readReg_writeReg_ne v fun e => hr (e ▸ hd)
  case csr rd n c v hd _ _ _ =>
    exact State.readReg_writeReg_ne _ _ fun e => hr (e ▸ hd)
  all_goals rfl

/-- An effect with no destination, and a trap, leave the register file as it was. -/
theorem Effect.regs_eq {i : Instr} {s t : State} (h : Effect i s t) (hd : i.destination = none ∨ t.outcome = .trapped) :
    t.regs = s.regs := by
  cases h
  case writes rd v next hd' _ _ _ => rcases hd with hd | ht <;> [cases hd'.symm.trans hd; cases ht]
  case csr rd n c v hd' _ _ _ => rcases hd with hd | ht <;> [cases hd'.symm.trans hd; cases ht]
  all_goals rfl

/-- Settles O33: of the effects, only the register writes touch the file, and each writes the destination. -/
theorem onlyTheDestinationRegisterChanges : Obligations.OnlyTheDestinationRegisterChanges := by
  unfold Obligations.OnlyTheDestinationRegisterChanges
  exact fun _ _ _ h => ⟨fun _ => (exec_effect h).readReg_eq, (exec_effect h).regs_eq⟩

/-- A write of x0 leaves the register file as it was. -/
theorem Effect.regs_eq_of_x0 {i : Instr} {s t : State} (h : Effect i s t) (hd : i.destination = some 0) :
    t.regs = s.regs := by
  cases h
  case writes rd v next hd' _ _ _ => cases hd.symm.trans hd'; rfl
  case csr rd n c v hd' _ _ _ => cases hd.symm.trans hd'; rfl
  all_goals rfl

/-- Whatever ran, the step ends by forcing slot 0. -/
theorem engineStep_x0 {s t : State} (h : engineStep s = .next t) : t.regs[0] = 0 := by
  rcases engineStep_cases s with ⟨_, he⟩ | ⟨_, ⟨_, _, he⟩ | ⟨_, _, _, _, he⟩⟩ <;> cases he.symm.trans h <;>
    simp [State.forceX0]

/-- Settles O14: the step forces slot 0, and an instruction that writes x0 discards the write. -/
theorem slotZeroReadsZero : Obligations.SlotZeroReadsZero := by
  unfold Obligations.SlotZeroReadsZero
  exact ⟨fun _ _ => engineStep_x0, State.readReg_zero, fun _ _ => rfl, fun _ _ _ hd h => (exec_effect h).regs_eq_of_x0 hd⟩

/-- An effect that is no store, and a trap, leave memory as it was. -/
theorem Effect.mem_eq {i : Instr} {s t : State} (h : Effect i s t) (hs : storesAt s i = none ∨ t.outcome = .trapped) :
    t.mem = s.mem := by
  cases h
  case stores ea width v _ hs' _ _ _ _ => rcases hs with hs | ht <;> [cases hs'.symm.trans hs; cases ht]
  all_goals simp

/-- A byte outside the place a store names is as it was. -/
theorem Effect.get_mem_eq {i : Instr} {s t : State} (h : Effect i s t) {ea : Word} {width : Nat}
    (hs : storesAt s i = some (ea, width)) {a : Nat} (ha : Outside ea.toNat width a) : t.mem.get a = s.mem.get a := by
  cases h
  case stores ea' width' v _ hs' _ _ _ _ =>
    cases hs.symm.trans hs'
    exact Memory.get_writeBytes_outside _ _ _ _ (by simpa [Outside] using ha)
  all_goals simp

/-- Settles O34: of the effects, only a completed store writes memory, at the place its instruction names. -/
theorem onlyStoredBytesChange : Obligations.OnlyStoredBytesChange := by
  unfold Obligations.OnlyStoredBytesChange
  exact fun _ _ _ h => ⟨fun hs a => congrArg (Memory.get · a) ((exec_effect h).mem_eq hs),
    fun _ _ hs _ => (exec_effect h).get_mem_eq hs⟩

/-! ### The CSRs (10_state.md R47) -/

/-- A completed effect that is neither a CSR form nor MRET leaves the bank as it was. -/
theorem Effect.csrs_eq {i : Instr} {s t : State} (h : Effect i s t) (ht : t.outcome = .continued)
    (hc : i.csrNumber = none) (hm : i ≠ .mret) : t.csrs = s.csrs := by
  cases h
  case csr rd n c v _ _ hc' _ => cases hc'.symm.trans hc
  case returns hm' => exact absurd hm' hm
  case traps => cases ht
  all_goals simp

/-- A completed CSR form leaves the CSRs it does not name as they were. -/
theorem Effect.readCsr_eq {i : Instr} {s t : State} (h : Effect i s t) (ht : t.outcome = .continued) {n : BitVec 12}
    (hc : i.csrNumber = some n) {c : Csr} (hn : csrOfNumber n ≠ some c) : readCsr t.csrs c = readCsr s.csrs c := by
  cases h
  case csr rd n' c' v _ _ hc' hn' =>
    cases hc.symm.trans hc'
    have hne : c ≠ c' := by rintro rfl; exact hn hn'
    simpa using readCsr_updateCsr_ne s.csrs _ hne
  case returns hm => cases hm ▸ hc
  case traps => cases ht
  all_goals simp

/-- Trap entry leaves the CSRs that R410 does not list as they were. -/
theorem readCsr_takeTrap_eq (s : State) (e : Exception) {c : Csr} (hc : c ∉ [Csr.mcause, .mepc, .mtval, .mstatus]) :
    readCsr (s.takeTrap e).csrs c = readCsr s.csrs c := by
  cases c
  case mie | mtvec | mscratch | mip => rfl
  all_goals exact absurd (by decide) hc

/-- Settles O35: each effect on the bank is one of a trap, of MRET or of a CSR form. -/
theorem onlyListedCsrsChange : Obligations.OnlyListedCsrsChange := by
  unfold Obligations.OnlyListedCsrsChange
  intro i s t h
  refine ⟨fun ht c hc => ?listed, fun ht => ?mstatus, (exec_effect h).csrs_eq, ?mret,
    fun ht _ hi _ => (exec_effect h).readCsr_eq ht hi⟩
  case listed =>
    obtain ⟨e, _, rfl⟩ := exec_trapped h ht
    exact readCsr_takeTrap_eq s e hc
  case mstatus =>
    obtain ⟨e, _, rfl⟩ := exec_trapped h ht
    rfl
  case mret =>
    rintro rfl c hc
    cases (exec_mret s).symm.trans h
    exact readCsr_returnFromTrap_of_ne s hc

/-! ### The causes (R400 to R406) -/

/-- A trapped step of the engine took one exception, as the CSRs it leaves show. -/
theorem engineStep_trapped {s t : State} (h : engineStep s = .next t) (ht : t.outcome = .trapped) :
    ∃ e, t.csrs = (s.takeTrap e).csrs := by
  rcases engineStep_cases s with ⟨_, he⟩ | ⟨_, ⟨_, _, he⟩ | ⟨i, u, _, hu, he⟩⟩ <;> cases he.symm.trans h
  · exact ⟨_, rfl⟩
  · exact ⟨_, rfl⟩
  · rcases runInstruction_cases i s with ⟨answers, _, hr⟩ | ⟨a, answers, _, _, _, hr⟩
    · obtain ⟨e, _, rfl⟩ := exec_trapped (hr.symm.trans hu) ht
      exact ⟨e, rfl⟩
    · cases hr.symm.trans hu
      rcases State.serveHook_cases { s with hostIn := answers } a with ⟨_, hs⟩ | ⟨_, hs⟩ <;>
        simp [hs, State.hookReturns] at ht

theorem exceptionCause_cases (cfg : Config) (e : Exception) :
    exceptionCause cfg e = 2 ∨ exceptionCause cfg e = 3 ∨ exceptionCause cfg e = 11 ∨
      exceptionCause cfg e = cfg.fetchFaultCause ∨ exceptionCause cfg e = cfg.loadFaultCause ∨
      exceptionCause cfg e = cfg.storeFaultCause := by
  rcases e with _ | _ | _ | ⟨_ | _ | _, _⟩ <;> simp [exceptionCause]

/-- The parameters give causes of 31 bits (R420). -/
theorem exceptionCause_bit31 {cfg : Config} (h : cfg.Wf) (e : Exception) : (exceptionCause cfg e).getLsbD 31 = false := by
  rcases exceptionCause_cases cfg e with he | he | he | he | he | he <;> rw [he]
  · decide
  · decide
  · decide
  · exact h.fetchCause
  · exact h.loadCause
  · exact h.storeCause

/-- Settles O38: mcause takes the cause of the one exception. -/
theorem onlySixCausesAreRecorded : Obligations.OnlySixCausesAreRecorded := by
  unfold Obligations.OnlySixCausesAreRecorded
  intro s t h ht
  obtain ⟨e, he⟩ := engineStep_trapped h ht
  rw [he, State.takeTrap_mcause]
  exact ⟨exceptionCause_cases s.cfg e, fun hwf => exceptionCause_bit31 hwf e⟩

/-! ### The next pc (10_state.md R36) -/

section
variable {s : State}

theorem State.load_pc {rd rs1 : Reg} {imm : BitVec 12} {width : Nat} {widen : Word → Word}
    (ht : (s.load rd rs1 imm width widen).outcome = .continued) : (s.load rd rs1 imm width widen).pc = s.pc + 4 := by
  rcases s.load_cases rd rs1 imm width widen with ⟨_, h⟩ | ⟨_, h⟩ <;> rw [h] at ht ⊢
  · exact s.writeNext_pc _ _
  · cases ht

theorem State.store_pc {rs2 rs1 : Reg} {imm : BitVec 12} {width : Nat}
    (ht : (s.store rs2 rs1 imm width).outcome = .continued) : (s.store rs2 rs1 imm width).pc = s.pc + 4 := by
  rcases s.store_cases rs2 rs1 imm width with ⟨_, h⟩ | ⟨_, h⟩ <;> rw [h] at ht ⊢
  · rfl
  · cases ht

theorem State.csrReadModifyWrite_pc {rd rs1 : Reg} {n : BitVec 12} {inst : Word} {op : Word → Word → Word}
    (ht : (s.csrReadModifyWrite rd n rs1 inst op).outcome = .continued) :
    (s.csrReadModifyWrite rd n rs1 inst op).pc = s.pc + 4 := by
  rcases s.csrReadModifyWrite_cases rd n rs1 inst op with ⟨_, _, h⟩ | ⟨_, h⟩ <;> rw [h] at ht ⊢
  · rfl
  · cases ht

end

/-- The instruction is one of the six branches, with these operands. -/
def IsBranch (i : Instr) (rs1 rs2 : Reg) (off : BitVec 13) : Prop :=
  i = .beq rs1 rs2 off ∨ i = .bne rs1 rs2 off ∨ i = .blt rs1 rs2 off ∨ i = .bge rs1 rs2 off ∨
    i = .bltu rs1 rs2 off ∨ i = .bgeu rs1 rs2 off

theorem BranchesWhen.pc_cases {i : Instr} {off : BitVec 13} {taken : State → Prop} (hb : BranchesWhen i off taken)
    {s t : State} (h : exec i s = .next t) :
    t.pc = BitVec.ofInt 32 (s.pc.toNat + off.toInt) ∨ t.pc = BitVec.ofNat 32 (s.pc.toNat + 4) := by
  obtain ⟨u, hu, ⟨htaken, hfalls⟩, _⟩ := hb s
  cases hu.symm.trans h
  exact (Classical.em (taken s)).imp htaken hfalls

theorem IsBranch.pc_cases {i : Instr} {rs1 rs2 : Reg} {off : BitVec 13} (hi : IsBranch i rs1 rs2 off) {s t : State}
    (h : exec i s = .next t) :
    t.pc = BitVec.ofInt 32 (s.pc.toNat + off.toInt) ∨ t.pc = BitVec.ofNat 32 (s.pc.toNat + 4) := by
  rcases hi with rfl | rfl | rfl | rfl | rfl | rfl
  · exact (branchesWhen_beq rs1 rs2 off).pc_cases h
  · exact (branchesWhen_bne rs1 rs2 off).pc_cases h
  · exact (branchesWhen_blt rs1 rs2 off).pc_cases h
  · exact (branchesWhen_bge rs1 rs2 off).pc_cases h
  · exact (branchesWhen_bltu rs1 rs2 off).pc_cases h
  · exact (branchesWhen_bgeu rs1 rs2 off).pc_cases h

/-- An instruction that is no jump, no branch and not MRET completes at `pc + 4`. -/
theorem exec_fallsThrough {i : Instr} {s t : State} (h : exec i s = .next t) (ht : t.outcome = .continued)
    (hmret : i ≠ .mret) (hjal : ∀ rd off, i ≠ .jal rd off) (hjalr : ∀ rd rs1 imm, i ≠ .jalr rd rs1 imm)
    (hbranch : ∀ rs1 rs2 off, ¬ IsBranch i rs1 rs2 off) : t.pc = s.pc + 4 := by
  cases i <;> cases h
  case lb | lh | lw | lbu | lhu => exact State.load_pc ht
  case sb | sh | sw => exact State.store_pc ht
  case csrrw | csrrs | csrrc => exact State.csrReadModifyWrite_pc ht
  case ecall | ebreak => cases ht
  case mret => exact absurd rfl hmret
  case jal => exact absurd rfl (hjal _ _)
  case jalr => exact absurd rfl (hjalr _ _ _)
  case beq rs1 rs2 off | bne rs1 rs2 off | blt rs1 rs2 off | bge rs1 rs2 off | bltu rs1 rs2 off | bgeu rs1 rs2 off =>
    exact absurd (by simp [IsBranch]) (hbranch rs1 rs2 off)
  all_goals rfl

/-- Settles O39: a trap goes to mtvec, the control transfers where their own rules say, and all other instructions on. -/
theorem nextPcIsOneOfFour : Obligations.NextPcIsOneOfFour := by
  unfold Obligations.NextPcIsOneOfFour
  intro i s t h isBranch
  refine ⟨fun ht => ?trap, fun ht => ⟨?mret, ?jal, ?jalr, fun _ _ _ hi => IsBranch.pc_cases hi h,
    fun hmret hjal hjalr hbranch => ?falls⟩⟩
  case trap =>
    obtain ⟨e, _, rfl⟩ := exec_trapped h ht
    rfl
  case mret =>
    rintro rfl
    cases (exec_mret s).symm.trans h
    rfl
  case jal =>
    rintro rd off rfl
    cases (exec_jal rd off s).symm.trans h
    exact add_jumpOffset_eq_ofInt s.pc off
  case jalr =>
    rintro rd rs1 imm rfl
    cases (exec_jalr rd rs1 imm s).symm.trans h
    exact s.jalrTarget_eq_ofInt rs1 imm
  case falls => rw [exec_fallsThrough h ht hmret hjal hjalr hbranch, add_four_eq_ofNat]

/-! ### Every step answers (60_exceptions.md R457) -/

theorem step_next (s : State) : ∃ t, step s = .next t := by
  rcases step_cases s with ⟨_, h⟩ | ⟨_, _, h⟩ | ⟨_, _, _, h⟩ | ⟨_, _, _, _, _, h⟩
  · exact ⟨_, h⟩
  · exact h ▸ engineStep_next s
  · exact ⟨_, h⟩
  · exact ⟨_, h⟩

/-- Settles O40: each kind of step answers, and a session with nothing to receive stays as it is. -/
theorem everyStepAnswersNext : Obligations.EveryStepAnswersNext := by
  unfold Obligations.EveryStepAnswersNext
  refine ⟨step_next, fun s hs hnone => ?stuck⟩
  case stuck =>
    rcases s.sessionStep_cases with ⟨_, _, hsome, _⟩ | ⟨_, he⟩
    · cases hnone.symm.trans hsome
    · rw [step_of_debug hs, he]

end Sys2Proof.Machine
end

section
/-! The invariant: every update of the state keeps it, so every step does; and what creation makes meets it
(10_state.md sections 1 to 5 and 7; 60_exceptions.md R451, R457; 70_reset_and_hazards.md R520, R523). -/

namespace Sys2Proof.Machine

/-! ### Bits outside a write mask -/

theorem maskedWrite_and_not (mask old v : Word) : maskedWrite mask old v &&& ~~~mask = old &&& ~~~mask := by
  apply BitVec.eq_of_getLsbD_eq
  intro j _
  rw [BitVec.getLsbD_and, BitVec.getLsbD_and, BitVec.getLsbD_not, getLsbD_maskedWrite]
  cases mask.getLsbD j <;> simp

/-- FS is bits 13 and 14 of mstatus (10_state.md R48). -/
theorem mstatusFs_eq_zero_iff (m : Word) : mstatusFs m = 0 ↔ m.getLsbD 13 = false ∧ m.getLsbD 14 = false := by
  constructor
  · intro h
    have hbit (j : Nat) (hj : j < 2) : (mstatusFs m).getLsbD j = m.getLsbD (13 + j) := by
      rw [mstatusFs, BitVec.getLsbD_extractLsb', decide_eq_true hj, Bool.true_and]
    exact ⟨by rw [← hbit 0 (by decide), h]; rfl, by rw [← hbit 1 (by decide), h]; rfl⟩
  · rintro ⟨h13, h14⟩
    apply BitVec.eq_of_getLsbD_eq
    intro j hj
    rw [mstatusFs, BitVec.getLsbD_extractLsb', decide_eq_true hj, Bool.true_and]
    obtain rfl | rfl : j = 0 ∨ j = 1 := by omega
    · exact h13
    · exact h14

/-- What a trap, a return or a masked write leaves in bits 13 and 14 leaves FS 0. -/
theorem mstatusFs_eq_zero_of_bits {m m' : Word} (h : mstatusFs m = 0) (h13 : m'.getLsbD 13 = m.getLsbD 13)
    (h14 : m'.getLsbD 14 = m.getLsbD 14) : mstatusFs m' = 0 := by
  rw [mstatusFs_eq_zero_iff] at h ⊢
  exact ⟨h13.trans h.1, h14.trans h.2⟩

theorem mstatusFs_setMie {m : Word} (h : mstatusFs m = 0) (b : Bool) : mstatusFs (setMie m b) = 0 :=
  mstatusFs_eq_zero_of_bits h (by rw [getLsbD_setMie, if_neg (by decide)]) (by rw [getLsbD_setMie, if_neg (by decide)])

theorem mstatusFs_mstatusReturn {m : Word} (h : mstatusFs m = 0) : mstatusFs (mstatusReturn m) = 0 :=
  mstatusFs_eq_zero_of_bits h (getLsbD_mstatusReturn m 13) (getLsbD_mstatusReturn m 14)

/-- A write mask without FS keeps it (10_state.md R52). -/
theorem mstatusFs_maskedWrite {mask m : Word} (hmask : mask &&& 0x6000 = 0) (h : mstatusFs m = 0) (v : Word) :
    mstatusFs (maskedWrite mask m v) = 0 := by
  have hbit (j : Nat) (hj : (0x6000 : Word).getLsbD j = true) : mask.getLsbD j = false := by
    have hand : (mask &&& 0x6000).getLsbD j = false := by rw [hmask]; exact BitVec.getLsbD_zero
    rwa [BitVec.getLsbD_and, hj, Bool.and_true] at hand
  exact mstatusFs_eq_zero_of_bits h (by rw [getLsbD_maskedWrite, hbit 13 (by decide), if_neg (by decide)])
    (by rw [getLsbD_maskedWrite, hbit 14 (by decide), if_neg (by decide)])

/-! ### The updates that an instruction makes -/

section
variable {s : State} (hs : s.Inv)
include hs

theorem State.Inv.retire (next : Word) : (s.retire next).Inv := { hs with }

theorem State.Inv.writeReg (r : Reg) (v : Word) : (s.writeReg r v).Inv := by
  unfold State.writeReg
  split
  case isTrue => exact hs
  case isFalse h =>
    have hr : r.val ≠ 0 := fun e => h (Fin.ext e)
    exact { hs with x0 := by simpa [Vector.getElem_set_ne, hr] using hs.x0 }

theorem State.Inv.writeNext (r : Reg) (v : Word) : (s.writeNext r v).Inv := (hs.writeReg r v).retire _

theorem State.Inv.forceX0 : s.forceX0.Inv := by
  rw [State.forceX0_eq_self hs.x0]
  exact hs

theorem State.Inv.withMem {m : Memory} (hwf : m.wf) (hbelow : m.below s.cfg.memSize) : { s with mem := m }.Inv :=
  { hs with memWf := hwf, memBelow := hbelow }

theorem State.Inv.writeBytes {a : Nat} {bytes : List Byte} (h : a + bytes.length ≤ s.cfg.memSize) :
    { s with mem := s.mem.writeBytes a bytes }.Inv :=
  hs.withMem (Memory.wf_writeBytes bytes hs.memWf a) (Memory.below_writeBytes bytes hs.memBelow h)

theorem State.Inv.takeTrap (e : Exception) : (s.takeTrap e).Inv :=
  { hs with fs := mstatusFs_setMie hs.fs false }

theorem State.Inv.returnFromTrap : s.returnFromTrap.Inv :=
  { hs with fs := mstatusFs_mstatusReturn hs.fs }

/-- A masked write of one CSR: the fields of the invariant that name it hold of the bits outside its mask. -/
theorem State.Inv.updateCsr (c : Csr) (v : Word) :
    { s with csrs := updateCsr s.csrs (maskedWrite (readCsr s.cfg.writeMask c) (readCsr s.csrs c) v) c }.Inv := by
  cases c
  case mstatus => exact { hs with fs := mstatusFs_maskedWrite hs.cfg.stripsFs hs.fs v }
  case mie => exact { hs with mie := (maskedWrite_and_not _ _ v).trans hs.mie }
  case mtvec => exact { hs with mtvec := (maskedWrite_and_not _ _ v).trans hs.mtvec }
  case mip => exact { hs with mip := (maskedWrite_and_not _ _ v).trans hs.mip }
  all_goals exact { hs with }

theorem Effect.inv {i : Instr} {t : State} (h : Effect i s t) : t.Inv := by
  cases h
  case writes rd v next _ _ _ _ => exact (hs.writeReg rd v).retire next
  case moves next _ _ _ _ => exact hs.retire next
  case stores ea width v _ _ _ _ hw hv => exact (hs.writeBytes (by rw [length_bytesLE]; omega)).retire _
  case csr rd n c v _ _ _ _ => exact ((hs.updateCsr c v).writeReg rd _).retire _
  case returns => exact hs.returnFromTrap
  case traps e _ _ => exact hs.takeTrap e

/-! ### The host hook and the engine -/

theorem State.Inv.hookReturns (call : HostCall) (result : Word) : (s.hookReturns call result).Inv :=
  State.Inv.writeNext (s := { s with hostOut := s.hostOut ++ [call] }) { hs with } hookResult result

theorem State.Inv.serveHook (a : HostAnswer) : (s.serveHook a).Inv := by
  rcases s.serveHook_cases a with ⟨⟨_, hw⟩, h⟩ | ⟨_, h⟩ <;> rw [h]
  · exact (hs.withMem (Memory.wf_writeViews a.writes hs.memWf)
      (Memory.below_writeViews a.writes hw hs.memBelow)).hookReturns _ _
  · exact hs.hookReturns _ _

theorem State.Inv.withHostIn (answers : List (Option HostAnswer)) : { s with hostIn := answers }.Inv := { hs with }

theorem State.Inv.withChanIn (input : List (Option Byte)) : { s with chanIn := input }.Inv := { hs with }

theorem runInstruction_inv {i : Instr} {t : State} (h : runInstruction i s = .next t) : t.Inv := by
  rcases runInstruction_cases i s with ⟨answers, _, hr⟩ | ⟨a, answers, _, _, _, hr⟩
  · exact Effect.inv (hs.withHostIn answers) (exec_effect (hr.symm.trans h))
  · cases hr.symm.trans h
    exact (hs.withHostIn answers).serveHook a

theorem engineStep_inv {t : State} (h : engineStep s = .next t) : t.Inv := by
  rcases engineStep_cases s with ⟨_, he⟩ | ⟨_, ⟨_, _, he⟩ | ⟨i, u, _, hu, he⟩⟩ <;> cases he.symm.trans h
  · exact (hs.takeTrap _).forceX0
  · exact (hs.takeTrap _).forceX0
  · exact (runInstruction_inv hs hu).forceX0

/-! ### The stub and the controller -/

theorem State.Inv.send (bytes : List Byte) : (s.send bytes).Inv := { hs with }

theorem State.Inv.sendPacket (payload : List Byte) : (s.sendPacket payload).Inv :=
  { hs with outbuf := List.length_take_le _ _ }

theorem State.Inv.enterSession (hatt : s.cfg.channelAttached = true) (why : Entry) : (s.enterSession why).Inv :=
  State.Inv.sendPacket (s := { s with mode := .debug, entry := why, rx := .waitStart })
    { hs with attached := fun _ => hatt } _

theorem State.Inv.runCommand (c : Command) : (s.runCommand c).Inv := by
  rcases s.runCommand_cases c with ⟨_, h⟩ | ⟨_, _, h⟩ | ⟨a, d, _, hv, h⟩ <;> rw [h]
  · exact { hs with attached := Mode.noConfusion }
  · exact hs.sendPacket _
  · exact (hs.writeBytes hv).sendPacket _

theorem State.Inv.withRx (rx : Receiver) : { s with rx := rx }.Inv := { hs with }

theorem State.Inv.receiveByte (b : Byte) : (s.receiveByte b).Inv := by
  rcases s.receiveByte_cases b with ⟨_, _, _, _, h⟩ | ⟨_, _, _, _, h⟩ | ⟨_, _, _, h, hlen⟩ <;> rw [h]
  · exact ((hs.withRx .waitStart).send _).runCommand _
  · exact (hs.withRx .waitStart).send _
  · exact { hs with inbuf := hlen hs.inbuf }

theorem State.Inv.sessionStep : s.sessionStep.Inv := by
  rcases s.sessionStep_cases with ⟨b, rest, _, h⟩ | ⟨_, h⟩ <;> rw [h]
  · exact (hs.withChanIn rest).receiveByte b
  · exact hs

theorem State.Inv.afterStep (hatt : s.cfg.channelAttached = true) : s.afterStep.Inv := by
  unfold State.afterStep
  split
  · exact hs.enterSession hatt .trap
  · exact hs

theorem State.Inv.poll : s.poll.2.Inv := by
  rw [State.poll_snd]
  exact hs.withChanIn _

end

/-- Settles O42: a step is one received byte, a step of the engine, or the entry of a session, and each keeps the
invariant. -/
theorem stepKeepsTheInvariant : Obligations.StepKeepsTheInvariant := by
  unfold Obligations.StepKeepsTheInvariant
  intro s t hs h
  rcases step_cases s with ⟨_, he⟩ | ⟨_, _, he⟩ | ⟨_, hatt, _, he⟩ | ⟨_, hatt, _, u, hu, he⟩
  · cases he.symm.trans h
    exact hs.sessionStep
  · exact engineStep_inv hs (he.symm.trans h)
  · cases he.symm.trans h
    exact hs.poll.enterSession (by simpa using hatt) .attention
  · cases he.symm.trans h
    exact (engineStep_inv hs.poll hu).afterStep (by rw [engineStep_cfg hu]; simpa using hatt)

/-! ### Creation -/

theorem initial_inv {cfg : Config} (h : cfg.Wf) (input : List (Option Byte)) (answers : List (Option HostAnswer)) :
    (State.initial cfg input answers).Inv where
  cfg := h
  x0 := rfl
  memWf := ⟨.nil, by simp [State.initial]⟩
  memBelow := by simp [State.initial]
  inbuf := Nat.zero_le _
  outbuf := Nat.zero_le _
  stopSignal := rfl
  fs := (by decide : mstatusFs 0 = 0)
  mie := BitVec.zero_and
  mtvec := BitVec.zero_and
  mip := BitVec.zero_and
  attached := Mode.noConfusion

theorem atReset_wf : Config.atReset.Wf where
  memSize_pos := by decide
  memSize_le := by decide
  fetchCause := by decide
  loadCause := by decide
  storeCause := by decide
  stripsFs := by decide
  pktInCap_pos := by decide
  pktOutCap_ge := by decide
  qAckLetter := by simp [Config.atReset]
  stopSignal := by decide

/-- What creation answers: the initial state with the image written, where it fits (R523). -/
theorem State.create_cases (cfg : Config) (offset : Nat) (image : List Byte) (input : List (Option Byte))
    (answers : List (Option HostAnswer)) :
    (offset + image.length ≤ cfg.memSize ∧
      State.create cfg offset image input answers =
        some { State.initial cfg input answers with mem := Memory.writeBytes [] offset image }) ∨
    (¬ offset + image.length ≤ cfg.memSize ∧ State.create cfg offset image input answers = none) :=
  (State.initial cfg input answers).viewWrite_cases offset image

theorem create_inv {cfg : Config} {offset : Nat} {image : List Byte} {input : List (Option Byte)}
    {answers : List (Option HostAnswer)} {s : State} (hwf : cfg.Wf)
    (h : State.create cfg offset image input answers = some s) : s.Inv := by
  rcases State.create_cases cfg offset image input answers with ⟨hfits, hc⟩ | ⟨_, hc⟩ <;> cases hc.symm.trans h
  exact (initial_inv hwf input answers).writeBytes hfits

/-- Settles O43: the initial state meets the invariant, and loading the image keeps it. -/
theorem createdInstancesMeetTheInvariant : Obligations.CreatedInstancesMeetTheInvariant := by
  unfold Obligations.CreatedInstancesMeetTheInvariant
  exact ⟨fun _ _ _ _ _ _ => create_inv, initial_inv atReset_wf [] []⟩

theorem safeFor_of_inv (k : Nat) : ∀ {s : State}, s.Inv → SafeFor k s := by
  induction k with
  | zero => exact fun hs => ⟨_, rfl, hs⟩
  | succ k ih =>
    intro s hs
    obtain ⟨t, ht⟩ := step_next s
    obtain ⟨u, hu, hinv⟩ := ih (stepKeepsTheInvariant s t hs ht)
    exact ⟨u, (run_succ_of_step ht).trans hu, hinv⟩

/-- Settles O44: the invariant holds at creation and every step keeps it, and every step answers. -/
theorem everyRunIsSafe : Obligations.EveryRunIsSafe := by
  unfold Obligations.EveryRunIsSafe
  exact fun _ _ _ _ _ _ hwf h k => safeFor_of_inv k (create_inv hwf h)

theorem readReg_initial (cfg : Config) (input : List (Option Byte)) (answers : List (Option HostAnswer)) (r : Reg) :
    (State.initial cfg input answers).readReg r = 0 := by
  simp [State.readReg, State.initial]

theorem readCsr_all (v : Word) (c : Csr) : readCsr (Csrs.all v) c = v := by
  cases c <;> rfl

/-- Settles O45: the image is written over zeros, and every other field is that of the initial state. -/
theorem createdState : Obligations.CreatedState := by
  unfold Obligations.CreatedState
  intro cfg offset image input answers
  rcases State.create_cases cfg offset image input answers with ⟨hfits, hc⟩ | ⟨hno, hc⟩
  · refine ⟨fun h => absurd hfits h, fun _ => ⟨_, hc, fun i hi => Memory.get_writeBytes_inside image [] offset i hi,
      fun a ha => Memory.get_writeBytes_outside image [] offset a ha, readReg_initial cfg input answers,
      readCsr_all 0, rfl, rfl, rfl, rfl, rfl, rfl, rfl, rfl, rfl, rfl, rfl⟩⟩
  · exact ⟨fun _ => hc, fun h => absurd h hno⟩

end Sys2Proof.Machine
end

section
/-! The entry of a session, and what a session can change (60_exceptions.md R452 to R457, R464, R490, R493). -/

namespace Sys2Proof.Machine

/-! ### What a step of the engine leaves of the session -/

@[simp] theorem State.serveHook_hostIn (s : State) (a : HostAnswer) : (s.serveHook a).hostIn = s.hostIn := by
  rcases s.serveHook_cases a with ⟨_, h⟩ | ⟨_, h⟩ <;> simp [h, State.hookReturns]

/-- A served call leaves the session as it was, but for the record of the call. -/
theorem State.serveHook_sameSession (s : State) (a : HostAnswer) :
    SameSession { s with hostOut := (s.serveHook a).hostOut } (s.serveHook a) := by
  rcases s.serveHook_cases a with ⟨_, h⟩ | ⟨_, h⟩ <;> simp [h, SameSession, State.hookReturns]

theorem runInstruction_sameSession {i : Instr} {s t : State} (h : runInstruction i s = .next t) :
    SameSession { s with hostIn := t.hostIn, hostOut := t.hostOut } t := by
  rcases runInstruction_cases i s with ⟨answers, _, hr⟩ | ⟨a, answers, _, _, _, hr⟩
  · have hsame := (exec_effect (hr.symm.trans h)).sameSession
    simp_all [SameSession]
  · cases hr.symm.trans h
    have hsame := State.serveHook_sameSession { s with hostIn := answers } a
    simpa [SameSession] using hsame

/-- Of the session's state a step of the engine changes only what the host hook has still to say and what it was asked. -/
theorem engineStep_sameSession {s t : State} (h : engineStep s = .next t) :
    SameSession { s with hostIn := t.hostIn, hostOut := t.hostOut } t := by
  rcases engineStep_cases s with ⟨_, he⟩ | ⟨_, ⟨_, _, he⟩ | ⟨i, u, _, hu, he⟩⟩ <;> cases he.symm.trans h
  · exact SameSession.refl _
  · exact SameSession.refl _
  · have hsame := runInstruction_sameSession hu
    exact hsame

/-- Settles O48: the step is the engine's, which leaves the mode and the channel as they are. -/
theorem noChannelNoSession : Obligations.NoChannelNoSession := by
  unfold Obligations.NoChannelNoSession
  intro s t hdet hrun h
  rw [step_of_run hrun, runIteration_of_detached hdet] at h
  obtain ⟨_, _, hmode, _, _, _, _, _, hin, hout, _⟩ := engineStep_sameSession h
  exact ⟨h, hmode.trans hrun, hin, hout⟩

/-! ### The entry of a session (R490) -/

@[simp] theorem length_hex2 (b : Byte) : (hex2 b).length = 2 := rfl

@[simp] theorem length_hex32le (v : Word) : (hex32le v).length = 8 := rfl

theorem length_stopReport (s : State) : s.stopReport.length = 39 := by
  simp [State.stopReport]

/-- Where the report fits the outbound packet it is sent whole. -/
theorem State.enterSession_chanOut {s : State} (h : 39 ≤ s.cfg.pktOutCap) (why : Entry) :
    (s.enterSession why).chanOut = s.chanOut ++ framed { s with entry := why }.stopReport := by
  have hwhole : { s with entry := why }.stopReport.take s.cfg.pktOutCap = { s with entry := why }.stopReport :=
    List.take_of_length_le (by rw [length_stopReport]; exact h)
  rw [← hwhole]
  rfl

/-- The report of an entry by a trap carries mepc. -/
theorem stopReport_trap (s : State) :
    { s with entry := .trap }.stopReport = stopReportOf s.stopSignal (s.readReg 8) (s.readReg 2) s.csrs.mepc := rfl

/-- The report of an entry by the attention byte carries the live pc. -/
theorem stopReport_attention (s : State) :
    { s with entry := .attention }.stopReport = stopReportOf s.stopSignal (s.readReg 8) (s.readReg 2) s.pc := rfl

theorem sameHart_enterSession (s : State) (why : Entry) : SameHart s (s.enterSession why) :=
  ⟨rfl, rfl, rfl, rfl, rfl⟩

/-- The attention byte is taken and the session entered (R453). -/
theorem runIteration_of_attention {s : State} {rest : List (Option Byte)} (h : s.cfg.channelAttached = true)
    (hin : s.chanIn = some s.cfg.attn :: rest) :
    runIteration s = .next ({ s with chanIn := rest }.enterSession .attention) := by
  simp [runIteration, h, hin]

/-- Settles O46: the step enters the session from the state it found, with the attention byte taken. -/
theorem attentionByteEntersSession : Obligations.AttentionByteEntersSession := by
  unfold Obligations.AttentionByteEntersSession
  intro s rest hrun hatt hcap hin
  refine ⟨_, (step_of_run hrun).trans (runIteration_of_attention hatt hin), sameHart_enterSession _ _, rfl, rfl, rfl, rfl,
    rfl, ?report⟩
  case report =>
    rw [State.enterSession_chanOut (s := { s with chanIn := rest }) hcap, stopReport_attention]
    rfl

theorem State.afterStep_of_continued {s : State} (h : s.outcome = .continued) : s.afterStep = s := by
  simp [State.afterStep, h]

theorem State.afterStep_of_trapped {s : State} (h : s.outcome = .trapped) : s.afterStep = s.enterSession .trap := by
  simp [State.afterStep, h]

/-- Settles O47: the step is the engine's on the rest of the channel, and then enters a session if that trapped; the engine has
left the channel, the stop signal and the parameters as they were. -/
theorem trappedStepEntersSession : Obligations.TrappedStepEntersSession := by
  unfold Obligations.TrappedStepEntersSession
  intro s u hrun hatt hcap hpoll hengine
  have hstep : step s = .next u.afterStep := by
    rw [step_of_run hrun, runIteration_of_attached hatt hpoll, hengine, Answer.mapNext_next]
  obtain ⟨hcfg, _, _, _, _, _, _, hsignal, hin, hout, _⟩ := engineStep_sameSession hengine
  refine ⟨fun ht => ?continued, fun ht => ?trapped⟩
  case continued => rw [hstep, State.afterStep_of_continued ht]
  case trapped =>
    refine ⟨u.enterSession .trap, by rw [hstep, State.afterStep_of_trapped ht], sameHart_enterSession u .trap, rfl, rfl, rfl,
      rfl, hin, ?report⟩
    rw [State.enterSession_chanOut (by rw [hcfg]; exact hcap), stopReport_trap, hout, hsignal]

/-! ### What a session can change (R464, R493) -/

theorem State.receiveByte_of_mismatch {s : State} {sum h1 h2 : Byte} (hrx : s.rx = .checksumLow sum h1)
    (h : checksumMatches sum h1 h2 = false) : s.receiveByte h2 = { s with rx := .waitStart }.send [ascii '-'] := by
  simp [State.receiveByte, hrx, State.closePacket, h]

/-- In a session with a byte to come, a step is its reception. -/
theorem step_of_received {s : State} {b : Byte} {rest : List (Option Byte)} (hs : s.mode = .debug)
    (h : nextReceived s.chanIn = some (b, rest)) : step s = .next ({ s with chanIn := rest }.receiveByte b) := by
  simp only [step_of_debug hs, State.sessionStep, h]

/-- Settles O51: the last byte of the packet closes it with `-`. -/
theorem badChecksumOnlyAnswersMinus : Obligations.BadChecksumOnlyAnswersMinus := by
  unfold Obligations.BadChecksumOnlyAnswersMinus
  intro s sum h1 h2 rest hs hrx hnext hbad
  rw [step_of_received hs hnext, State.receiveByte_of_mismatch (s := { s with chanIn := rest }) hrx hbad]
  rfl

theorem parseReadMemory_ne_writeMemory (bytes : List Byte) (addr : Nat) (data : List Byte) :
    parseReadMemory bytes ≠ .writeMemory addr data := by
  unfold parseReadMemory
  split <;> exact Command.noConfusion

/-- Only a payload whose first byte is `M` writes memory. -/
theorem head?_of_parseCommand_eq_writeMemory {p : List Byte} {addr : Nat} {data : List Byte}
    (h : parseCommand p = .writeMemory addr data) : p.head? = some (ascii 'M') := by
  cases p with
  | nil => exact absurd h Command.noConfusion
  | cons b bs =>
    by_cases hb : b = ascii 'M'
    · rw [hb, List.head?_cons]
    · have hne : parseCommand (b :: bs) ≠ .writeMemory addr data := by
        simp only [parseCommand, if_neg hb]
        repeat' split
        all_goals simp [parseReadMemory_ne_writeMemory]
      exact absurd h hne

/-- A byte of a session leaves the hart but for memory, and the stub's stop signal and reason. -/
theorem State.receiveByte_frame (s : State) (b : Byte) :
    SameHart s (s.receiveByte b) ∧ (s.receiveByte b).stopSignal = s.stopSignal ∧ (s.receiveByte b).entry = s.entry := by
  rcases s.receiveByte_cases b with ⟨_, _, _, _, h⟩ | ⟨_, _, _, _, h⟩ | ⟨_, _, _, h, _⟩ <;> simp [h, SameHart]

/-- A byte that changes memory is the last of a packet that is accepted and whose command is an `M`. -/
theorem State.receiveByte_mem_ne {s : State} {b : Byte} (h : (s.receiveByte b).mem ≠ s.mem) :
    ∃ sum h1 addr data, s.rx = .checksumLow sum h1 ∧ checksumMatches sum h1 b = true ∧
      parseCommand s.inbuf = .writeMemory addr data ∧ (s.receiveByte b).mem = s.mem.writeBytes addr data := by
  rcases s.receiveByte_cases b with ⟨sum, h1, hrx, hm, he⟩ | ⟨_, _, _, _, he⟩ | ⟨_, _, _, he, _⟩
  case inl =>
    rcases State.runCommand_mem ({ s with rx := .waitStart }.send [ascii '+']) (parseCommand s.inbuf) with
      hsame | ⟨addr, data, hc, _, hmem⟩
    · exact absurd (he ▸ hsame) h
    · exact ⟨sum, h1, addr, data, hrx, hm, hc, he ▸ hmem⟩
  case inr.inl => exact absurd (by simp [he]) h
  case inr.inr => exact absurd (by simp [he]) h

/-- Settles O49: the step takes one byte, or none and nothing changes. -/
theorem sessionsChangeOnlyMemory : Obligations.SessionsChangeOnlyMemory := by
  unfold Obligations.SessionsChangeOnlyMemory
  intro s t hs hstep
  cases (step_of_debug hs).symm.trans hstep
  rcases s.sessionStep_cases with ⟨b, rest, hnext, he⟩ | ⟨_, he⟩ <;> rw [he]
  · obtain ⟨hhart, hsignal, hentry⟩ := State.receiveByte_frame { s with chanIn := rest } b
    refine ⟨hhart, hsignal, hentry, fun hmem => ?written⟩
    obtain ⟨sum, h1, addr, data, hrx, hm, hc, hw⟩ := State.receiveByte_mem_ne (s := { s with chanIn := rest }) hmem
    exact ⟨sum, h1, b, rest, addr, data, hrx, hnext, hm, head?_of_parseCommand_eq_writeMemory hc, hc, hw⟩
  · exact ⟨⟨rfl, rfl, rfl, rfl, rfl⟩, rfl, rfl, fun h => absurd rfl h⟩

end Sys2Proof.Machine
end

section
/-! What the stub writes and reads: hexadecimal digits, numbers and words, checksums and packets (60_exceptions.md sections 9 and 12). -/

namespace Sys2Proof.Machine

/-! ### Digits -/

/-- The sixteen digits, lowercase and uppercase. -/
abbrev lowerDigits : List Byte := "0123456789abcdef".toList.map ascii

@[inherit_doc lowerDigits]
abbrev upperDigits : List Byte := "0123456789ABCDEF".toList.map ascii

theorem lowerDigits_getElem? : ∀ n < 16, lowerDigits[n]? = some (hexDigit n) := by decide

theorem hexValue_hexDigit : ∀ n < 16, hexValue (hexDigit n) = some n := by decide

theorem hexDigit_not_mem_upper : ∀ n < 16, hexDigit n ∉ "ABCDEF".toList.map ascii := by decide

theorem hexDigit_eq_zero : ∀ n < 16, hexDigit n = ascii '0' → n = 0 := by decide

/-- A digit with a value stands at that place of one of the two lists. -/
theorem getElem?_of_hexValue {c : Byte} {d : Nat} (h : hexValue c = some d) :
    lowerDigits[d]? = some c ∨ upperDigits[d]? = some c := by
  have hdigit : ∀ n < 10, lowerDigits[n]? = some (BitVec.ofNat 8 (n + 0x30)) := by decide
  have hlower : ∀ n < 16, 10 ≤ n → lowerDigits[n]? = some (BitVec.ofNat 8 (n + 0x57)) := by decide
  have hupper : ∀ n < 16, 10 ≤ n → upperDigits[n]? = some (BitVec.ofNat 8 (n + 0x37)) := by decide
  have hc {k : Nat} (hk : k ≤ c.toNat) : BitVec.ofNat 8 (c.toNat - k + k) = c := by
    rw [Nat.sub_add_cancel hk, BitVec.ofNat_toNat, BitVec.setWidth_eq]
  unfold hexValue at h
  split_ifs at h with h1 h2 h3 <;> cases h
  · exact .inl (by rw [hdigit _ (by omega), hc (by omega)])
  · exact .inl (by rw [hlower _ (by omega) (by omega), hc (by omega)])
  · exact .inr (by rw [hupper _ (by omega) (by omega), hc (by omega)])

/-- The digit at a place of one of the lists has that value. -/
theorem hexValue_of_getElem? {c : Byte} {d : Nat} (h : lowerDigits[d]? = some c ∨ upperDigits[d]? = some c) :
    hexValue c = some d := by
  have hvalue : ∀ n < 16, (lowerDigits[n]?.bind hexValue = some n) ∧ upperDigits[n]?.bind hexValue = some n := by decide
  rcases h with h | h
  · have hd : d < 16 := (List.getElem?_eq_some_iff.mp h).1
    simpa [h] using (hvalue d hd).1
  · have hd : d < 16 := (List.getElem?_eq_some_iff.mp h).1
    simpa [h] using (hvalue d hd).2

theorem hexValue_eq_some_iff (c : Byte) (d : Nat) :
    hexValue c = some d ↔ lowerDigits[d]? = some c ∨ upperDigits[d]? = some c :=
  ⟨getElem?_of_hexValue, hexValue_of_getElem?⟩

/-! ### Bytes and words -/

theorem map_some_hex2 (b : Byte) : (hex2 b).map some = [lowerDigits[b.toNat / 16]?, lowerDigits[b.toNat % 16]?] := by
  have hb := b.isLt
  rw [lowerDigits_getElem? _ (by omega), lowerDigits_getElem? _ (by omega)]
  rfl

theorem bytesLE_four (v : Word) :
    bytesLE 4 v = [v.extractLsb' 0 8, v.extractLsb' 8 8, v.extractLsb' 16 8, v.extractLsb' 24 8] := by
  apply List.ext_getElem (by simp)
  intro i h _
  rw [getElem_bytesLE]
  rw [length_bytesLE] at h
  obtain rfl | rfl | rfl | rfl : i = 0 ∨ i = 1 ∨ i = 2 ∨ i = 3 := by omega
  all_goals rfl

theorem hex32le_eq_append (v : Word) :
    hex32le v =
      hex2 (v.extractLsb' 0 8) ++ hex2 (v.extractLsb' 8 8) ++ hex2 (v.extractLsb' 16 8) ++ hex2 (v.extractLsb' 24 8) := by
  rw [hex32le, bytesLE_four]
  rfl

/-! ### Checksums and packets -/

theorem toNat_foldl_add (p : List Byte) (sum : Byte) :
    (p.foldl (· + ·) sum).toNat = (sum.toNat + (p.map BitVec.toNat).sum) % 256 := by
  induction p generalizing sum with
  | nil => exact (Nat.mod_eq_of_lt sum.isLt).symm
  | cons b p ih =>
    rw [List.foldl_cons, ih, List.map_cons, List.sum_cons, BitVec.toNat_add]
    omega

theorem toNat_checksum (p : List Byte) : (checksum p).toNat = (p.map BitVec.toNat).sum % 256 := by
  rw [checksum, toNat_foldl_add]
  exact congrArg (· % 256) (Nat.zero_add _)

theorem framed_eq_append (p : List Byte) : framed p = [ascii '$'] ++ p ++ [ascii '#'] ++ hex2 (checksum p) := by
  simp [framed]

theorem checksumMatches_iff (sum h1 h2 : Byte) :
    checksumMatches sum h1 h2 = true ↔ ∃ a b, hexValue h1 = some a ∧ hexValue h2 = some b ∧ 16 * a + b = sum.toNat := by
  unfold checksumMatches
  cases hexValue h1 <;> cases hexValue h2 <;> simp

/-- Settles O59: the digits by their lists, and all else by its own equation. -/
theorem hexNotationAndFraming : Obligations.HexNotationAndFraming := by
  unfold Obligations.HexNotationAndFraming
  exact ⟨hexValue_eq_some_iff, map_some_hex2, hex32le_eq_append, toNat_checksum, framed_eq_append, checksumMatches_iff⟩

/-- The two digits of a byte match it. -/
theorem checksumMatches_hexDigits (b : Byte) :
    checksumMatches b (hexDigit (b.toNat / 16)) (hexDigit (b.toNat % 16)) = true := by
  have hb := b.isLt
  exact (checksumMatches_iff _ _ _).mpr
    ⟨_, _, hexValue_hexDigit _ (by omega), hexValue_hexDigit _ (by omega), Nat.div_add_mod _ _⟩

/-- Settles O53: the two digits after the payload are those of its checksum. -/
theorem sentPacketsCarryTheirChecksum : Obligations.SentPacketsCarryTheirChecksum := by
  unfold Obligations.SentPacketsCarryTheirChecksum
  intro s payload
  refine ⟨_, _, ?framing, checksumMatches_hexDigits _, rfl, ⟨rfl, rfl, rfl, rfl, rfl⟩, rfl⟩
  case framing => simp [framed, hex2]

/-! ### Numbers (R499) -/

/-- A number before its last digit. -/
theorem foldl_hexValue_concat (ds : List Byte) {d : Nat} (hd : d < 16) :
    (ds ++ [hexDigit d]).foldl (fun m b => 16 * m + (hexValue b).getD 0) 0 =
      16 * ds.foldl (fun m b => 16 * m + (hexValue b).getD 0) 0 + d := by
  rw [List.foldl_append, List.foldl_cons, List.foldl_nil, hexValue_hexDigit d hd, Option.getD_some]

/-- The digits that the fuel suffices for: each is a lowercase digit, the first is 0 for the number 0 only, and they write the
number. -/
theorem hexDigitsUp_spec (fuel : Nat) : ∀ n < fuel,
    (∀ b ∈ hexDigitsUp fuel n, ∃ d < 16, b = hexDigit d) ∧
    (∃ d < 16, (hexDigitsUp fuel n).getLast? = some (hexDigit d) ∧ (d = 0 → n = 0)) ∧
    (hexDigitsUp fuel n).reverse.foldl (fun m b => 16 * m + (hexValue b).getD 0) 0 = n := by
  induction fuel with
  | zero => exact fun n hn => absurd hn (Nat.not_lt_zero n)
  | succ fuel ih =>
    intro n hn
    have hmod : n % 16 < 16 := Nat.mod_lt n (by decide)
    rw [hexDigitsUp]
    split
    case isTrue hlt =>
      refine ⟨by simpa using ⟨_, hmod, rfl⟩, ⟨n % 16, hmod, rfl, by omega⟩, ?_⟩
      rw [List.reverse_singleton, ← List.nil_append [_], foldl_hexValue_concat _ hmod, List.foldl_nil]
      omega
    case isFalse hge =>
      obtain ⟨hdigits, ⟨d, hd, hlast, hzero⟩, hvalue⟩ := ih (n / 16) (by omega)
      refine ⟨List.forall_mem_cons.mpr ⟨⟨_, hmod, rfl⟩, hdigits⟩, ⟨d, hd, ?last, fun h => by have := hzero h; omega⟩, ?value⟩
      case last => rw [List.getLast?_cons, hlast, Option.getD_some]
      case value =>
        rw [List.reverse_cons, foldl_hexValue_concat _ hmod, hvalue]
        omega

theorem writesNumber_hexNumber (n : Nat) : WritesNumber (hexNumber n) n := by
  obtain ⟨hdigits, ⟨d, _, hlast, _⟩, hvalue⟩ := hexDigitsUp_spec (n + 1) n (Nat.lt_succ_self n)
  refine ⟨?nonempty, fun b hb => ?digit, hvalue.symm⟩
  case nonempty =>
    intro h
    rw [List.reverse_eq_nil_iff.mp h] at hlast
    cases hlast
  case digit =>
    obtain ⟨e, he, rfl⟩ := hdigits b (List.mem_reverse.mp hb)
    rw [hexValue_hexDigit e he]
    rfl

theorem hexNumber_lowercase (n : Nat) : ∀ b ∈ hexNumber n, b ∉ "ABCDEF".toList.map ascii := by
  intro b hb
  obtain ⟨hdigits, _⟩ := hexDigitsUp_spec (n + 1) n (Nat.lt_succ_self n)
  obtain ⟨d, hd, rfl⟩ := hdigits b (List.mem_reverse.mp hb)
  exact hexDigit_not_mem_upper d hd

/-- Only the number 0 starts with the digit 0, which is then the only one. -/
theorem hexNumber_no_leading_zero (n : Nat) (h : (hexNumber n).head? = some (ascii '0')) : hexNumber n = [ascii '0'] := by
  obtain ⟨_, ⟨d, hd, hlast, hzero⟩, _⟩ := hexDigitsUp_spec (n + 1) n (Nat.lt_succ_self n)
  rw [hexNumber, List.head?_reverse, hlast] at h
  obtain rfl := hzero (hexDigit_eq_zero d hd (Option.some.inj h))
  rfl

end Sys2Proof.Machine
end

section
/-! The commands of the stub (60_exceptions.md R498 to R511): what each payload is read as, and what the reply is. -/

namespace Sys2Proof.Machine

/-! ### Replies -/

theorem onlyReplies_sendPacket (s : State) (payload : List Byte) : OnlyReplies payload s (s.sendPacket payload) := rfl

theorem sameHart_sendPacket (s : State) (payload : List Byte) : SameHart s (s.sendPacket payload) :=
  ⟨rfl, rfl, rfl, rfl, rfl⟩

/-- A payload whose first byte is none of the nine is no command (R510). -/
theorem parseCommand_eq_unknown {p : List Byte}
    (h : ∀ b ∈ p.head?, b ∉ [ascii '?', ascii 'q', ascii 'H', ascii 'g', ascii 'G', ascii 'm', ascii 'M', ascii 'c',
      ascii 'k']) : parseCommand p = .unknown := by
  cases p with
  | nil => rfl
  | cons b bs =>
    have hb := h b rfl
    simp only [List.mem_cons, List.not_mem_nil, or_false, not_or] at hb
    simp only [parseCommand, hb, if_false]

/-- Settles O54: the payloads are read as `H`, `G` and no command, whose replies are packets. -/
theorem acknowledgedCommandsChangeNothing : Obligations.AcknowledgedCommandsChangeNothing := by
  unfold Obligations.AcknowledgedCommandsChangeNothing
  intro s p t
  refine ⟨fun h => ?acknowledged, fun h => ?unknown⟩
  case acknowledged =>
    rcases h with h | h <;> obtain ⟨bs, rfl⟩ := List.head?_eq_some_iff.mp h <;> exact onlyReplies_sendPacket s replyOk
  case unknown =>
    have ht : t = s.sendPacket [] := congrArg s.runCommand (parseCommand_eq_unknown h)
    exact ht ▸ onlyReplies_sendPacket s []

/-! ### `q` (R499) -/

theorem queryReply_S (s : State) : s.queryReply (some (ascii 'S')) = s.packetSizeReply := rfl

theorem queryReply_of_bound {s : State} {letter : Byte} {reply : List Byte} (h : s.cfg.qAck = some (letter, reply))
    (hne : letter ≠ ascii 'S') : s.queryReply (some letter) = reply := by
  simp [State.queryReply, hne, h]

theorem queryReply_of_unbound {s : State} {subLetter : Option Byte} (hS : subLetter ≠ some (ascii 'S'))
    (h : ∀ a ∈ s.cfg.qAck, subLetter ≠ some a.1) : s.queryReply subLetter = [] := by
  cases subLetter with
  | none => rfl
  | some l =>
    have hl : l ≠ ascii 'S' := fun e => hS (e ▸ rfl)
    cases hq : s.cfg.qAck with
    | none => simp [State.queryReply, hl, hq]
    | some a =>
      have ha : l ≠ a.1 := fun e => h a hq (e ▸ rfl)
      simp [State.queryReply, hl, hq, ha]

/-- Settles O55: each payload is read by its first byte, and a query's reply by its second. -/
theorem signalKillResumeAndQueries : Obligations.SignalKillResumeAndQueries := by
  unfold Obligations.SignalKillResumeAndQueries
  intro s args does
  have hquery : does 'q' = s.sendPacket (s.queryReply args.head?) := rfl
  refine ⟨rfl, rfl, rfl, fun hS => ?packetSize, fun letter reply hq hne hl => ?bound, fun hS hq => ?unbound⟩ <;> rw [hquery]
  case packetSize =>
    rw [hS, queryReply_S]
    exact ⟨hexNumber s.cfg.pktInCap, writesNumber_hexNumber _, hexNumber_lowercase _, hexNumber_no_leading_zero _, rfl⟩
  case bound =>
    rw [hl, queryReply_of_bound hq hne]
    rfl
  case unbound =>
    rw [queryReply_of_unbound hS hq]
    rfl

/-! ### `g` (R501) -/

/-- In a concatenation of parts of `n` bytes, part `i` begins at byte `n * i`. -/
theorem take_drop_flatMap {α : Type} (f : α → List Byte) {n : Nat} (hf : ∀ a, (f a).length = n) (tail : List Byte) :
    ∀ (l : List α) (i : Nat) (h : i < l.length), ((l.flatMap f ++ tail).drop (n * i)).take n = f l[i] := by
  intro l
  induction l with
  | nil => exact fun i h => absurd h (Nat.not_lt_zero i)
  | cons a l ih =>
    intro i h
    rw [List.flatMap_cons, List.append_assoc]
    cases i with
    | zero => exact List.take_left' (hf a)
    | succ i =>
      rw [Nat.mul_succ, Nat.add_comm, ← List.drop_drop, List.drop_left' (hf a)]
      exact ih i (Nat.lt_of_succ_lt_succ h)

theorem length_registers (s : State) : ((List.finRange 32).flatMap fun r => hex32le (s.readReg r)).length = 256 := by
  simp

theorem length_registersReply (s : State) : s.registersReply.length = 264 := by
  rw [State.registersReply, List.length_append, length_registers, length_hex32le]

theorem registersReply_register (s : State) (r : Reg) :
    (s.registersReply.drop (8 * r.val)).take 8 = hex32le (s.readReg r) := by
  rw [State.registersReply, take_drop_flatMap _ (fun _ => length_hex32le _) _ _ _ (by simp)]
  simp

theorem registersReply_pc (s : State) : s.registersReply.drop 256 = hex32le s.pc :=
  List.drop_left' (length_registers s)

/-- Settles O56: the reply fits every outbound packet the spec allows, so it is sent whole. -/
theorem registersReplyIsWhole : Obligations.RegistersReplyIsWhole := by
  unfold Obligations.RegistersReplyIsWhole
  intro s args hwf t
  have hwhole : t.outbuf = s.registersReply :=
    List.take_of_length_le (by rw [length_registersReply]; exact hwf.pktOutCap_ge)
  rw [hwhole]
  refine ⟨length_registersReply s, registersReply_register s, registersReply_pc s, ?sent, sameHart_sendPacket s _, rfl⟩
  rw [← hwhole]
  rfl

/-! ### The operands of `m` and `M` (R506, R507) -/

theorem hexValue_comma : hexValue (ascii ',') = none := by decide

theorem hexValue_colon : hexValue (ascii ':') = none := by decide

/-- An address and a length are read whole, before something that starts with no hex digit. -/
theorem addressAndLength_append {as ls rest : List Byte} {a l : Nat} (has : WritesNumber as a) (hls : WritesNumber ls l)
    (hrest : ∀ b ∈ rest.head?, hexValue b = none) :
    addressAndLength (as ++ ascii ',' :: (ls ++ rest)) = some (a, l, rest) := by
  have haddr : hexNat (as ++ ascii ',' :: (ls ++ rest)) = some (a, ascii ',' :: (ls ++ rest)) :=
    hexNat_append has fun b hb => by cases hb; exact hexValue_comma
  simp only [addressAndLength, haddr, hexNat_append hls hrest, if_true]

/-- What is read as an address and a length is two numbers around a comma. -/
theorem addressAndLength_eq_some {bytes rest : List Byte} {a l : Nat} (h : addressAndLength bytes = some (a, l, rest)) :
    ∃ as ls, bytes = as ++ ascii ',' :: (ls ++ rest) ∧ WritesNumber as a ∧ WritesNumber ls l := by
  unfold addressAndLength at h
  split at h
  case h_1 addr c after haddr =>
    split at h
    case isTrue hc =>
      split at h
      case h_1 len rest' hlen =>
        cases h
        obtain ⟨as, rfl, has⟩ := hexNat_eq_some haddr
        obtain ⟨ls, rfl, hls⟩ := hexNat_eq_some hlen
        exact ⟨as, ls, by rw [hc], has, hls⟩
      case h_2 => cases h
    case isFalse => cases h
  case h_2 => cases h

/-! ### `m` (R506) -/

theorem parseReadMemory_append {as ls : List Byte} {a l : Nat} (has : WritesNumber as a) (hls : WritesNumber ls l) :
    parseReadMemory (as ++ ascii ',' :: ls) = .readMemory a l := by
  have h := addressAndLength_append (rest := []) has hls (by simp)
  rw [List.append_nil] at h
  simp only [parseReadMemory, h]

theorem parseReadMemory_of_malformed {args : List Byte}
    (h : ¬ ∃ as ls a l, args = as ++ ascii ',' :: ls ∧ WritesNumber as a ∧ WritesNumber ls l) :
    parseReadMemory args = .malformed := by
  unfold parseReadMemory
  split
  case h_1 a l hal =>
    obtain ⟨as, ls, hargs, has, hls⟩ := addressAndLength_eq_some hal
    rw [List.append_nil] at hargs
    exact absurd ⟨as, ls, a, l, hargs, has, hls⟩ h
  case h_2 => rfl

theorem Memory.readBytes_eq_map (m : Memory) (a n : Nat) : m.readBytes a n = (List.range n).map fun i => m.get (a + i) :=
  List.ext_getElem (by simp) fun i h _ => by simp [Memory.getElem_readBytes]

theorem runCommand_readMemory_inside {s : State} {a l : Nat} (h : a + l ≤ s.cfg.memSize) :
    s.runCommand (.readMemory a l) = s.sendPacket ((List.range l).flatMap fun i => hex2 (s.mem.get (a + i))) := by
  rcases s.viewRead_cases a l with ⟨_, hr⟩ | ⟨hn, _⟩
  · simp only [State.runCommand, hr, Memory.readBytes_eq_map, List.flatMap_map]
  · exact absurd h hn

theorem runCommand_readMemory_outside {s : State} {a l : Nat} (h : ¬ a + l ≤ s.cfg.memSize) :
    s.runCommand (.readMemory a l) = s.sendPacket replyE03 := by
  rcases s.viewRead_cases a l with ⟨hv, _⟩ | ⟨_, hr⟩
  · exact absurd hv h
  · simp only [State.runCommand, hr]

/-- Settles O57: two numbers around a comma are read as the range, whose bytes or E03 are replied, and other payloads as
malformed. -/
theorem readMemoryCommand : Obligations.ReadMemoryCommand := by
  unfold Obligations.ReadMemoryCommand
  intro s args t
  have ht : t = s.runCommand (parseReadMemory args) := rfl
  clear_value t
  refine ⟨fun as ls a l hargs has hls => ?wellFormed, fun hbad => ?malformed⟩
  case wellFormed =>
    rw [ht, hargs, parseReadMemory_append has hls]
    exact ⟨fun h => by rw [runCommand_readMemory_inside h]; exact onlyReplies_sendPacket s _,
      fun h => by rw [runCommand_readMemory_outside h]; exact onlyReplies_sendPacket s _⟩
  case malformed =>
    rw [ht, parseReadMemory_of_malformed hbad]
    exact onlyReplies_sendPacket s replyE01

/-! ### `M` (R507) -/

/-- The payload after the `M` is two numbers around a comma, a colon, and two hex digits for each byte. -/
def IsWriteMemory (args as ls ds : List Byte) (a l : Nat) : Prop :=
  args = as ++ ascii ',' :: (ls ++ ascii ':' :: ds) ∧ WritesNumber as a ∧ WritesNumber ls l ∧
    ds.length = 2 * l ∧ ∀ d ∈ ds, (hexValue d).isSome

/-- A well-formed `M` is read as a write of the bytes that its digits make. -/
theorem IsWriteMemory.parse {args as ls ds : List Byte} {a l : Nat} (h : IsWriteMemory args as ls ds a l) :
    ∃ data, parseWriteMemory args = .writeMemory a data ∧ data.length = l ∧
      ∀ i h1 h2, i < l → ds[2 * i]? = some h1 → ds[2 * i + 1]? = some h2 →
        data[i]? = some (BitVec.ofNat 8 ((hexValue h1).getD 0 * 16 + (hexValue h2).getD 0)) := by
  obtain ⟨rfl, has, hls, hlen, hds⟩ := h
  obtain ⟨data, hdata, hlength, hbyte⟩ := exists_hexBytes l ds hlen hds
  have hal := addressAndLength_append (rest := ascii ':' :: ds) has hls fun b hb => by cases hb; exact hexValue_colon
  exact ⟨data, by simp only [parseWriteMemory, hal, hdata, hlength, if_true], hlength, hbyte⟩

theorem parseWriteMemory_of_malformed {args : List Byte} (h : ¬ ∃ as ls ds a l, IsWriteMemory args as ls ds a l) :
    parseWriteMemory args = .malformed := by
  unfold parseWriteMemory
  split
  case h_1 a l c ds hal =>
    split
    case isTrue hc =>
      split
      case h_1 data hdata =>
        split
        case isTrue hlen =>
          obtain ⟨as, ls, hargs, has, hls⟩ := addressAndLength_eq_some hal
          obtain ⟨hlength, hdigits⟩ := length_of_hexBytes hdata
          exact absurd ⟨as, ls, ds, a, l, hc ▸ hargs, has, hls, hlen ▸ hlength, hdigits⟩ h
        case isFalse => rfl
      case h_2 => rfl
    case isFalse => rfl
  case h_2 => rfl

theorem runCommand_writeMemory_inside {s : State} {a : Nat} {data : List Byte} (h : a + data.length ≤ s.cfg.memSize) :
    s.runCommand (.writeMemory a data) = { s with mem := s.mem.writeBytes a data }.sendPacket replyOk := by
  rcases s.viewWrite_cases a data with ⟨_, hw⟩ | ⟨hn, _⟩
  · simp only [State.runCommand, hw]
  · exact absurd h hn

theorem runCommand_writeMemory_outside {s : State} {a : Nat} {data : List Byte} (h : ¬ a + data.length ≤ s.cfg.memSize) :
    s.runCommand (.writeMemory a data) = s.sendPacket replyE03 := by
  rcases s.viewWrite_cases a data with ⟨hv, _⟩ | ⟨_, hw⟩
  · exact absurd hv h
  · simp only [State.runCommand, hw]

theorem sameHart_runCommand (s : State) (c : Command) : SameHart s (s.runCommand c) := by
  simp [SameHart]

/-- Settles O58: a well-formed payload is read as a write, which is done or replied E03, and other payloads as malformed. -/
theorem writeMemoryCommand : Obligations.WriteMemoryCommand := by
  unfold Obligations.WriteMemoryCommand
  intro s args t wellFormed
  have ht : t = s.runCommand (parseWriteMemory args) := rfl
  clear_value t
  subst ht
  refine ⟨sameHart_runCommand s _, s.runCommand_mode (parseWriteMemory_ne_resume args),
    fun as ls ds a l h => ?wellFormed, fun hbad => ?malformed⟩
  case wellFormed =>
    obtain ⟨data, hparse, rfl, hbyte⟩ := IsWriteMemory.parse h
    rw [hparse]
    refine ⟨fun hin => ?inside, fun hout => ?outside⟩
    case inside =>
      rw [runCommand_writeMemory_inside hin]
      refine ⟨⟨rfl, rfl⟩, fun i h1 h2 hi e1 e2 => ?written, fun b hb => Memory.get_writeBytes_outside data s.mem a b hb⟩
      have hdata := List.getElem?_eq_some_iff.mp (hbyte i h1 h2 hi e1 e2)
      exact (Memory.get_writeBytes_inside data s.mem a i hi).trans hdata.2
    case outside =>
      rw [runCommand_writeMemory_outside hout]
      exact onlyReplies_sendPacket s _
  case malformed =>
    rw [parseWriteMemory_of_malformed hbad]
    exact onlyReplies_sendPacket s replyE01

end Sys2Proof.Machine
end

section
/-! The reception of a packet over the steps of a session (60_exceptions.md R460 to R462): the bytes it takes, past the polls that
find nothing, and the run of the steps. -/

namespace Sys2Proof.Machine

/-! ### The bytes that an input brings -/

/-- The input brings exactly these bytes, and ends with the last of them. -/
def Brings (input : List (Option Byte)) (bytes : List Byte) : Prop :=
  input.filterMap id = bytes ∧ input.getLast? ≠ some none

theorem getLast?_ne_some_none_of_cons {e : Option Byte} {input : List (Option Byte)} (h : (e :: input).getLast? ≠ some none) :
    input.getLast? ≠ some none := by
  intro hlast
  rw [List.getLast?_cons, hlast] at h
  exact h rfl

/-- What brings nothing is empty: it would end with a poll that finds nothing. -/
theorem Brings.eq_nil {input : List (Option Byte)} (h : Brings input []) : input = [] := by
  obtain ⟨hnone, hlast⟩ := h
  cases he : input.getLast? with
  | none => exact List.getLast?_eq_none_iff.mp he
  | some e =>
    have hen : e = none := List.filterMap_eq_nil_iff.mp hnone e (List.mem_of_getLast? he)
    exact absurd (hen ▸ he) hlast

/-- The first byte is received, and the rest of the input brings the others. -/
theorem Brings.next {input : List (Option Byte)} {b : Byte} {bytes : List Byte} (h : Brings input (b :: bytes))
    (rest : List (Option Byte)) :
    ∃ input', nextReceived (input ++ rest) = some (b, input' ++ rest) ∧ Brings input' bytes := by
  induction input with
  | nil => cases h.1
  | cons e input ih =>
    obtain ⟨hbytes, hlast⟩ := h
    cases e with
    | none => exact ih ⟨hbytes, getLast?_ne_some_none_of_cons hlast⟩
    | some c =>
      cases hbytes
      exact ⟨input, rfl, rfl, getLast?_ne_some_none_of_cons hlast⟩

/-! ### Steps that receive -/

/-- A run of `n` steps from `s` ends in `t`. -/
def Runs (n : Nat) (s t : State) : Prop := Host.Core.run core n s = .next t

theorem Runs.step {n : Nat} {s t u : State} (h : Machine.step s = .next t) (hrun : Runs n t u) : Runs (n + 1) s u :=
  (run_succ_of_step (M := core) h).trans hrun

/-- A step of a session takes the first byte that its input brings. -/
theorem Brings.step {s : State} {input rest : List (Option Byte)} {b : Byte} {bytes : List Byte}
    (h : Brings input (b :: bytes)) (hs : s.mode = .debug) (hin : s.chanIn = input ++ rest) :
    ∃ input', Machine.step s = .next ({ s with chanIn := input' ++ rest }.receiveByte b) ∧ Brings input' bytes := by
  obtain ⟨input', hnext, hbrings⟩ := h.next rest
  exact ⟨input', step_of_received hs (hin ▸ hnext), hbrings⟩

/-- `s` while it receives a payload: the sum so far, what is kept of it, and the input still to come. -/
def State.receiving (s : State) (sum : Byte) (kept : List Byte) (input : List (Option Byte)) : State :=
  { s with rx := .payload sum, inbuf := kept, chanIn := input }

/-- A byte of the payload counts in the sum and is kept while there is room (R461, R462). -/
theorem State.receiving_receiveByte (s : State) (sum : Byte) {kept : List Byte} (input : List (Option Byte)) {b : Byte}
    (hb : b ≠ ascii '#') (hkept : kept.length ≤ s.cfg.pktInCap) :
    (s.receiving sum kept input).receiveByte b =
      s.receiving (sum + b) ((kept ++ [b]).take s.cfg.pktInCap) input := by
  have htake : (if kept.length < s.cfg.pktInCap then kept ++ [b] else kept) = (kept ++ [b]).take s.cfg.pktInCap := by
    split
    case isTrue h => exact (List.take_of_length_le (by simpa using h)).symm
    case isFalse h => exact (List.take_left' (by omega)).symm
  rw [← htake]
  simp only [State.receiving, State.receiveByte, if_neg hb]
  rfl

theorem take_take_append {α : Type} (n : Nat) (l l' : List α) : (l.take n ++ l').take n = (l ++ l').take n := by
  rw [List.take_append, List.take_append, List.take_take, Nat.min_self, List.length_take]
  congr 2
  omega

/-- The steps of a payload, before whatever the rest of the input makes of the state after it. -/
theorem runs_payload {s u : State} (hs : s.mode = .debug) {rest : List (Option Byte)} {tail : List Byte} {n : Nat}
    (payload : List Byte) (hpayload : ∀ b ∈ payload, b ≠ ascii '#') :
    ∀ (sum : Byte) (kept : List Byte) (input : List (Option Byte)), kept.length ≤ s.cfg.pktInCap →
      Brings input (payload ++ tail) →
      (∀ input', Brings input' tail →
        Runs n (s.receiving (payload.foldl (· + ·) sum) ((kept ++ payload).take s.cfg.pktInCap) (input' ++ rest)) u) →
      Runs (payload.length + n) (s.receiving sum kept (input ++ rest)) u := by
  induction payload with
  | nil =>
    intro sum kept input hkept hin hrest
    have hrun := hrest input hin
    rw [List.append_nil, List.take_of_length_le hkept] at hrun
    rw [List.length_nil, Nat.zero_add]
    exact hrun
  | cons b payload ih =>
    obtain ⟨hb, hpayload⟩ := List.forall_mem_cons.mp hpayload
    intro sum kept input hkept hin hrest
    obtain ⟨input', hstep, hin'⟩ := Brings.step (s := s.receiving sum kept (input ++ rest)) hin hs rfl
    rw [List.length_cons, Nat.add_right_comm]
    refine Runs.step (hstep.trans (congrArg _ (s.receiving_receiveByte sum (input' ++ rest) hb hkept))) ?_
    refine ih hpayload _ _ input' (List.length_take_le _ _) hin' fun input'' hin'' => ?_
    rw [take_take_append, List.append_assoc]
    exact hrest input'' hin''

/-- The three bytes after a payload close the packet. -/
theorem runs_close {s : State} (hs : s.mode = .debug) {sum h1 h2 : Byte} {kept : List Byte}
    {input rest : List (Option Byte)} (hin : Brings input [ascii '#', h1, h2]) :
    Runs 3 (s.receiving sum kept (input ++ rest))
      (State.closePacket { s with rx := .checksumLow sum h1, inbuf := kept, chanIn := rest } sum h1 h2) := by
  obtain ⟨i1, hstep1, hin1⟩ := Brings.step (s := s.receiving sum kept (input ++ rest)) hin hs rfl
  obtain ⟨i2, hstep2, hin2⟩ := Brings.step
    (s := { s with rx := .checksumHigh sum, inbuf := kept, chanIn := i1 ++ rest }) hin1 hs rfl
  obtain ⟨i3, hstep3, hin3⟩ := Brings.step
    (s := { s with rx := .checksumLow sum h1, inbuf := kept, chanIn := i2 ++ rest }) hin2 hs rfl
  obtain rfl := hin3.eq_nil
  exact .step hstep1 (.step hstep2 (.step hstep3 rfl))

/-- Settles O52: the first byte opens the packet, those of the payload are counted and kept, and the last three close it. -/
theorem receivedPacketRunsItsCommand : Obligations.ReceivedPacketRunsItsCommand := by
  unfold Obligations.ReceivedPacketRunsItsCommand
  intro s payload h1 h2 input rest hs hrx hpayload hbytes hlast hin seen t
  have hbrings : Brings input (ascii '$' :: (payload ++ [ascii '#', h1, h2])) :=
    ⟨hbytes, by rw [hlast]; simp⟩
  obtain ⟨input', hstep, hin'⟩ := hbrings.step hs hin
  have hopen : { s with chanIn := input' ++ rest }.receiveByte (ascii '$') = s.receiving 0 [] (input' ++ rest) := by
    simp only [State.receiveByte, hrx, if_true]
    rfl
  have hrun := runs_payload (rest := rest) hs payload hpayload 0 [] input' (Nat.zero_le _) hin' fun _ => runs_close hs
  have ht : { s with rx := .waitStart, inbuf := seen, chanIn := rest } = t := by rw [← hrx]
  refine (Runs.step (hopen ▸ hstep) hrun).trans (congrArg _ ?_)
  rw [← ht]
  rfl

end Sys2Proof.Machine
end

section
/-! The host-capability hook (92_eei_decisions.md D24; 20_memory.md R90): what a step does with an ECALL that the host is there to
answer. -/

namespace Sys2Proof.Machine

theorem runInstruction_of_declined {s : State} {rest : List (Option HostAnswer)} (hc : s.cfg.hostCall = true)
    (h : s.hostIn = none :: rest) : runInstruction .ecall s = exec .ecall { s with hostIn := rest } := by
  simp [runInstruction, State.askHook, hc, h]

theorem runInstruction_of_answered {s : State} {a : HostAnswer} {rest : List (Option HostAnswer)}
    (hc : s.cfg.hostCall = true) (h : s.hostIn = some a :: rest) :
    runInstruction .ecall s = .next ({ s with hostIn := rest }.serveHook a) := by
  simp [runInstruction, State.askHook, hc, h]

/-- Whether its views are valid or not, a served call completes at `pc + 4` and writes no register but a0, and no CSR. -/
theorem State.serveHook_frame (s : State) (a : HostAnswer) :
    (s.serveHook a).pc = s.pc + 4 ∧ (s.serveHook a).outcome = .continued ∧ SameRegsBut 10 s (s.serveHook a) ∧
      (s.serveHook a).csrs = s.csrs := by
  rcases s.serveHook_cases a with ⟨_, h⟩ | ⟨_, h⟩ <;> rw [h]
  all_goals
    exact ⟨by simp [State.hookReturns], by simp [State.hookReturns], fun _ hr => State.readReg_writeNext_ne _ _ hr,
      by simp [State.hookReturns]⟩

theorem State.readReg_hookReturns (s : State) (call : HostCall) (result : Word) :
    (s.hookReturns call result).readReg 10 = result := by
  rw [State.hookReturns, hookResult, State.readReg_writeNext_same, if_neg (by decide)]

/-- With all its views in memory a served call gives the host's result, and memory is written. -/
theorem State.serveHook_of_valid {s : State} {a : HostAnswer}
    (hv : (∀ v ∈ a.reads, v.1 + v.2 ≤ s.cfg.memSize) ∧ (∀ v ∈ a.writes, v.1 + v.2.length ≤ s.cfg.memSize)) :
    (s.serveHook a).readReg 10 = a.result ∧
      (s.serveHook a).hostOut = s.hostOut ++ [s.hookCall (a.reads.map fun v => s.mem.readBytes v.1 v.2)] ∧
      (s.serveHook a).mem =
        a.writes.foldl (fun (m : Memory) (v : Nat × List Byte) => m.writeBytes v.1 v.2) s.mem := by
  rcases s.serveHook_cases a with ⟨_, h⟩ | ⟨hn, _⟩
  · rw [h]
    exact ⟨State.readReg_hookReturns _ _ _, by simp [State.hookReturns], by simp [State.hookReturns]⟩
  · exact absurd hv hn

/-- With a view outside memory it gives the failure's result, and memory is as it was. -/
theorem State.serveHook_of_invalid {s : State} {a : HostAnswer}
    (hn : ¬ ((∀ v ∈ a.reads, v.1 + v.2 ≤ s.cfg.memSize) ∧ (∀ v ∈ a.writes, v.1 + v.2.length ≤ s.cfg.memSize))) :
    (s.serveHook a).readReg 10 = a.failure ∧ (s.serveHook a).hostOut = s.hostOut ++ [s.hookCall []] ∧
      (s.serveHook a).mem = s.mem := by
  rcases s.serveHook_cases a with ⟨hv, _⟩ | ⟨_, h⟩
  · exact absurd hv hn
  · rw [h]
    exact ⟨State.readReg_hookReturns _ _ _, by simp [State.hookReturns], by simp [State.hookReturns]⟩

/-- A byte of a view that no later view covers is what that view wrote. -/
theorem Memory.get_writeViews_inside (before after : List (Nat × List Byte)) (v : Nat × List Byte) {i : Nat}
    (hi : i < v.2.length) (hafter : ∀ w ∈ after, Outside w.1 w.2.length (v.1 + i)) (m : Memory) :
    ((before ++ v :: after).foldl (fun (m : Memory) (v : Nat × List Byte) => m.writeBytes v.1 v.2) m).get (v.1 + i) =
      v.2[i] := by
  rw [List.foldl_append, List.foldl_cons, Memory.get_writeViews_outside after hafter,
    Memory.get_writeBytes_inside v.2 _ v.1 i hi]

/-- The same call, with what the host has seen of memory byte by byte. -/
theorem hookCall_readBytes (s : State) (reads : List (Nat × Nat)) :
    s.hookCall (reads.map fun v => s.mem.readBytes v.1 v.2) =
      ⟨s.readReg 17, [10, 11, 12, 13, 14, 15, 16].map s.readReg,
        reads.map fun v => (List.range v.2).map fun i => s.mem.get (v.1 + i)⟩ := by
  simp only [Memory.readBytes_eq_map]
  rfl

/-- Settles O60: an ECALL the host does not answer is its meaning; one it answers is a served call, whose return changes a0, the
pc and the record, from a memory with all views written or none. -/
theorem hostHookServesEcalls : Obligations.HostHookServesEcalls := by
  unfold Obligations.HostHookServesEcalls
  intro s hvalid hd
  refine ⟨fun h => ?notAsked, fun rest hc hin => ?declined, fun a rest hc hin => ?answered⟩
  case notAsked => exact engineStep_of_not_asked hvalid hd (.inr h)
  case declined => rw [engineStep_of_instr hvalid hd, runInstruction_of_declined hc hin]
  case answered =>
    intro valid call
    have hstep : engineStep s = .next ({ s with hostIn := rest }.serveHook a).forceX0 := by
      rw [engineStep_of_instr hvalid hd, runInstruction_of_answered hc hin, Answer.mapNext_next]
    obtain ⟨hpc, hout, hregs, hcsrs⟩ := State.serveHook_frame { s with hostIn := rest } a
    refine ⟨_, hstep, hpc, hout, fun r hr => (State.readReg_forceX0 _ r).trans (hregs r hr), hcsrs,
      State.serveHook_sameSession { s with hostIn := rest } a, fun hv => ?valid, fun hn => ?invalid⟩
    case valid =>
      obtain ⟨hresult, hrecord, hmem⟩ := State.serveHook_of_valid (s := { s with hostIn := rest }) hv
      rw [hookCall_readBytes] at hrecord
      refine ⟨(State.readReg_forceX0 _ 10).trans hresult, hrecord, ?inside, ?outside⟩ <;> rw [State.forceX0_mem, hmem]
      case inside =>
        intro before v after hwrites i hi hafter
        rw [hwrites]
        exact Memory.get_writeViews_inside before after v hi hafter s.mem
      case outside => exact fun b hb => Memory.get_writeViews_outside a.writes hb s.mem
    case invalid =>
      obtain ⟨hresult, hrecord, hmem⟩ := State.serveHook_of_invalid (s := { s with hostIn := rest }) hn
      exact ⟨(State.readReg_forceX0 _ 10).trans hresult, hrecord, hmem⟩

end Sys2Proof.Machine
end
